-- ==== Sys2Proof/Word.lean ====
section
/-! DEFINITION. The word types of SPDENG. Every quantity of the spec is unsigned (R5). -/

namespace Sys2Proof

/-- One byte: a controller register, a transaction byte, a byte of an image (R2 REG_WIDTH, R12). -/
abbrev Byte := BitVec 8

/-- An address of the I/O port space, 16 bits (R3 IO_ADDR_W, R40). -/
abbrev Port := BitVec 16

/-- A command word at the command port, 32 bits (R61). -/
abbrev Word := BitVec 32

/-- An SMBus slave address, 7 bits (R12, R40). -/
abbrev SlaveAddr := BitVec 7

end Sys2Proof
end

