-- ==== Sys2Proof/Machine/Constants.lean ====
section
/-! DEFINITION. The numbers the source fixes (R2) and the two sizes the spec fixes (R3). -/

namespace Sys2Proof.Machine

/-- NSLOTS (R2). -/
def nSlots : Nat := 8

/-- SLAVE_FIRST, the slave address of slot 0 (R2). -/
def slaveFirst : SlaveAddr := 0x50#7

/-- IMG_CAP, the capacity of an image in bytes (R2). -/
def imgCap : Nat := 512

/-- LEN_LEGACY (R2). -/
def lenLegacy : Nat := 256

/-- LEN_BIG (R2). -/
def lenBig : Nat := 512

/-- BIG_MARKER, the value of header byte 2 that selects LEN_BIG (R2, R114). -/
def bigMarker : Byte := 0x0C#8

/-- HDR_LEN, the number of header bytes (R2). -/
def hdrLen : Nat := 4

/-- POLL_BUDGET, the iterations of each of the two waits (R2). -/
def pollBudget : Nat := 1000

/-- STALL_US, "carried for estimates only" (D26): no rule reads it (log 21). -/
def stallMicroseconds : Nat := 10

/-- SPDIMG_SIZE, the size of one serialised image (R3, R70). -/
def spdImgSize : Nat := 516

end Sys2Proof.Machine
end

