-- ==== Sys2Proof/Config.lean ====
section
/-! DEFINITION. What an implementation of SPDENG fixes (the open parameters of R3) and the free values
(the draws of R46 and R166). The parameters and the free values are opaque: no proof can see one. -/

namespace Sys2Proof

/-- The implementation parameters of R3 (decisions D5, D6, D7, D22).
DESIGN CHOICE (log 1): a record the machine carries unchanged in State, so that a step can be run at any legal
parameter values. -/
structure Params where
  /-- OFF_STS: offset of the status register from BASE. -/
  offSts : Byte
  /-- OFF_CTL: offset of the control register. -/
  offCtl : Byte
  /-- OFF_CMD: offset of the command register. -/
  offCmd : Byte
  /-- OFF_ADDR: offset of the address register. -/
  offAddr : Byte
  /-- OFF_DAT0: offset of the data-low register. -/
  offDat0 : Byte
  /-- OFF_DAT1: offset of the data-high register, which the engine never accesses (R26). -/
  offDat1 : Byte
  /-- M_BUSY: mask of the busy bit. -/
  mBusy : Byte
  /-- M_INTR: mask of the interrupt (completion) bit. -/
  mIntr : Byte
  /-- M_ERR: mask of the error bit or bits. -/
  mErr : Byte
  /-- OPC_READ: "the block-read opcode" written to the control register. -/
  opcRead : Byte
  /-- RTR_SIZE: size in bytes of one RamTimingRecord. -/
  rtrSize : Nat
deriving DecidableEq, Repr, Inhabited

/-- The six register offsets, in the order the source lists the registers (R48). -/
def Params.offsets (p : Params) : List Byte :=
  [p.offSts, p.offCtl, p.offCmd, p.offAddr, p.offDat0, p.offDat1]

/-- R3: "all six offsets pairwise distinct". -/
def Params.offsetsDistinct (p : Params) : Bool := decide p.offsets.Nodup

/-- R3: each offset "less than 0x20". -/
def Params.offsetsSmall (p : Params) : Bool := p.offsets.all fun o => decide (o.toNat < 0x20)

/-- R3: each status mask is non-zero. -/
def Params.masksNonzero (p : Params) : Bool := p.mBusy != 0#8 && p.mIntr != 0#8 && p.mErr != 0#8

/-- R3: the three masks are pairwise disjoint. -/
def Params.masksDisjoint (p : Params) : Bool :=
  (p.mBusy &&& p.mIntr) == 0#8 && (p.mBusy &&& p.mErr) == 0#8 && (p.mIntr &&& p.mErr) == 0#8

/-- R3: RTR_SIZE is "a positive integer less than 2^24". -/
def Params.rtrSizeLegal (p : Params) : Bool := decide (0 < p.rtrSize) && decide (p.rtrSize < 2 ^ 24)

/-- All the constraints of R3, which are what a proof about the parameters may use. -/
def Params.ok (p : Params) : Bool :=
  p.offsetsDistinct && p.offsetsSmall && p.masksNonzero && p.masksDisjoint && p.rtrSizeLegal

/-- Some parameter record, not necessarily a legal one. No proof can see it. -/
opaque Config.rawParams : Params

/-- A legal record, so that `Config.params` is legal whatever `Config.rawParams` is. Its numbers are only a witness
that the constraints can be met, and nothing can be proved from them about `Config.params` but `Params.ok`. -/
def Config.someLegalParams : Params where
  offSts := 0x1A#8
  offCtl := 0x1B#8
  offCmd := 0x1C#8
  offAddr := 0x1D#8
  offDat0 := 0x1E#8
  offDat1 := 0x1F#8
  mBusy := 0x10#8
  mIntr := 0x20#8
  mErr := 0xC0#8
  opcRead := 0#8
  rtrSize := 1

/-- The machine's parameters: any legal record (R3), since `Config.rawParams` may be any record. -/
def Config.params : Params := if Config.rawParams.ok then Config.rawParams else Config.someLegalParams

/-- Free value (log 2): the controller's answer to the n-th `IOR8`, "any 8-bit value, chosen by the environment at
each read, independent of every earlier answer and of every write" (R46). -/
opaque Config.ioAnswer : Nat → Byte

/-- Free value (log 3): the n-th byte the external timing source supplies for `CTLA` (R166, D22). -/
opaque Config.timingByte : Nat → Byte

/-- Some naming of the persisted artifacts, not necessarily an injective one. No proof can see it. -/
opaque Config.rawArtifactName : Fin 8 → String

/-- The name of the file that `persist` writes for a slot (R146): OPEN, "required injective" (D24). -/
def Config.artifactName : Fin 8 → String :=
  if ∀ i j, Config.rawArtifactName i = Config.rawArtifactName j → i = j then Config.rawArtifactName
  else fun i => String.ofList (List.replicate i.val 'x')

end Sys2Proof
end

