-- ==== Sys2Proof/Syntax.lean ====
section
/-! DEFINITION. The six commands of SPDENG (R61), one constructor for each row of spec/opcode_table.json. -/

namespace Sys2Proof

/-- A command of the command port. "Every operand is an unsigned field taken from the word as it stands" (R62), so an
operand has the type of its field. -/
inductive Instr where
  /-- SETBASE base (R161). -/
  | setbase (base : BitVec 16)
  /-- RDBYTE slave, offset (R101). -/
  | rdbyte (slave : BitVec 7) (offset : BitVec 8)
  /-- ACQALL (R110). -/
  | acqall
  /-- SUMM slot (R140). -/
  | summ (slot : BitVec 3)
  /-- CTLA outLen (R166). -/
  | ctla (outLen : BitVec 24)
  /-- CTLB outLen (R164). -/
  | ctlb (outLen : BitVec 24)
deriving DecidableEq, Repr

end Sys2Proof
end

