-- ==== Sys2Proof/WellFormed.lean ====
section
/-! DEFINITION. Well-formedness of commands and of parameter records.

A command needs no check of its own: each operand's type is exactly its field (R61), and every value of every field is
legal (R101, R140, R161, R166). What can be ill-formed is a WORD, which the decoder refuses by name (Decode.lean), and a
parameter record, whose checks are those of R3 (Config.lean). -/

namespace Sys2Proof

/-- Every operand at every value of its field is a legal command: "any 16-bit value including 0" (R161), "any value 0 to
127" and "any value" (R101), "0 to 7" (R140); an `outLen` of the wrong size is a legal command that is answered with
InvalidBufferSize (R163). -/
def Instr.wellFormed : Instr → Bool
  | .setbase _ => true
  | .rdbyte _ _ => true
  | .acqall => true
  | .summ _ => true
  | .ctla _ => true
  | .ctlb _ => true

/-- The parameter records a machine may have (R202: the parameters "must satisfy their constraints"). -/
def Params.wellFormed (p : Params) : Bool := p.ok

end Sys2Proof
end

