-- ==== Sys2Proof/Decode.lean ====
section
/-! DEFINITION. Decoding a command word (R61, R63) and, after it, the encoder (R72). -/

namespace Sys2Proof

/-- Why a word or a byte string is no command. -/
inductive Reject where
  /-- Fewer than the four bytes of a command word. -/
  | truncated
  /-- The opcode is none of the six: "an unrecognised control code" (R63). -/
  | unknownOpcode (op : Byte)
  /-- The opcode is one of the six but a reserved operand bit is set (R63, D25). -/
  | reservedBits (op : Byte)
deriving DecidableEq, Repr

/-- Bits 31 to 24 of the word: the opcode (R61). -/
def opcodeField (w : Word) : Byte := w.extractLsb' 24 8

/-- The command a word stands for: the field layout of R61, with every reserved bit required to be 0 (R63). -/
def decode (w : Word) : Except Reject Instr :=
  let op := opcodeField w
  if op = 0x01#8 then
    if w.extractLsb' 16 8 = 0#8 then .ok (.setbase (w.extractLsb' 0 16)) else .error (.reservedBits op)
  else if op = 0x02#8 then
    if w.extractLsb' 15 9 = 0#9 then .ok (.rdbyte (w.extractLsb' 8 7) (w.extractLsb' 0 8))
    else .error (.reservedBits op)
  else if op = 0x03#8 then
    if w.extractLsb' 0 24 = 0#24 then .ok .acqall else .error (.reservedBits op)
  else if op = 0x04#8 then
    if w.extractLsb' 3 21 = 0#21 then .ok (.summ (w.extractLsb' 0 3)) else .error (.reservedBits op)
  else if op = 0x0A#8 then .ok (.ctla (w.extractLsb' 0 24))
  else if op = 0x0B#8 then .ok (.ctlb (w.extractLsb' 0 24))
  else .error (.unknownOpcode op)

/-- The little-endian word that four bytes of the command port make (R43, D2). -/
def wordOfBytes (b0 b1 b2 b3 : Byte) : Word :=
  b0.setWidth 32 ||| (b1.setWidth 32 <<< 8) ||| (b2.setWidth 32 <<< 16) ||| (b3.setWidth 32 <<< 24)

/-- The decoder on bytes: total, one command word of four bytes (R74), and the rest. -/
def decodeBytes : List Byte → Except Reject (Instr × List Byte)
  | b0 :: b1 :: b2 :: b3 :: rest =>
    match decode (wordOfBytes b0 b1 b2 b3) with
    | .ok i => .ok (i, rest)
    | .error e => .error e
  | _ => .error .truncated

/-- A row of the match/mask table of R61: a word `w` is the row's command when `w &&& mask = pattern`. -/
structure OpcodeRow where
  pattern : Word
  mask : Word
deriving DecidableEq, Repr

/-- The row of a command in the match/mask table of R61. -/
def Instr.row : Instr → OpcodeRow
  | .setbase _ => ⟨0x01000000#32, 0xFFFF0000#32⟩
  | .rdbyte _ _ => ⟨0x02000000#32, 0xFFFF8000#32⟩
  | .acqall => ⟨0x03000000#32, 0xFFFFFFFF#32⟩
  | .summ _ => ⟨0x04000000#32, 0xFFFFFFF8#32⟩
  | .ctla _ => ⟨0x0A000000#32, 0xFF000000#32⟩
  | .ctlb _ => ⟨0x0B000000#32, 0xFF000000#32⟩

/-- The match/mask table of R61, in its order. -/
def opcodeTable : List OpcodeRow :=
  [⟨0x01000000#32, 0xFFFF0000#32⟩, ⟨0x02000000#32, 0xFFFF8000#32⟩, ⟨0x03000000#32, 0xFFFFFFFF#32⟩,
   ⟨0x04000000#32, 0xFFFFFFF8#32⟩, ⟨0x0A000000#32, 0xFF000000#32⟩, ⟨0x0B000000#32, 0xFF000000#32⟩]

/-- "a word `W` is the command when `W & mask = match`" (R61). -/
def OpcodeRow.accepts (r : OpcodeRow) (w : Word) : Bool := (w &&& r.mask) == r.pattern

/-- The words that are some command: those "that match a row" (R63). -/
def isCommandWord (w : Word) : Bool := opcodeTable.any fun r => r.accepts w

/-- The encoder: the word of a command (R72). -/
def encode : Instr → Word
  | .setbase base => 0x01000000#32 ||| base.setWidth 32
  | .rdbyte slave offset => 0x02000000#32 ||| (slave.setWidth 32 <<< 8) ||| offset.setWidth 32
  | .acqall => 0x03000000#32
  | .summ slot => 0x04000000#32 ||| slot.setWidth 32
  | .ctla outLen => 0x0A000000#32 ||| outLen.setWidth 32
  | .ctlb outLen => 0x0B000000#32 ||| outLen.setWidth 32

/-- The four bytes of a word on the little-endian command port, lowest address first (R43, D2). -/
def bytesOfWord (w : Word) : List Byte :=
  [w.extractLsb' 0 8, w.extractLsb' 8 8, w.extractLsb' 16 8, w.extractLsb' 24 8]

/-- The bytes of a command on the command port. -/
def encodeBytes (i : Instr) : List Byte := bytesOfWord (encode i)

/-- The command the decoder reads from the word whose low `nbits` bits are those of `w` and whose other bits are 0,
laid out as the command port stores it. Every row of the table has 32 bits (R74). -/
def decodeTableWord (nbits w : Nat) : Option Instr :=
  match decodeBytes (bytesOfWord (BitVec.ofNat 32 (w % 2 ^ nbits))) with
  | .ok (i, _) => some i
  | .error _ => none

end Sys2Proof
end

