-- ==== Sys2Proof/Machine/Memory.lean ====
section
/-! DEFINITION. Byte memory in one canonical form: a list of (address, byte) pairs with strictly rising addresses and
no entry equal to what an unlisted address reads as. The bytes of each image of the image space (R40) are held so. -/

namespace Sys2Proof.Machine

/-- Byte memory: the listed (address, byte) pairs. -/
abbrev Memory := List Host.Cell

/-- What an unlisted address reads as: 0, the reset contents of an image (R30) and its contents after the clear of a
pass (R111). DEDUCED (log 17). -/
def Memory.unlisted : Byte := 0#8

/-- The canonical form: addresses strictly rising, and no entry that an unlisted address would read as. -/
abbrev Memory.wf (m : Memory) : Prop :=
  m.Pairwise (fun c d => c.1 < d.1) ∧ ∀ c ∈ m, c.2 ≠ Memory.unlisted

/-- The byte at an address. -/
def Memory.read : Memory → Nat → Byte
  | [], _ => Memory.unlisted
  | c :: m, a => if c.1 = a then c.2 else Memory.read m a

/-- The entry for byte `b` at address `a` in front of `m`: none where `b` is what an unlisted address reads as. -/
def Memory.put (a : Nat) (b : Byte) (m : Memory) : Memory := if b = Memory.unlisted then m else (a, b) :: m

/-- Write one byte, keeping the canonical form. -/
def Memory.write : Memory → Nat → Byte → Memory
  | [], a, b => Memory.put a b []
  | c :: m, a, b =>
    if a < c.1 then Memory.put a b (c :: m)
    else if c.1 = a then Memory.put a b m
    else c :: Memory.write m a b

end Sys2Proof.Machine
end

