-- ==== Sys2Proof/Machine/State.lean ====
section
/-! DEFINITION. The state of SPDENG as plain data: the registers of 10_state.md, the four ports of R160, and the
environment's inputs. The widths are those of R10; ARBCNT, CMPCNT, SLOT, IDX, LEN and the length of an image are
naturals with the bounds of R14, R15 and R17, as R4 allows (log 4). -/

namespace Sys2Proof.Machine

/-- TPHASE, the phase of the transport sequencer (R13). -/
inductive TPhase where
  | idle | arbRead | arbStall | clear | addr | cmd | start | cmpRead | cmpStall | data | done
deriving DecidableEq, Repr

/-- APHASE, the phase of the acquisition sequencer (R14). -/
inductive APhase where
  | idle | clear | hdr | classify | body | next | done
deriving DecidableEq, Repr

/-- The closed set of outcomes (R180), held in OUTCOME. -/
inductive OutcomeCode where
  | success | controllerNotFound | busTimeout | transactionError | invalidBufferSize | unsupportedRequest | invalidImage
deriving DecidableEq, Repr

/-- One I/O event of the I/O master port (R6, R7). -/
inductive Event where
  /-- `IOR8(p) -> v` -/
  | ior8 (p : Port) (v : Byte)
  /-- `IOW8(p, v)` -/
  | iow8 (p : Port) (v : Byte)
  /-- `STALL` -/
  | stall
deriving DecidableEq, Repr

/-- One record of the image file (R17). -/
structure SpdImage where
  /-- `slotIndex`, 3 bits. -/
  slotIndex : BitVec 3
  /-- `bytes[0..511]`; offset 0 to 511 is the address (R40). -/
  bytes : Memory
  /-- `length`: 0, 256 or 512. -/
  length : Nat
  /-- `valid`. -/
  valid : Bool
deriving DecidableEq, Repr

/-- One response of the response port (R64). -/
structure Response where
  /-- 8 bits, an outcome code of R180. -/
  code : Byte
  /-- The bytes written to the requester's output buffer. -/
  payload : List Byte
deriving DecidableEq, Repr

/-- One input port of bytes that the environment draws: the next draws where they are known (a script, R41, R196), and
the number of draws made. Where the script has run out, a draw is a free value of Config (R46). -/
structure Source where
  script : List Byte
  count : Nat
deriving DecidableEq, Repr

/-- The state of the machine. -/
structure State where
  /-- The implementation parameters (R3), which nothing writes (log 1). -/
  cfg : Params
  /-- BASE (R11). -/
  base : Port
  /-- SLAVE (R12). -/
  slave : SlaveAddr
  /-- OFFSET (R12). -/
  offset : Byte
  /-- RESULT (R12). -/
  result : Byte
  /-- OUTCOME (R12). -/
  outcome : OutcomeCode
  /-- STS (R12). -/
  sts : Byte
  /-- TPHASE (R13). -/
  tphase : TPhase
  /-- APHASE (R14). -/
  aphase : APhase
  /-- SLOT, 0 to 8 (R14). -/
  slot : Nat
  /-- IDX, 0 to 512 (R14). -/
  idx : Nat
  /-- LEN: 0, 256 or 512 (R14). -/
  len : Nat
  /-- HDR[0..3] (R14). -/
  hdr : Vector Byte 4
  /-- ARBCNT, 0 to 1000 (R15). -/
  arbcnt : Nat
  /-- CMPCNT, 0 to 1000 (R15). -/
  cmpcnt : Nat
  /-- LOCK (R16). -/
  lock : Bool
  /-- CMDW (R16). -/
  cmdw : Word
  /-- IMG[0..7] (R17). -/
  img : Vector SpdImage 8
  /-- Command port: the words the requesters offer, the one offered now first (R160, R169).
  DESIGN CHOICE (log 12). -/
  offers : List Word
  /-- Response port: the responses placed, the first placed first (R160, R172). DESIGN CHOICE (log 10). -/
  responses : List Response
  /-- The requester's output buffer: its bytes from index 0 as far as one was ever written (R40, R55).
  DESIGN CHOICE (log 11). -/
  outBuf : List Byte
  /-- Reset input: the reset event happens at the next step (R200). DESIGN CHOICE (log 13). -/
  rst : Bool
  /-- I/O master port: the controller's answers to `IOR8` (R46). DESIGN CHOICE (log 2). -/
  io : Source
  /-- Timing-source port: the bytes the external timing source supplies (R160, R166).
  DESIGN CHOICE (log 3). -/
  rtr : Source
  /-- I/O master port: the events performed so far, the first one first (R7). DESIGN CHOICE (log 16). -/
  trace : List Event
deriving DecidableEq, Repr

/-- SPDENG has no behaviour treated as a fault (93_implementation_defined.md). These are raised by the acquisition
phases in states that no run reaches, where a register stands outside its range of R14 and would address a slot, a header
byte or an image byte that does not exist. Safe: no state reached from reset raises one. -/
inductive Fault where
  /-- A_HDR, A_CLASSIFY or A_BODY with SLOT not in 0 to 7 (R14, R40). Safe. -/
  | slotRange
  /-- A_HDR with IDX not in 0 to 3 (R14). Safe. -/
  | headerIndex
  /-- A_BODY with IDX not below LEN, or not an image offset 0 to 511 (R14, R40). Safe. -/
  | bodyIndex
deriving DecidableEq, Repr

/-- Refusals. No meaning of this model answers with one: every command has a defined response (R162). -/
inductive Refusal where
  /-- Raised by `exec` for an instruction that has no meaning yet; no arm of this model raises it. Safe. -/
  | notModelled (mnemonic : String)
deriving DecidableEq, Repr

/-- The record `{slotIndex = i, bytes = all 0, length = 0, valid = 0}` of R30 and R111. -/
def emptyImage (i : BitVec 3) : SpdImage where
  slotIndex := i
  bytes := []
  length := 0
  valid := false

/-- The image file of R30 and R111: eight empty records. -/
def emptyImages : Vector SpdImage 8 :=
  #v[emptyImage 0, emptyImage 1, emptyImage 2, emptyImage 3, emptyImage 4, emptyImage 5, emptyImage 6, emptyImage 7]

/-- The machine right after reset (R30). SLAVE, OFFSET, RESULT, STS and CMDW are "unspecified" there; the value 0 is
DESIGN CHOICE (log 5). The ports start with nothing offered, drawn, placed or performed (log 6). -/
def State.reset : State where
  cfg := Config.params
  base := 0#16
  slave := 0#7
  offset := 0#8
  result := 0#8
  outcome := .success
  sts := 0#8
  tphase := .idle
  aphase := .idle
  slot := 0
  idx := 0
  len := 0
  hdr := #v[0#8, 0#8, 0#8, 0#8]
  arbcnt := 0
  cmpcnt := 0
  lock := false
  cmdw := 0#32
  img := emptyImages
  offers := []
  responses := []
  outBuf := []
  rst := false
  io := ⟨[], 0⟩
  rtr := ⟨[], 0⟩
  trace := []

end Sys2Proof.Machine
end

