-- ==== Sys2Proof/Machine/Operands.lean ====
section
/-! DEFINITION. The values the engine builds from operands and registers (R62): port addresses, the bytes written to the
controller, slave addresses, required buffer sizes, and the little-endian byte forms of R43. -/

namespace Sys2Proof.Machine

/-- `port(OFF) = (BASE + zext_16(OFF)) mod 2^16` (R42). -/
def portAt (base : Port) (off : Byte) : Port := base + off.setWidth 16

/-- The status port. -/
def State.stsPort (s : State) : Port := portAt s.base s.cfg.offSts

/-- The control port. -/
def State.ctlPort (s : State) : Port := portAt s.base s.cfg.offCtl

/-- The command port of the controller. -/
def State.cmdPort (s : State) : Port := portAt s.base s.cfg.offCmd

/-- The address port. -/
def State.addrPort (s : State) : Port := portAt s.base s.cfg.offAddr

/-- The data-low port. -/
def State.dat0Port (s : State) : Port := portAt s.base s.cfg.offDat0

/-- `ADDRBYTE(slave) = ((slave << 1) | 1)` at 8 bits (R66, R89). -/
def addrByte (slave : SlaveAddr) : Byte := (slave.setWidth 8 <<< 1) ||| 1#8

/-- The slave address of a slot, `0x50 + SLOT` (R113). -/
def slotSlave (slot : Nat) : SlaveAddr := slaveFirst + BitVec.ofNat 7 slot

/-- The command byte of an acquisition read, `IDX[7:0]` (R49, R116). -/
def idxByte (idx : Nat) : Byte := BitVec.ofNat 8 idx

/-- The output buffer size CTLB requires, `8 * SPDIMG_SIZE` (R163). -/
def ctlbSize : Nat := nSlots * spdImgSize

/-- The output buffer size CTLA requires, RTR_SIZE (R163). -/
def ctlaSize (p : Params) : Nat := p.rtrSize

/-- `le16(lo, hi)` (R6, R43). -/
def le16 (lo hi : Byte) : BitVec 16 := lo.setWidth 16 ||| (hi.setWidth 16 <<< 8)

/-- The two bytes of a 16-bit value, the low byte first (R43). -/
def leBytes16 (v : BitVec 16) : List Byte := [v.extractLsb' 0 8, v.extractLsb' 8 8]

/-- The eight bytes of a 64-bit value, the low byte first (R43). -/
def leBytes64 (v : BitVec 64) : List Byte := (List.range 8).map fun k => v.extractLsb' (8 * k) 8

/-- A flag as a byte, 0x01 or 0x00 (R70, R71). -/
def flagByte (b : Bool) : Byte := if b then 0x01#8 else 0x00#8

/-- The number of an outcome (R180). -/
def OutcomeCode.code : OutcomeCode → Byte
  | .success => 0#8
  | .controllerNotFound => 1#8
  | .busTimeout => 2#8
  | .transactionError => 3#8
  | .invalidBufferSize => 4#8
  | .unsupportedRequest => 5#8
  | .invalidImage => 6#8

end Sys2Proof.Machine
end

