-- ==== Sys2Proof/Machine/Flags.lean ====
section
/-! DEFINITION. The flags of R19: the tests of a status sample, the status-clear value, and the two readings of byte 2
of an image. -/

namespace Sys2Proof.Machine

/-- "the busy bit is set": `(v & M_BUSY) != 0` (R19, R86). -/
def busySet (p : Params) (v : Byte) : Bool := (v &&& p.mBusy) != 0#8

/-- "the interrupt bit is set": `(v & M_INTR) != 0` (R19, R92). -/
def intrSet (p : Params) (v : Byte) : Bool := (v &&& p.mIntr) != 0#8

/-- "the error bit is set": any bit of M_ERR is set, `(v & M_ERR) != 0` (R3, R92). -/
def errSet (p : Params) (v : Byte) : Bool := (v &&& p.mErr) != 0#8

/-- The value of the status clear, the constant `M_INTR | M_ERR` (R67, R87). -/
def statusClear (p : Params) : Byte := p.mIntr ||| p.mErr

/-- The transfer length that header byte 2 selects: "Only the value 0x0C selects 512" (R114). -/
def classifyLength (b : Byte) : Nat := if b = bigMarker then lenBig else lenLegacy

/-- The types the decoder tells apart (R133). -/
inductive DdrType where
  | unknown | ddr4 | ddr5
deriving DecidableEq, Repr

/-- The DDR type marker as the decoder reads it (R133). -/
def ddrType (marker : Byte) : DdrType :=
  if marker = 0x0C#8 then .ddr4 else if marker = 0x12#8 then .ddr5 else .unknown

/-- `typeTag`: 4, 5 or 0 (R71, R133). -/
def DdrType.tag : DdrType → Byte
  | .unknown => 0#8
  | .ddr4 => 4#8
  | .ddr5 => 5#8

/-- A phase in which the transport sequencer performs an event: "neither T_IDLE nor T_DONE" (R81). -/
def TPhase.active : TPhase → Bool
  | .idle => false
  | .done => false
  | .arbRead => true
  | .arbStall => true
  | .clear => true
  | .addr => true
  | .cmd => true
  | .start => true
  | .cmpRead => true
  | .cmpStall => true
  | .data => true

end Sys2Proof.Machine
end

