-- ==== Sys2Proof/Machine/Ops.lean ====
section
/-! DEFINITION. The named operations over the ports and registers that the meanings share: the primitives of R6,
acceptance of a command, delivery of an outcome (R189, this block's form of taking an exception), the reset event, and
the writes of the image file. -/

namespace Sys2Proof.Machine

/-- The next draw of an input port: the head of the script, or, where the script has run out, the free value. -/
def Source.next (free : Nat → Byte) (src : Source) : Byte × Source :=
  match src.script with
  | v :: vs => (v, ⟨vs, src.count + 1⟩)
  | [] => (free src.count, ⟨[], src.count + 1⟩)

/-- `n` draws of an input port, in order. -/
def Source.take (free : Nat → Byte) : Nat → Source → List Byte × Source
  | 0, src => ([], src)
  | n + 1, src =>
    let d := src.next free
    let rest := Source.take free n d.2
    (d.1 :: rest.1, rest.2)

/-- The draw that the next `IOR8` gets (R46). -/
def State.answer (s : State) : Byte := (s.io.next Config.ioAnswer).1

/-- `IOR8(p)`: one draw of the controller's answer, recorded in the trace (R6, R46). The value read is `s.answer`. -/
def State.ior8 (s : State) (p : Port) : State :=
  { s with io := (s.io.next Config.ioAnswer).2, trace := s.trace ++ [.ior8 p s.answer] }

/-- `IOW8(p, v)`: recorded in the trace (R6). -/
def State.iow8 (s : State) (p : Port) (v : Byte) : State := { s with trace := s.trace ++ [.iow8 p v] }

/-- `STALL()`: recorded in the trace, "changes no state" (R6, R83). -/
def State.stallEvent (s : State) : State := { s with trace := s.trace ++ [.stall] }

/-- Acceptance of a command word offered at the command port: LOCK set, CMDW latched, the word taken from the port
(R160, R162, R168). -/
def State.accept (s : State) (w : Word) (rest : List Word) : State :=
  { s with lock := true, cmdw := w, offers := rest }

/-- The output buffer after a payload is written to bytes 0 to n-1; the bytes beyond are as before (R55). -/
def writePayload (payload buf : List Byte) : List Byte := payload ++ buf.drop payload.length

/-- Delivery of an outcome (R189), `respond(code, payload)` (R6, R64): OUTCOME is written, the payload is written to the
output buffer and then the response is placed, LOCK is cleared, both sequencers are idle. DEDUCED that every command writes
OUTCOME (log 15). DESIGN CHOICE: CMDW, which R16 leaves invisible while LOCK = 0, keeps the word just answered until the next
acceptance (log 14). -/
def State.respond (s : State) (oc : OutcomeCode) (payload : List Byte) : State :=
  { s with
    outcome := oc
    responses := s.responses ++ [⟨oc.code, payload⟩]
    outBuf := writePayload payload s.outBuf
    lock := false
    tphase := .idle
    aphase := .idle }

/-- The response to a word that is no command: `(5, [])` (R63, R165). -/
def State.unsupported (s : State) : State := s.respond .unsupportedRequest []

/-- The reset event (R200): every register takes its value of R30, a command in progress is abandoned without a
response, the response port is emptied, no I/O event is performed. What is outside SPDENG stays: the words offered, the
output buffer, the environment's draws and the events already performed. DESIGN CHOICE (log 13). -/
def State.resetEvent (s : State) : State :=
  { State.reset with
    cfg := s.cfg, offers := s.offers, outBuf := s.outBuf, io := s.io, rtr := s.rtr, trace := s.trace }

/-- The clear of the image file (R111). -/
def State.clearImages (s : State) : State := { s with img := emptyImages }

/-- A write to record `slot` of the image file; a slot that does not exist has no record to write. -/
def State.updateImage (s : State) (slot : Nat) (f : SpdImage → SpdImage) : State :=
  { s with img := if h : slot < 8 then s.img.set slot (f s.img[slot]) else s.img }

/-- `IMG[slot].length <- n` (R114). -/
def SpdImage.setLength (n : Nat) (im : SpdImage) : SpdImage := { im with length := n }

/-- `IMG[slot].bytes[o] <- v` (R116). -/
def SpdImage.setByte (o : Nat) (v : Byte) (im : SpdImage) : SpdImage := { im with bytes := im.bytes.write o v }

/-- `IMG[slot].valid <- 1` (R118). -/
def SpdImage.markValid (im : SpdImage) : SpdImage := { im with valid := true }

/-- The record of a slot named by a 3-bit operand (R17). -/
def State.image (s : State) (slot : BitVec 3) : SpdImage := s.img[slot.toNat]'(slot.isLt)

end Sys2Proof.Machine
end

