-- ==== Sys2Proof/Machine/Transport.lean ====
section
/-! DEFINITION. Bus Transport (40_bus_transport.md): the transaction as the phases of the transport sequencer, and the
command RDBYTE. -/

namespace Sys2Proof.Machine

/-- Start of a transaction with inputs (slave, offset): the base check comes before any event (R84; log 14
on SLAVE and OFFSET). -/
def State.startTransaction (s : State) (slave : SlaveAddr) (offset : Byte) : State :=
  if s.base = 0#16 then
    { s with slave := slave, offset := offset, outcome := .controllerNotFound, tphase := .done }
  else
    { s with slave := slave, offset := offset, arbcnt := 0, tphase := .arbRead }

/-- Phase T_ARB_READ (R86): read the status, then test the busy bit of this sample. -/
def State.arbRead (s : State) : State :=
  { s.ior8 s.stsPort with
    sts := s.answer, tphase := if busySet s.cfg s.answer then .arbStall else .clear }

/-- Phase T_ARB_STALL (R86): one iteration is spent; the 1000th ends the transaction with BusTimeout. -/
def State.arbStall (s : State) : State :=
  if s.arbcnt + 1 = pollBudget then
    { s.stallEvent with arbcnt := s.arbcnt + 1, outcome := .busTimeout, tphase := .done }
  else { s.stallEvent with arbcnt := s.arbcnt + 1, tphase := .arbRead }

/-- Phase T_CLEAR, step 2 (R87). -/
def State.clearStatus (s : State) : State :=
  { s.iow8 s.stsPort (statusClear s.cfg) with tphase := .addr }

/-- Phase T_ADDR, step 3 (R89). -/
def State.writeAddr (s : State) : State :=
  { s.iow8 s.addrPort (addrByte s.slave) with tphase := .cmd }

/-- Phase T_CMD, step 3 (R90). -/
def State.writeCmd (s : State) : State :=
  { s.iow8 s.cmdPort s.offset with tphase := .start }

/-- Phase T_START, step 4 (R91). -/
def State.writeStart (s : State) : State :=
  { s.iow8 s.ctlPort s.cfg.opcRead with cmpcnt := 0, tphase := .cmpRead }

/-- Phase T_CMP_READ, steps 5 and 6 (R92): the error bit wins over the interrupt bit. -/
def State.cmpRead (s : State) : State :=
  if errSet s.cfg s.answer then
    { s.ior8 s.stsPort with sts := s.answer, outcome := .transactionError, tphase := .done }
  else
    { s.ior8 s.stsPort with
      sts := s.answer, tphase := if intrSet s.cfg s.answer then .data else .cmpStall }

/-- Phase T_CMP_STALL (R93): the 1000th iteration ends the transaction with BusTimeout. -/
def State.cmpStall (s : State) : State :=
  if s.cmpcnt + 1 = pollBudget then
    { s.stallEvent with cmpcnt := s.cmpcnt + 1, outcome := .busTimeout, tphase := .done }
  else { s.stallEvent with cmpcnt := s.cmpcnt + 1, tphase := .cmpRead }

/-- Phase T_DATA, step 6, success arm (R95): the data-low register. -/
def State.readData (s : State) : State :=
  { s.ior8 s.dat0Port with result := s.answer, outcome := .success, tphase := .done }

/-- T_DONE hands (OUTCOME, RESULT) to the starter and becomes T_IDLE with no event (R97). -/
def State.handOver (s : State) : State := { s with tphase := .idle }

/-- One step of the transport sequencer: the transition table of R97. -/
def State.transport (s : State) : State :=
  match s.tphase with
  | .idle => s
  | .arbRead => s.arbRead
  | .arbStall => s.arbStall
  | .clear => s.clearStatus
  | .addr => s.writeAddr
  | .cmd => s.writeCmd
  | .start => s.writeStart
  | .cmpRead => s.cmpRead
  | .cmpStall => s.cmpStall
  | .data => s.readData
  | .done => s.handOver

/-- The response of RDBYTE at the end of its transaction (R101). -/
def State.respondByte (s : State) : State :=
  if s.outcome = .success then s.respond .success [s.result] else s.respond s.outcome []

/-- One engine step of RDBYTE (R101): start the transaction, run it one event at a time, respond. -/
def execRdbyte (slave : BitVec 7) (offset : BitVec 8) (s : State) : Host.Outcome State Fault Refusal :=
  match s.tphase with
  | .idle => .next (s.startTransaction slave offset)
  | .done => .next s.respondByte
  | _ => .next s.transport

end Sys2Proof.Machine
end

