-- ==== Sys2Proof/Machine/Acquisition.lean ====
section
/-! DEFINITION. SPD Acquisition (41_spd_acquisition.md): the eight-slot pass as the phases of the acquisition
sequencer, and the command ACQALL. CTLB runs the same pass (Control.lean). -/

namespace Sys2Proof.Machine

/-- A_CLEAR (R111, R112): the image file is cleared first, then BASE is checked. -/
def State.beginPass (s : State) : State :=
  if s.base = 0#16 then { s.clearImages with outcome := .controllerNotFound, aphase := .done }
  else { s.clearImages with slot := 0, idx := 0, len := 0, aphase := .hdr }

/-- A_HDR at the end of a transaction (R113, R115): a byte obtained goes to HDR[IDX]; any outcome other than Success
ends the slot. -/
def State.takeHeaderByte (s : State) : State :=
  if s.outcome = .success then
    if s.idx + 1 < hdrLen then
      { s.handOver with hdr := s.hdr.setIfInBounds s.idx s.result, idx := s.idx + 1 }
    else { s.handOver with hdr := s.hdr.setIfInBounds s.idx s.result, aphase := .classify }
  else { s.handOver with aphase := .next }

/-- A_CLASSIFY (R114). -/
def State.classify (s : State) : State :=
  { s.updateImage s.slot (SpdImage.setLength (classifyLength s.hdr[2])) with
    len := classifyLength s.hdr[2], idx := 0, aphase := .body }

/-- A_BODY at the end of a transaction (R115, R116, R118, R125): a byte obtained goes to IMG[SLOT].bytes[IDX], and the
byte of offset LEN-1 makes the record valid; any outcome other than Success ends the slot. -/
def State.takeBodyByte (s : State) : State :=
  if s.outcome = .success then
    if s.idx + 1 < s.len then
      { s.handOver.updateImage s.slot (SpdImage.setByte s.idx s.result) with idx := s.idx + 1 }
    else
      { s.handOver.updateImage s.slot (fun im => (im.setByte s.idx s.result).markValid) with aphase := .next }
  else { s.handOver with aphase := .next }

/-- A_NEXT (R119): the next slot, or the end of the pass, whose own outcome is Success (R124). -/
def State.nextSlot (s : State) : State :=
  if s.slot + 1 < nSlots then { s with slot := s.slot + 1, idx := 0, len := 0, aphase := .hdr }
  else { s with slot := nSlots, outcome := .success, aphase := .done }

/-- One byte read of a pass (R113, R116): start the transaction for byte IDX of slot SLOT, run it, take its result.
"Each arm that starts a transaction does so only when TPHASE = T_IDLE and then waits, doing nothing, until TPHASE =
T_DONE" (R121). DEDUCED (log 22). -/
def State.passRead (s : State) (take : State → State) : State :=
  match s.tphase with
  | .idle => s.startTransaction (slotSlave s.slot) (idxByte s.idx)
  | .done => take s
  | _ => s.transport

/-- One engine step of a pass: the transition table of R121, up to A_DONE, whose step is the command's response and is
given by `finish`. A phase whose registers stand outside their ranges of R14 faults (log 7). -/
def State.pass (s : State) (finish : State → State) : Host.Outcome State Fault Refusal :=
  if s.tphase.active then .next s.transport
  else
    match s.aphase with
    | .idle => .next { s with aphase := .clear }
    | .clear => .next s.beginPass
    | .hdr =>
      if s.slot < nSlots then
        if s.idx < hdrLen then .next (s.passRead State.takeHeaderByte) else .fault .headerIndex
      else .fault .slotRange
    | .classify => if s.slot < nSlots then .next s.classify else .fault .slotRange
    | .body =>
      if s.slot < nSlots then
        if s.idx < s.len ∧ s.idx < imgCap then .next (s.passRead State.takeBodyByte) else .fault .bodyIndex
      else .fault .slotRange
    | .next => .next s.nextSlot
    | .done => .next (finish s)

/-- The response of ACQALL (R127): ControllerNotFound after an aborted pass, else Success; the payload is empty. -/
def State.respondPass (s : State) : State :=
  if s.outcome = .controllerNotFound then s.respond .controllerNotFound [] else s.respond .success []

/-- One engine step of ACQALL (R110, R121). -/
def execAcqall (s : State) : Host.Outcome State Fault Refusal := s.pass State.respondPass

end Sys2Proof.Machine
end

