-- ==== Sys2Proof/Machine/Control.lean ====
section
/-! DEFINITION. The command port's own commands (43_control_interface.md): SETBASE, CTLA, CTLB. -/

namespace Sys2Proof.Machine

/-- SETBASE base: `BASE <- base ; respond(0, [])` (R161). -/
def execSetbase (base : BitVec 16) (s : State) : Host.Outcome State Fault Refusal :=
  .next ({ s with base := base }.respond .success [])

/-- The response of CTLA with a buffer of the required size: RTR_SIZE draws of the timing source, passed on unchanged
(R166). -/
def State.respondTiming (s : State) : State :=
  { s with rtr := (s.rtr.take Config.timingByte s.cfg.rtrSize).2 }.respond .success
    (s.rtr.take Config.timingByte s.cfg.rtrSize).1

/-- CTLA outLen (R163, R166). -/
def execCtla (outLen : BitVec 24) (s : State) : Host.Outcome State Fault Refusal :=
  .next (if outLen.toNat = ctlaSize s.cfg then s.respondTiming else s.respond .invalidBufferSize [])

/-- `ser(I)`, the 516 bytes of a serialised record (R70). -/
def SpdImage.serialise (im : SpdImage) : List Byte :=
  (List.range imgCap).map (fun o => im.bytes.read o) ++ leBytes16 (BitVec.ofNat 16 im.length) ++
    [flagByte im.valid, im.slotIndex.setWidth 8]

/-- The payload of CTLB: the eight records in slot order (R65, R164). -/
def imagesPayload (img : Vector SpdImage 8) : List Byte := img.toList.flatMap SpdImage.serialise

/-- The response of CTLB at the end of its pass (R164). -/
def State.respondImages (s : State) : State :=
  if s.outcome = .controllerNotFound then s.respond .controllerNotFound []
  else s.respond .success (imagesPayload s.img)

/-- One engine step of CTLB outLen: the size check, then exactly what ACQALL does, then the copy-out (R73, R163,
R164). -/
def execCtlb (outLen : BitVec 24) (s : State) : Host.Outcome State Fault Refusal :=
  if outLen.toNat = ctlbSize then s.pass State.respondImages else .next (s.respond .invalidBufferSize [])

end Sys2Proof.Machine
end

