-- ==== Sys2Proof/Machine/Decoder.lean ====
section
/-! DEFINITION. The SPD Decoder (42_spd_decoder.md): `summarize` as a pure function of a record, its serialised form,
and the command SUMM. -/

namespace Sys2Proof.Machine

/-- `img_byte(I, o)`: the bounds-checked read, 0 where the offset is absent (R132). -/
def SpdImage.byteAt (im : SpdImage) (o : Nat) : Byte := if o < im.length then im.bytes.read o else 0#8

/-- The 16-bit little-endian field at offsets o and o+1 (R68, R136). -/
def SpdImage.field16 (im : SpdImage) (o : Nat) : BitVec 16 := le16 (im.byteAt o) (im.byteAt (o + 1))

/-- The record `SpdSummary` (R71, R138). -/
structure SpdSummary where
  typeTag : Byte
  typeRaw : Byte
  banks : BitVec 3
  density : BitVec 5
  sizeMB : BitVec 64
  mfgSpecified : Bool
  mfg0 : Byte
  mfg1 : Byte
  tCL : BitVec 16
  tRCD : BitVec 16
  tRP : BitVec 16
  tRAS : BitVec 16
deriving DecidableEq, Repr

/-- `b4[2:0]`, the bank count minus 1 (R69, R134). -/
def banksField (b4 : Byte) : BitVec 3 := b4.extractLsb' 0 3

/-- `b4[7:3]`, the density exponent (R69, R134). -/
def densityField (b4 : Byte) : BitVec 5 := b4.extractLsb' 3 5

/-- `(1 << density) * (banks+1) * 256` in unsigned 64-bit arithmetic (R135). -/
def moduleSize (density : BitVec 5) (banks : BitVec 3) : BitVec 64 :=
  (1#64 <<< density.toNat) * (banks.setWidth 64 + 1#64) * 256#64

/-- `summarize(I)` (R131 to R138). -/
def summarize (im : SpdImage) : SpdSummary where
  typeTag := (ddrType (im.byteAt 2)).tag
  typeRaw := im.byteAt 2
  banks := banksField (im.byteAt 4)
  density := densityField (im.byteAt 4)
  sizeMB := moduleSize (densityField (im.byteAt 4)) (banksField (im.byteAt 4))
  mfgSpecified := im.byteAt 320 != 0#8
  mfg0 := im.byteAt 320
  mfg1 := im.byteAt 321
  tCL := im.field16 18
  tRCD := im.field16 20
  tRP := im.field16 22
  tRAS := im.field16 24

/-- The 24 bytes of a serialised summary (R71). -/
def SpdSummary.bytes (m : SpdSummary) : List Byte :=
  [m.typeTag, m.typeRaw, m.banks.setWidth 8, m.density.setWidth 8] ++ leBytes64 m.sizeMB ++
    [flagByte m.mfgSpecified, m.mfg0, m.mfg1, 0#8] ++
    leBytes16 m.tCL ++ leBytes16 m.tRCD ++ leBytes16 m.tRP ++ leBytes16 m.tRAS

/-- The response of SUMM to the record of its slot: InvalidImage for a record that is not valid, else its summary
(R140). -/
def State.respondSummary (s : State) (im : SpdImage) : State :=
  if im.valid then s.respond .success (summarize im).bytes else s.respond .invalidImage []

/-- SUMM slot (R140). -/
def execSumm (slot : BitVec 3) (s : State) : Host.Outcome State Fault Refusal :=
  .next (s.respondSummary (s.image slot))

end Sys2Proof.Machine
end

