-- ==== Sys2Proof/Machine/Dispatch.lean ====
section
/-! DEFINITION. exec: one arm for each command. -/

namespace Sys2Proof.Machine

-- One engine step of the command being executed: its first step where both sequencers are idle, and the step of its
-- current phase otherwise (R81, R121).
def exec (i : Instr) (s : State) : Host.Outcome State Fault Refusal :=
  match i with
  | .setbase base => Sys2Proof.Machine.execSetbase base s
  | .rdbyte slave offset => Sys2Proof.Machine.execRdbyte slave offset s
  | .acqall => Sys2Proof.Machine.execAcqall s
  | .summ slot => Sys2Proof.Machine.execSumm slot s
  | .ctla outLen => Sys2Proof.Machine.execCtla outLen s
  | .ctlb outLen => Sys2Proof.Machine.execCtlb outLen s

end Sys2Proof.Machine
end

