-- ==== Sys2Proof/Machine/Step.lean ====
section
/-! DEFINITION. One step of the machine. -/

namespace Sys2Proof.Machine

/-- The step of the command whose word is `w`: a word that is no command is answered UnsupportedRequest, before any
other check (R162, R165). -/
def runWord (w : Word) (s : State) : Host.Outcome State Fault Refusal :=
  match decode w with
  | .ok i => exec i s
  | .error _ => .next s.unsupported

/-- One step of the machine. A reset event, if one arrives, comes before anything else (R200). While a transaction is in
progress the transport sequencer performs its event, and "nothing can hold it" (R81). Otherwise the command in CMDW goes
on, an offered word being held (R169), or, with LOCK = 0, the offered word is accepted and its command makes its first
step in the same step (R160, R162). With nothing offered the idle engine stays as it is (R197). DESIGN CHOICE (log 9, log 20). -/
def step (s : State) : Host.Outcome State Fault Refusal :=
  if s.rst then .next s.resetEvent
  else if s.tphase.active then .next s.transport
  else if s.lock then runWord s.cmdw s
  else
    match s.offers with
    | [] => .next s
    | w :: rest => runWord w (s.accept w rest)

/-- `s` with the word of an instruction offered at the command port in front of every other word, and the engine ready
to accept it: no reset event, LOCK = 0, both sequencers idle. There is no stored program (R54); a command comes to run by
being offered (log 8). -/
def State.withFetchWord (s : State) (nbits w : Nat) : State :=
  { s with
    offers := BitVec.ofNat 32 (w % 2 ^ nbits) :: s.offers
    rst := false
    lock := false
    tphase := .idle
    aphase := .idle }

end Sys2Proof.Machine
end

