-- ==== Sys2Proof/Machine/Reference.lean ====
section
/-! DEFINITION. The operations as whole functions of the environment's answers: `readByte` (R98) and `acquireAll`
(R122). The machine runs them one event at a time; that it does so is stated in the certificates. -/

namespace Sys2Proof.Machine

/-- The draw that comes `k` draws after the next one of an input port. -/
def Source.nth (free : Nat → Byte) (src : Source) (k : Nat) : Byte := (src.script[k]?).getD (free (src.count + k))

/-- The event is a register write. -/
def Event.isWrite : Event → Bool
  | .iow8 _ _ => true
  | .ior8 _ _ => false
  | .stall => false

/-- The event is a read of port `p`. -/
def Event.isReadOf (p : Port) : Event → Bool
  | .ior8 q _ => decide (q = p)
  | .iow8 _ _ => false
  | .stall => false

/-- How a wait ends: the sample that ended it, if one did, the events, and the answers still to come. -/
structure WaitResult where
  sample : Option Byte
  events : List Event
  src : Source
deriving DecidableEq, Repr

/-- A wait of at most `n` iterations at the status port `p` (R85, R98): read, test, and, where the sample does not end
the wait, stall. -/
def waitFor (p : Port) (ends : Byte → Bool) : Nat → Source → WaitResult
  | 0, src => ⟨none, [], src⟩
  | n + 1, src =>
    let d := src.next Config.ioAnswer
    if ends d.1 then ⟨some d.1, [.ior8 p d.1], d.2⟩
    else
      let r := waitFor p ends n d.2
      ⟨r.sample, .ior8 p d.1 :: .stall :: r.events, r.src⟩

/-- What a transaction returns: outcome and byte (R80), the events, and the answers still to come. -/
structure ReadResult where
  outcome : OutcomeCode
  data : Option Byte
  events : List Event
  src : Source
deriving DecidableEq, Repr

/-- The four writes of steps 2 to 4, in the order of R208. -/
def setupWrites (cfg : Params) (base : Port) (slave : SlaveAddr) (offset : Byte) : List Event :=
  [.iow8 (portAt base cfg.offSts) (statusClear cfg), .iow8 (portAt base cfg.offAddr) (addrByte slave),
   .iow8 (portAt base cfg.offCmd) offset, .iow8 (portAt base cfg.offCtl) cfg.opcRead]

/-- A transaction from its completion wait on (R98), after the events `before`. -/
def finishRead (cfg : Params) (base : Port) (before : List Event) (src : Source) : ReadResult :=
  let c := waitFor (portAt base cfg.offSts) (fun v => errSet cfg v || intrSet cfg v) pollBudget src
  match c.sample with
  | none => ⟨.busTimeout, none, before ++ c.events, c.src⟩
  | some v =>
    if errSet cfg v then ⟨.transactionError, none, before ++ c.events, c.src⟩
    else
      let d := c.src.next Config.ioAnswer
      ⟨.success, some d.1, before ++ c.events ++ [.ior8 (portAt base cfg.offDat0) d.1], d.2⟩

/-- `readByte(slave, offset)` as a function of the environment's answers (R98). -/
def readByte (cfg : Params) (base : Port) (slave : SlaveAddr) (offset : Byte) (src : Source) : ReadResult :=
  if base = 0#16 then ⟨.controllerNotFound, none, [], src⟩
  else
    let a := waitFor (portAt base cfg.offSts) (fun v => !busySet cfg v) pollBudget src
    match a.sample with
    | none => ⟨.busTimeout, none, a.events, a.src⟩
    | some _ => finishRead cfg base (a.events ++ setupWrites cfg base slave offset) a.src

/-- The bytes of reads at the offsets of a list, in order, up to the first failure (R113, R116). -/
structure ManyResult where
  bytes : List Byte
  complete : Bool
  events : List Event
  src : Source
deriving DecidableEq, Repr

/-- Reads at the offsets of a list, in order, short-circuiting on the first failure (R113, R116). -/
def readMany (cfg : Params) (base : Port) (slave : SlaveAddr) : List Nat → Source → ManyResult
  | [], src => ⟨[], true, [], src⟩
  | o :: os, src =>
    let r := readByte cfg base slave (idxByte o) src
    match r.data with
    | none => ⟨[], false, r.events, r.src⟩
    | some b =>
      let m := readMany cfg base slave os r.src
      ⟨b :: m.bytes, m.complete, r.events ++ m.events, m.src⟩

/-- Bytes written one after another from an offset on. -/
def Memory.writeFrom : Memory → Nat → List Byte → Memory
  | m, _, [] => m
  | m, o, b :: bs => Memory.writeFrom (m.write o b) (o + 1) bs

/-- One slot of a pass: its record, the events, and the answers still to come. -/
structure SlotResult where
  image : SpdImage
  events : List Event
  src : Source
deriving DecidableEq, Repr

/-- One slot of a pass (R122): header, classification, body from offset 0 again. -/
def acquireSlot (cfg : Params) (base : Port) (slot : Nat) (src : Source) : SlotResult :=
  let h := readMany cfg base (slotSlave slot) [0, 1, 2, 3] src
  if h.complete then
    let n := classifyLength (h.bytes.getD 2 0#8)
    let b := readMany cfg base (slotSlave slot) (List.range n) h.src
    ⟨⟨BitVec.ofNat 3 slot, Memory.writeFrom [] 0 b.bytes, n, b.complete⟩, h.events ++ b.events, b.src⟩
  else ⟨emptyImage (BitVec.ofNat 3 slot), h.events, h.src⟩

/-- A pass: its outcome, the image file in slot order, the events, and the answers still to come. -/
structure PassResult where
  outcome : OutcomeCode
  images : List SpdImage
  events : List Event
  src : Source
deriving DecidableEq, Repr

/-- The slots of a list, in order (R119). -/
def acquireSlots (cfg : Params) (base : Port) : List Nat → Source → PassResult
  | [], src => ⟨.success, [], [], src⟩
  | i :: is, src =>
    let r := acquireSlot cfg base i src
    let rest := acquireSlots cfg base is r.src
    ⟨.success, r.image :: rest.images, r.events ++ rest.events, rest.src⟩

/-- `acquireAll()` as one procedure (R122). -/
def acquireAll (cfg : Params) (base : Port) (src : Source) : PassResult :=
  if base = 0#16 then ⟨.controllerNotFound, emptyImages.toList, [], src⟩
  else acquireSlots cfg base [0, 1, 2, 3, 4, 5, 6, 7] src

end Sys2Proof.Machine
end

