-- ==== Sys2Proof/Machine/Environment.lean ====
section
/-! DEFINITION. The assumptions E1 to E7 of R47 on the SMBus host controller, each a named premise that a claim may take.
They are no rules of the engine, which checks none of them and whose state holds nothing of the controller (R10). The
premises speak of a record of one controller beside the events of a trace: what it is just before and just after each
event. What it does on its own, it does between two events (R81). DEDUCED (log 18). -/

namespace Sys2Proof.Machine

/-- What the controller is doing. The bytes are the address byte and the command byte of the one transaction (R27). -/
inductive ControllerWork where
  /-- No transaction yet. -/
  | free
  /-- The transaction is in flight. -/
  | running (addr cmd : Byte)
  /-- It ended without error. -/
  | completed (addr cmd : Byte)
  /-- It ended with an error. -/
  | failed (addr cmd : Byte)
deriving DecidableEq, Repr

/-- A transaction is in flight. -/
def ControllerWork.isRunning : ControllerWork → Bool
  | .running _ _ => true
  | .free => false
  | .completed _ _ => false
  | .failed _ _ => false

/-- The second is an end of the transaction that the first has in flight. -/
def ControllerWork.isEndOf (w' w : ControllerWork) : Prop :=
  ∃ a c, w = .running a c ∧ (w' = .completed a c ∨ w' = .failed a c)

/-- The controller at one moment: the registers the engine reads back or that name a transaction (R20), and what the
controller is doing. -/
structure Controller where
  status : Byte
  addr : Byte
  cmd : Byte
  data : Byte
  work : ControllerWork
deriving DecidableEq, Repr

/-- The interrupt and error bits of the status register. -/
def Controller.resultBits (cfg : Params) (c : Controller) : Byte := c.status &&& statusClear cfg

/-- One event of a trace, with the controller just before and just after it. -/
structure Exchange where
  before : Controller
  event : Event
  after : Controller
deriving DecidableEq, Repr

/-- The value the event writes to port `p`, if it is such a write. -/
def Event.writeTo (p : Port) : Event → Option Byte
  | .iow8 q v => if q = p then some v else none
  | .ior8 _ _ => none
  | .stall => none

/-- The value the event reads from port `p`, if it is such a read. -/
def Event.readFrom (p : Port) : Event → Option Byte
  | .ior8 q v => if q = p then some v else none
  | .iow8 _ _ => none
  | .stall => none

/-- A read of the status or the data-low port answers that register (R20, R21, R25). -/
def ReadsAnswerRegisters (cfg : Params) (base : Port) (ex : List Exchange) : Prop :=
  ∀ x ∈ ex, ∀ v,
    (x.event.readFrom (portAt base cfg.offSts) = some v → v = x.before.status) ∧
    (x.event.readFrom (portAt base cfg.offDat0) = some v → v = x.before.data)

/-- A write loads the address or the command register (R23, R24, R45), and nothing else does. -/
def WritesLoadRegisters (cfg : Params) (base : Port) (ex : List Exchange) : Prop :=
  (∀ x ∈ ex,
    x.after.addr = (x.event.writeTo (portAt base cfg.offAddr)).getD x.before.addr ∧
    x.after.cmd = (x.event.writeTo (portAt base cfg.offCmd)).getD x.before.cmd) ∧
  ex.IsChain fun x y => y.before.addr = x.after.addr ∧ y.before.cmd = x.after.cmd

/-- E1: while the controller is occupied its status reads with the busy bit set. -/
def BusyWhileOccupied (cfg : Params) (ex : List Exchange) : Prop :=
  ∀ x ∈ ex, x.before.work.isRunning = true → busySet cfg x.before.status = true

/-- E2: writing 1 to the interrupt and error status bits clears them; a 0 leaves the bit (R45). -/
def WritingOneClears (cfg : Params) (base : Port) (ex : List Exchange) : Prop :=
  ∀ x ∈ ex, ∀ v, x.event.writeTo (portAt base cfg.offSts) = some v →
    x.after.resultBits cfg = x.before.resultBits cfg &&& ~~~v

/-- E3: the write of OPC_READ to the control register starts one read transaction to the slave in the address register
with the command byte in the command register. -/
def StartBeginsARead (cfg : Params) (base : Port) (ex : List Exchange) : Prop :=
  ∀ x ∈ ex, x.event.writeTo (portAt base cfg.offCtl) = some cfg.opcRead →
    x.after.work = .running x.before.addr x.before.cmd

/-- E4: when a transaction completes the interrupt bit becomes set, when it fails the error bit; the two become set at no
other moment, and nothing but the status clear of E2 changes them otherwise. -/
def EndSetsItsBit (cfg : Params) (base : Port) (ex : List Exchange) : Prop :=
  (∀ x ∈ ex, x.event.writeTo (portAt base cfg.offSts) = none → x.after.resultBits cfg = x.before.resultBits cfg) ∧
  ex.IsChain fun x y =>
    (y.before.work = x.after.work → y.before.resultBits cfg = x.after.resultBits cfg) ∧
    (y.before.work.isEndOf x.after.work → ∀ a c,
      (y.before.work = .completed a c → intrSet cfg y.before.status = true) ∧
      (y.before.work = .failed a c → errSet cfg y.before.status = true))

/-- E5: after completion without error the data register holds the byte read, which is the byte `dev a c` that the device
at address byte `a` holds at command byte `c`. -/
def CompletedDataIsTheByteRead (dev : Byte → Byte → Byte) (ex : List Exchange) : Prop :=
  ∀ x ∈ ex, ∀ a c, x.before.work = .completed a c → x.before.data = dev a c

/-- E6: no other master starts a transaction: what the controller is doing changes only by the engine's own write to the
control register and by the end of the transaction in flight. -/
def OnlyTheEngineStarts (cfg : Params) (base : Port) (ex : List Exchange) : Prop :=
  (∀ x ∈ ex, x.event.writeTo (portAt base cfg.offCtl) = none → x.after.work = x.before.work) ∧
  ex.IsChain fun x y => y.before.work = x.after.work ∨ y.before.work.isEndOf x.after.work

/-- E7: the controller never signals the engine except through the status register: a step that reads no register does the
same whatever the controller would answer, and the answer of the data read changes RESULT and the trace alone. This one is
a fact of the engine's own side and holds of `step`. -/
def NoCallback : Prop :=
  ∀ (s t : State) (io : Source), step s = .next t →
    (s.rst = true ∨ (s.tphase ≠ .arbRead ∧ s.tphase ≠ .cmpRead ∧ s.tphase ≠ .data) →
      step { s with io := io } = .next { t with io := io }) ∧
    (s.tphase = .data → ∃ u, step { s with io := io } = .next u ∧
      u = { t with io := u.io, result := u.result, trace := u.trace })

end Sys2Proof.Machine
end

