-- ==== Sys2Proof/Machine/HostSide.lean ====
section
/-! DEFINITION. The requester's side operations whose contracts the spec transcribes: `dump` (R145) and `persist`
(R146). They are not commands of SPDENG and no step runs them (log 19). -/

namespace Sys2Proof.Machine

/-- An upper-case hexadecimal digit (R145, D23). -/
def hexDigit (n : Nat) : Char := if n < 10 then Char.ofNat (0x30 + n) else Char.ofNat (0x41 + (n - 10))

/-- Two hexadecimal digits of a byte. -/
def hexByte (b : Byte) : List Char := [hexDigit (b.toNat / 16), hexDigit (b.toNat % 16)]

/-- Four hexadecimal digits of an offset. -/
def hexOffset (n : Nat) : List Char :=
  [hexDigit (n / 4096 % 16), hexDigit (n / 256 % 16), hexDigit (n / 16 % 16), hexDigit (n % 16)]

/-- A byte as `dump` shows it: itself if printable (0x20 to 0x7E), else a full stop (R145). -/
def dumpChar (b : Byte) : Char := if 0x20 ≤ b.toNat ∧ b.toNat ≤ 0x7E then Char.ofNat b.toNat else '.'

/-- Row `r` of a dump: 72 characters (R145). -/
def SpdImage.dumpRow (im : SpdImage) (r : Nat) : List Char :=
  hexOffset (16 * r) ++ [':', ' '] ++
    (List.range 16).flatMap (fun k => hexByte (im.bytes.read (16 * r + k)) ++ [' ']) ++ [' '] ++
    (List.range 16).map (fun k => dumpChar (im.bytes.read (16 * r + k))) ++ ['\n']

/-- `dump(image)`: the `length / 16` rows that cover `[0, length)` (R145). -/
def SpdImage.dump (im : SpdImage) : List Char := (List.range (im.length / 16)).flatMap im.dumpRow

/-- The store `ART[0..7]` of persisted artifacts: eight byte strings, as R146 writes it (log 19). -/
abbrev ArtifactStore := Vector (List Byte) 8

/-- `I.bytes[0 .. I.length-1]` (R146). -/
def SpdImage.rawBytes (im : SpdImage) : List Byte := (List.range im.length).map fun o => im.bytes.read o

/-- `persist(I)`: requires a valid record and replaces the artifact of its slot (R146). -/
def SpdImage.persist (im : SpdImage) (art : ArtifactStore) : Option ArtifactStore :=
  if im.valid then some (art.set im.slotIndex.toNat im.rawBytes im.slotIndex.isLt) else none

/-- The artifacts under their names, "filename keyed deterministically by slot index" (R146, D24). DESIGN CHOICE: all eight
names are listed, and a slot that `persist` never wrote stands there with whatever byte string the store began with, whether
or not it has a file (log 19). -/
def namedArtifacts (art : ArtifactStore) : List (String × List Byte) :=
  (List.finRange 8).map fun i => (Config.artifactName i, art[i])

end Sys2Proof.Machine
end

