-- ==== Sys2Proof/Safety.lean ====
section
/-! DEFINITION. What a safe state of SPDENG is: the invariants of R14, R15, R16 and R18, which hold at reset and which
every step keeps, and several steps in a row. -/

namespace Sys2Proof.Machine

/-- `n` steps, which stop at a fault or a refusal. -/
def stepN : Nat → State → Host.Outcome State Fault Refusal
  | 0, s => .next s
  | n + 1, s =>
    match step s with
    | .next t => stepN n t
    | .fault r => .fault r
    | .refused r => .refused r

/-- R18 items 1, 2, 3, 5 and 6 for record `i`, with the canonical form of its bytes: every byte at or beyond `length` is
0, because no entry stands there. -/
def ImageOk (i : Fin 8) (im : SpdImage) : Prop :=
  im.slotIndex = BitVec.ofNat 3 i.val ∧
  im.bytes.wf ∧
  (im.length = 0 ∨ im.length = lenLegacy ∨ im.length = lenBig) ∧
  (im.length = 0 → im.valid = false) ∧
  ∀ c ∈ im.bytes, c.1 < im.length
deriving Decidable

/-- R18 for the image file. -/
def ImagesOk (s : State) : Prop := ∀ i : Fin 8, ImageOk i s.img[i]
deriving Decidable

/-- The ranges of SLOT, IDX, LEN, ARBCNT and CMPCNT (R14, R15), and the legal parameters (R3). -/
def RangesOk (s : State) : Prop :=
  s.cfg.ok = true ∧ s.slot ≤ nSlots ∧ s.idx ≤ imgCap ∧ (s.len = 0 ∨ s.len = lenLegacy ∨ s.len = lenBig) ∧
  s.arbcnt ≤ pollBudget ∧ s.cmpcnt ≤ pollBudget
deriving Decidable

/-- The records of slot `k` and the slots after it are empty, as the clear left them (R111, R120). -/
def EmptyFrom (s : State) (k : Nat) : Prop :=
  ∀ i : Fin 8, k ≤ i.val → s.img[i] = emptyImage (BitVec.ofNat 3 i.val)
deriving Decidable

/-- The record of the slot being read (R114, R116, R125): its length is LEN, it is not valid, and its bytes from IDX on
are 0. -/
def BodyRecordOk (s : State) : Prop :=
  ∀ i : Fin 8, i.val = s.slot →
    s.img[i].length = s.len ∧ s.img[i].valid = false ∧ ∀ c ∈ s.img[i].bytes, c.1 < s.idx
deriving Decidable

/-- A_HDR: a slot of the file, a header byte, a resolved base, and nothing of this slot recorded yet (R113, R120). -/
def HdrOk (s : State) : Prop :=
  s.slot < nSlots ∧ s.base ≠ 0#16 ∧ s.idx < hdrLen ∧ s.len = 0 ∧ EmptyFrom s s.slot
deriving Decidable

/-- A_CLASSIFY: nothing of this slot recorded yet (R114). -/
def ClassifyOk (s : State) : Prop := s.slot < nSlots ∧ s.base ≠ 0#16 ∧ EmptyFrom s s.slot
deriving Decidable

/-- A_BODY: LEN classified, IDX below it, the slot's record being filled, the later ones empty (R116). -/
def BodyOk (s : State) : Prop :=
  s.slot < nSlots ∧ s.base ≠ 0#16 ∧ (s.len = lenLegacy ∨ s.len = lenBig) ∧ s.idx < s.len ∧ BodyRecordOk s ∧
    EmptyFrom s (s.slot + 1)
deriving Decidable

/-- A_NEXT: the later records are empty (R119). -/
def NextOk (s : State) : Prop := s.slot < nSlots ∧ s.base ≠ 0#16 ∧ EmptyFrom s (s.slot + 1)
deriving Decidable

/-- A_DONE: the pass is complete, or it was aborted by the base check and the file is empty (R14, R112, R124). -/
def DoneOk (s : State) : Prop :=
  (s.slot = nSlots ∧ s.outcome = .success ∧ s.base ≠ 0#16) ∨
  (s.base = 0#16 ∧ s.outcome = .controllerNotFound ∧ EmptyFrom s 0)
deriving Decidable

/-- The acquisition registers in each phase (R14, R121). -/
def PassOk (s : State) : Prop :=
  (s.aphase = .hdr → HdrOk s) ∧ (s.aphase = .classify → ClassifyOk s) ∧ (s.aphase = .body → BodyOk s) ∧
  (s.aphase = .next → NextOk s) ∧ (s.aphase = .done → DoneOk s)
deriving Decidable

/-- The transport registers in each phase (R15, R84, R86, R92, R95, R96): the counters have budget left inside their
waits, and a phase that follows a test holds the sample that was tested. -/
def TransportOk (s : State) : Prop :=
  (s.tphase.active = true → s.base ≠ 0#16) ∧
  (s.tphase = .arbRead ∨ s.tphase = .arbStall → s.arbcnt < pollBudget) ∧
  (s.tphase = .cmpRead ∨ s.tphase = .cmpStall → s.cmpcnt < pollBudget) ∧
  (s.tphase = .arbStall → busySet s.cfg s.sts = true) ∧
  (s.tphase = .cmpStall → errSet s.cfg s.sts = false ∧ intrSet s.cfg s.sts = false) ∧
  (s.tphase = .data →
    errSet s.cfg s.sts = false ∧ intrSet s.cfg s.sts = true ∧ s.trace.getLast? = some (.ior8 s.stsPort s.sts)) ∧
  (s.tphase = .done →
    (s.base = 0#16 → s.outcome = .controllerNotFound) ∧
    (s.base ≠ 0#16 → s.outcome = .success ∨ s.outcome = .busTimeout ∨ s.outcome = .transactionError))
deriving Decidable

/-- The commands that take more than one step, and the phases in which each stands while it runs: a transaction of RDBYTE
outside any pass, a pass otherwise. -/
def commandRuns (i : Instr) (s : State) : Bool :=
  match i with
  | .rdbyte slave offset =>
    decide (s.aphase = .idle) && decide (s.tphase ≠ .idle) && decide (s.slave = slave) && decide (s.offset = offset)
  | .acqall => decide (s.aphase ≠ .idle)
  | .ctlb outLen => decide (s.aphase ≠ .idle) && decide (outLen.toNat = ctlbSize)
  | .setbase _ => false
  | .summ _ => false
  | .ctla _ => false

/-- The command in CMDW is running (R16). -/
def cmdwRuns (s : State) : Bool :=
  match decode s.cmdw with
  | .ok i => commandRuns i s
  | .error _ => false

/-- LOCK and the phases (R16, R50, R82, R168): an unlocked engine is idle, a locked one runs the command in CMDW, and a
transaction inside a pass is the one for byte IDX of slot SLOT. -/
def LockOk (s : State) : Prop :=
  (s.lock = false → s.tphase = .idle ∧ s.aphase = .idle) ∧
  (s.lock = true → cmdwRuns s = true) ∧
  (s.tphase ≠ .idle → s.aphase ≠ .idle →
    (s.aphase = .hdr ∨ s.aphase = .body) ∧ s.slave = slotSlave s.slot ∧ s.offset = idxByte s.idx)
deriving Decidable

/-- The invariant of the machine. -/
def Inv (s : State) : Prop := RangesOk s ∧ ImagesOk s ∧ PassOk s ∧ TransportOk s ∧ LockOk s
deriving Decidable

end Sys2Proof.Machine
end

