-- ==== Sys2Proof/Certificates/Slice0/Obligations.lean ====
section
/-! DEFINITION. The statements about the model. Each says which rule of the spec it formalises. Where the rule itself is
marked in the spec as the spec's own decision or derivation, the docstring says so. -/

open Sys2Proof Sys2Proof.Machine

-- Encoding

/-- The encoder and the decoder agree on every command at every operand, on words and on the bytes of the little-endian
command port. The layout is the spec's own (R61, R72, decision D2). -/
def Obligations.DecodeOfEncodeIsTheCommand : Prop :=
  ∀ (i : Instr) (rest : List Byte),
    decode (encode i) = .ok i ∧ decodeBytes (encodeBytes i ++ rest) = .ok (i, rest)

/-- A word that decodes is the word of the command it decodes to: no bit of a command word is ignored (R61, R63). -/
def Obligations.EncodeOfDecodedWordIsTheWord : Prop :=
  ∀ (w : Word) (i : Instr), decode w = .ok i → encode i = w

/-- The words that decode are exactly the words that match a row of the match/mask table, each the row of its command
(R61); the two cases of rejection are those of R63, the second of which is the spec's own (D25). -/
def Obligations.DecodedWordsAreTheTableRows : Prop :=
  ∀ w : Word,
    (isCommandWord w = true ↔ ∃ i, decode w = .ok i) ∧
    (∀ i, decode w = .ok i → i.row ∈ opcodeTable ∧ i.row.accepts w = true ∧ ∀ r ∈ opcodeTable, r.accepts w = true → r = i.row) ∧
    (∀ op, decode w = .error (.unknownOpcode op) →
      op = w.extractLsb' 24 8 ∧ op ∉ [0x01#8, 0x02#8, 0x03#8, 0x04#8, 0x0A#8, 0x0B#8]) ∧
    (∀ op, decode w = .error (.reservedBits op) →
      op = w.extractLsb' 24 8 ∧ op ∈ [0x01#8, 0x02#8, 0x03#8, 0x04#8])

/-- A few words written out from the encodings of R61, one for each command, and the example words of C2 and C3. -/
def Obligations.SampleWordsDecode : Prop :=
  decode 0b00000001000000001111000000000000#32 = .ok (.setbase 0xF000#16) ∧
  decode 0b00000010000000000101000000000010#32 = .ok (.rdbyte 0x50#7 0x02#8) ∧
  decode 0b00000011000000000000000000000000#32 = .ok .acqall ∧
  decode 0b00000100000000000000000000000101#32 = .ok (.summ 5#3) ∧
  decode 0b00001010000000000000000000101000#32 = .ok (.ctla 40#24) ∧
  decode 0b00001011000000000001000000100000#32 = .ok (.ctlb 4128#24) ∧
  decode 0x7F000000#32 = .error (.unknownOpcode 0x7F#8) ∧
  decode 0x02008000#32 = .error (.reservedBits 0x02#8)

-- The command port

/-- A step runs the decoded command. With no reset event and no transaction in progress: an idle engine accepts the word
offered, setting LOCK and latching CMDW, and makes the first step of its command in the same step; a locked engine makes
the next step of the command in CMDW. That acceptance and first step are one step is the model's choice (log 9). -/
def Obligations.StepRunsTheDecodedCommand : Prop :=
  ∀ (s : State) (i : Instr), s.rst = false → s.tphase.active = false →
    (∀ (w : Word) (rest : List Word), s.lock = false → s.offers = w :: rest → decode w = .ok i →
      step s = exec i { s with lock := true, cmdw := w, offers := rest }) ∧
    (s.lock = true → decode s.cmdw = .ok i → step s = exec i s)

/-- R63, R165, R167: a word that is no command gets the response (5, []), with no I/O event and no change but to LOCK,
CMDW and OUTCOME. That a known opcode with a reserved bit set is such a word is the spec's own decision (D25); that the word
is accepted and answered in one step is the model's choice (log 9). -/
def Obligations.UnrecognisedWordIsAnsweredUnsupported : Prop :=
  ∀ (s : State) (w : Word) (rest : List Word) (e : Reject),
    s.rst = false → s.tphase = .idle → s.aphase = .idle → s.lock = false → s.offers = w :: rest → decode w = .error e →
    step s = .next { s with
      cmdw := w, offers := rest, outcome := .unsupportedRequest, responses := s.responses ++ [⟨5#8, []⟩] }

/-- R169: while LOCK = 1 the words offered have no effect on the engine and stay offered. -/
def Obligations.OfferedWordHasNoEffectWhileLocked : Prop :=
  ∀ (s t : State) (others : List Word), s.lock = true → s.rst = false → step s = .next t →
    t.offers = s.offers ∧ step { s with offers := others } = .next { t with offers := others }

/-- R64, R168, R172, R180: a step places at most one response, after those placed before; the step that places it clears
LOCK; its code is that of an outcome (0 to 6), and its payload is empty unless the code is 0. A locked engine that places
no response stays locked. -/
def Obligations.ResponsesCarryOutcomesInOrder : Prop :=
  ∀ (s t : State), s.rst = false → step s = .next t →
    (t.responses = s.responses ∧ (s.lock = true → t.lock = true)) ∨
    (∃ r, t.responses = s.responses ++ [r] ∧ t.lock = false ∧ r.code.toNat ≤ 6 ∧ (r.code ≠ 0#8 → r.payload = []))

/-- The reset values the spec gives (R30; the spec's own decision D17). SLAVE, OFFSET, RESULT, STS and CMDW have none and
are not mentioned. -/
def Obligations.ResetStateHoldsTheStatedValues : Prop :=
  State.reset.base = 0#16 ∧ State.reset.tphase = .idle ∧ State.reset.aphase = .idle ∧ State.reset.lock = false ∧
  State.reset.outcome = .success ∧ State.reset.arbcnt = 0 ∧ State.reset.cmpcnt = 0 ∧
  State.reset.slot = 0 ∧ State.reset.idx = 0 ∧ State.reset.len = 0 ∧ (∀ k : Fin 4, State.reset.hdr[k] = 0#8) ∧
  (∀ i : Fin 8,
    State.reset.img[i].slotIndex = BitVec.ofNat 3 i.val ∧ (∀ o, State.reset.img[i].bytes.read o = 0#8) ∧
    State.reset.img[i].length = 0 ∧ State.reset.img[i].valid = false) ∧
  State.reset.responses = []

/-- The reset event (R200; the spec's own decision D17): whatever the engine is doing, every register takes its reset
value, no response is left and no I/O event is performed. -/
def Obligations.ResetEventAbandonsTheCommand : Prop :=
  ∀ s : State, s.rst = true → ∃ t, step s = .next t ∧
    t.base = 0#16 ∧ t.tphase = .idle ∧ t.aphase = .idle ∧ t.lock = false ∧ t.outcome = .success ∧
    t.arbcnt = 0 ∧ t.cmpcnt = 0 ∧ t.slot = 0 ∧ t.idx = 0 ∧ t.len = 0 ∧ (∀ k : Fin 4, t.hdr[k] = 0#8) ∧
    (∀ i : Fin 8, t.img[i] = emptyImage (BitVec.ofNat 3 i.val)) ∧
    t.responses = [] ∧ t.trace = s.trace ∧ t.io = s.io ∧ t.rtr = s.rtr ∧ t.outBuf = s.outBuf ∧ t.offers = s.offers ∧
    t.cfg = s.cfg ∧ t.rst = false

-- Bus Transport

/-- R84: the start of a transaction with inputs (slave, offset), by RDBYTE or inside a pass, with the base check before any
event. Everything else is unchanged. -/
def Obligations.TransactionStartChecksTheBase : Prop :=
  ∀ (s : State) (i : Instr) (slave : SlaveAddr) (offset : Byte), s.tphase = .idle →
    (i = .rdbyte slave offset ∨
      ((i = .acqall ∨ i = .ctlb 4128#24) ∧ s.slot < 8 ∧
        (s.aphase = .hdr ∧ s.idx < 4 ∨ s.aphase = .body ∧ s.idx < s.len ∧ s.idx < 512) ∧
        slave = 0x50#7 + BitVec.ofNat 7 s.slot ∧ offset = BitVec.ofNat 8 s.idx)) →
    (s.base = 0#16 → exec i s = .next { s with
      slave := slave, offset := offset, outcome := .controllerNotFound, tphase := .done }) ∧
    (s.base ≠ 0#16 → exec i s = .next { s with
      slave := slave, offset := offset, arbcnt := 0, tphase := .arbRead })

/-- R86: phases T_ARB_READ and T_ARB_STALL, with everything else unchanged. -/
def Obligations.ArbitrationWaitReadsThenTests : Prop :=
  ∀ s : State, s.rst = false →
    (s.tphase = .arbRead → step s = .next { s with
      io := (s.io.next Config.ioAnswer).2, trace := s.trace ++ [.ior8 s.stsPort s.answer], sts := s.answer,
      tphase := if s.answer &&& s.cfg.mBusy = 0#8 then .clear else .arbStall }) ∧
    (s.tphase = .arbStall → step s = .next { s with
      trace := s.trace ++ [.stall], arbcnt := s.arbcnt + 1,
      outcome := if s.arbcnt + 1 = 1000 then .busTimeout else s.outcome,
      tphase := if s.arbcnt + 1 = 1000 then .done else .arbRead })

/-- R87, R89: each of the phases T_CLEAR and T_ADDR makes its one write, with everything else unchanged. That the value of
the status clear is the constant is the spec's own decision (D9), and so is the value of the read-direction bit (D8). -/
def Obligations.StatusClearAndAddressWrites : Prop :=
  ∀ s : State, s.rst = false →
    (s.tphase = .clear → step s = .next { s with
      trace := s.trace ++ [.iow8 s.stsPort (s.cfg.mIntr ||| s.cfg.mErr)], tphase := .addr }) ∧
    (s.tphase = .addr → step s = .next { s with
      trace := s.trace ++ [.iow8 s.addrPort ((s.slave.setWidth 8 <<< 1) ||| 1#8)], tphase := .cmd })

/-- R90, R91: phase T_CMD writes OFFSET to the command register; phase T_START writes OPC_READ to the control register, and
the completion budget starts there. Everything else is unchanged. -/
def Obligations.CommandAndControlWrites : Prop :=
  ∀ s : State, s.rst = false →
    (s.tphase = .cmd → step s = .next { s with
      trace := s.trace ++ [.iow8 s.cmdPort s.offset], tphase := .start }) ∧
    (s.tphase = .start → step s = .next { s with
      trace := s.trace ++ [.iow8 s.ctlPort s.cfg.opcRead], cmpcnt := 0, tphase := .cmpRead })

/-- R42, R88, R208: from T_CLEAR the four writes come in the order status, address, command, control, and nothing comes
between them; each port is BASE plus the register's offset, modulo 2^16. The address byte is the slave address in bits 7 to
1 and the read bit in bit 0. The values of the first two bytes and the width of a port are the spec's own decisions (D8, D9,
D4). -/
def Obligations.SetupWritesComeInOrder : Prop :=
  ∀ s : State, s.rst = false → s.tphase = .clear →
    ∃ v : Byte, v.extractLsb' 1 7 = s.slave ∧ v.getLsbD 0 = true ∧
      stepN 4 s = .next { s with
        trace := s.trace ++ [.iow8 (s.base + s.cfg.offSts.setWidth 16) (s.cfg.mIntr ||| s.cfg.mErr),
          .iow8 (s.base + s.cfg.offAddr.setWidth 16) v, .iow8 (s.base + s.cfg.offCmd.setWidth 16) s.offset,
          .iow8 (s.base + s.cfg.offCtl.setWidth 16) s.cfg.opcRead]
        cmpcnt := 0
        tphase := .cmpRead }

/-- R92, R93: phases T_CMP_READ and T_CMP_STALL, the error bit winning over the interrupt bit, with everything else
unchanged. -/
def Obligations.CompletionWaitTestsErrorFirst : Prop :=
  ∀ s : State, s.rst = false →
    (s.tphase = .cmpRead → step s = .next { s with
      io := (s.io.next Config.ioAnswer).2, trace := s.trace ++ [.ior8 s.stsPort s.answer], sts := s.answer,
      outcome := if s.answer &&& s.cfg.mErr ≠ 0#8 then .transactionError else s.outcome,
      tphase := if s.answer &&& s.cfg.mErr ≠ 0#8 then .done
        else if s.answer &&& s.cfg.mIntr ≠ 0#8 then .data else .cmpStall }) ∧
    (s.tphase = .cmpStall → step s = .next { s with
      trace := s.trace ++ [.stall], cmpcnt := s.cmpcnt + 1,
      outcome := if s.cmpcnt + 1 = 1000 then .busTimeout else s.outcome,
      tphase := if s.cmpcnt + 1 = 1000 then .done else .cmpRead })

/-- R42, R95: phase T_DATA reads the data-low register, at BASE plus its offset modulo 2^16, and ends the transaction with
Success; everything else, the status left in the controller among it, is unchanged. That the register is data-low, and the
width of a port, are the spec's own decisions (D11, D4). -/
def Obligations.DataPhaseReadsDataLow : Prop :=
  ∀ s : State, s.rst = false → s.tphase = .data → step s = .next { s with
    io := (s.io.next Config.ioAnswer).2
    trace := s.trace ++ [.ior8 (s.base + s.cfg.offDat0.setWidth 16) s.answer]
    result := s.answer, outcome := .success, tphase := .done }

/-- R101, R180, R55: at T_DONE, RDBYTE responds with the byte after Success, and otherwise with the outcome's number and no
byte: 1 for ControllerNotFound, 2 for BusTimeout, 3 for TransactionError (and 4, 5, 6 for the outcomes no transaction ends
with). Both sequencers are idle and LOCK is 0 afterwards. The numbers are the spec's own decision (D3); that the output
buffer keeps the bytes beyond the payload is the model's choice (log 11). -/
def Obligations.RdbyteRespondsAtTheEnd : Prop :=
  ∀ (s : State) (slave : SlaveAddr) (offset : Byte), s.tphase = .done →
    (s.outcome = .success → exec (.rdbyte slave offset) s = .next { s with
      responses := s.responses ++ [⟨0#8, [s.result]⟩], outBuf := s.result :: s.outBuf.drop 1, lock := false,
      tphase := .idle, aphase := .idle }) ∧
    ∀ c : Byte,
      (s.outcome = .controllerNotFound ∧ c = 1#8) ∨ (s.outcome = .busTimeout ∧ c = 2#8) ∨
        (s.outcome = .transactionError ∧ c = 3#8) ∨ (s.outcome = .invalidBufferSize ∧ c = 4#8) ∨
        (s.outcome = .unsupportedRequest ∧ c = 5#8) ∨ (s.outcome = .invalidImage ∧ c = 6#8) →
      exec (.rdbyte slave offset) s = .next { s with
        responses := s.responses ++ [⟨c, []⟩], lock := false, tphase := .idle, aphase := .idle }

/-- R81, R100: in every phase but T_IDLE and T_DONE the transport step performs exactly one event and writes nothing but
the transaction registers, ARBCNT, CMPCNT and TPHASE. -/
def Obligations.TransportWritesOnlyTransactionRegisters : Prop :=
  ∀ s : State, s.rst = false → s.tphase.active = true → ∃ t e, step s = .next t ∧
    t.trace = s.trace ++ [e] ∧
    t = { s with
      result := t.result, outcome := t.outcome, sts := t.sts, tphase := t.tphase, arbcnt := t.arbcnt,
      cmpcnt := t.cmpcnt, io := t.io, trace := t.trace }

/-- R85, R182 (the source's Scenario 4): a busy bit that is set in the first 1000 samples gives BusTimeout after exactly
1000 reads and 1000 stalls, and no register is written. The shape of an iteration is the spec's own reading (D10). -/
def Obligations.StuckBusyBitTimesOutWithoutAWrite : Prop :=
  ∀ s : State, s.rst = false → s.tphase = .arbRead → s.arbcnt = 0 →
    (∀ k < 1000, s.io.nth Config.ioAnswer k &&& s.cfg.mBusy ≠ 0#8) →
    ∃ t, stepN 2000 s = .next t ∧ t.tphase = .done ∧ t.outcome = .busTimeout ∧ t.arbcnt = 1000 ∧
      t.trace = s.trace ++
        (List.range 1000).flatMap (fun k => [.ior8 s.stsPort (s.io.nth Config.ioAnswer k), .stall])

/-- R98, R101: RDBYTE, from its acceptance to its response, is the function `readByte` of the environment's answers: the
machine performs exactly the events of `readByte` and responds with its outcome and byte, at most 4004 steps after its
first; BASE, the image file and the acquisition registers are unchanged (R100). The bound in steps rests on the model's own
division into steps (log 9, log 22), and what the output buffer keeps beyond the payload is the model's choice (log 11). -/
def Obligations.RdbyteRunsReadByte : Prop :=
  ∀ (s : State) (slave : SlaveAddr) (offset : Byte), s.rst = false → s.lock = true → s.tphase = .idle →
    decode s.cmdw = .ok (.rdbyte slave offset) →
    ∃ t, exec (.rdbyte slave offset) s = .next t ∧ ∃ n u, n ≤ 4004 ∧ stepN n t = .next u ∧
      (let r := readByte s.cfg s.base slave offset s.io
       u.responses = s.responses ++ [⟨r.outcome.code, r.data.toList⟩] ∧ u.outcome = r.outcome ∧
       u.trace = s.trace ++ r.events ∧ u.io = r.src ∧ u.outBuf = writePayload r.data.toList s.outBuf) ∧
      u.lock = false ∧ u.tphase = .idle ∧ u.aphase = .idle ∧
      u.base = s.base ∧ u.img = s.img ∧ u.slot = s.slot ∧ u.idx = s.idx ∧ u.len = s.len ∧ u.hdr = s.hdr ∧
      u.cmdw = s.cmdw ∧ u.cfg = s.cfg ∧ u.offers = s.offers ∧ u.rtr = s.rtr ∧ u.rst = false

/-- R96, R99: the bounds on one transaction, for every environment: at most 4003 events; no write or exactly the four; a
byte exactly with Success; one read of the data-low port with Success and none otherwise. R99 is derived in the spec. -/
def Obligations.TransactionBounds : Prop :=
  ∀ (cfg : Params) (base : Port) (slave : SlaveAddr) (offset : Byte) (src : Source), cfg.ok = true →
    let r := readByte cfg base slave offset src
    r.events.length ≤ 4003 ∧
    (r.events.filter Event.isWrite = [] ∨ r.events.filter Event.isWrite = setupWrites cfg base slave offset) ∧
    (r.data.isSome = true ↔ r.outcome = .success) ∧
    r.events.countP (Event.isReadOf (portAt base cfg.offDat0)) = (if r.outcome = .success then 1 else 0)

/-- Under the named premises on the environment (R47: the register contract and E1 to E6; E7 is `NoCallback`, which holds of
the engine), an RDBYTE that ends with Success responds with the byte that the device at its slave address holds at its
offset. The premises are on the controller beside the events of this one transaction (log 18). -/
def Obligations.RdbyteAnswersTheDeviceByte : Prop :=
  ∀ (s : State) (slave : SlaveAddr) (offset : Byte) (dev : Byte → Byte → Byte) (ex : List Exchange),
    s.rst = false → s.lock = true → s.tphase = .idle → decode s.cmdw = .ok (.rdbyte slave offset) → s.cfg.ok = true →
    (readByte s.cfg s.base slave offset s.io).outcome = .success →
    ex.map Exchange.event = (readByte s.cfg s.base slave offset s.io).events →
    ReadsAnswerRegisters s.cfg s.base ex → WritesLoadRegisters s.cfg s.base ex →
    BusyWhileOccupied s.cfg ex → WritingOneClears s.cfg s.base ex → StartBeginsARead s.cfg s.base ex →
    EndSetsItsBit s.cfg s.base ex → CompletedDataIsTheByteRead dev ex → OnlyTheEngineStarts s.cfg s.base ex →
    ∃ t n u, exec (.rdbyte slave offset) s = .next t ∧ stepN n t = .next u ∧
      u.responses = s.responses ++ [⟨0#8, [dev (addrByte slave) offset]⟩]

-- SPD Acquisition

/-- R111, R112: A_IDLE leads to A_CLEAR; A_CLEAR empties the image file first and then checks BASE, for ACQALL and for
CTLB of the right size; everything else is unchanged and no event is performed. That the file is cleared, and before the
check, is the spec's own decision (D15). -/
def Obligations.PassClearsTheFileThenChecksTheBase : Prop :=
  ∀ (s : State) (i : Instr), (i = .acqall ∨ i = .ctlb 4128#24) → s.tphase = .idle →
    (s.aphase = .idle → exec i s = .next { s with aphase := .clear }) ∧
    (s.aphase = .clear → s.base = 0#16 → exec i s = .next { s with
      img := emptyImages, outcome := .controllerNotFound, aphase := .done }) ∧
    (s.aphase = .clear → s.base ≠ 0#16 → exec i s = .next { s with
      img := emptyImages, slot := 0, idx := 0, len := 0, aphase := .hdr })

/-- R113, R115, R120: the header phase of slot SLOT: the transaction for byte IDX at slave 0x50 + SLOT is started; a byte
obtained goes to HDR[IDX] and nothing of the image changes; any failure ends the slot and leaves its record as it was. -/
def Obligations.HeaderPhaseReadsFourBytes : Prop :=
  ∀ (s : State) (i : Instr), (i = .acqall ∨ i = .ctlb 4128#24) → s.aphase = .hdr → s.slot < 8 → s.idx < 4 →
    (s.tphase = .idle → s.base ≠ 0#16 → exec i s = .next { s with
      slave := 0x50#7 + BitVec.ofNat 7 s.slot, offset := BitVec.ofNat 8 s.idx, arbcnt := 0, tphase := .arbRead }) ∧
    (s.tphase = .done → s.outcome = .success → s.idx < 3 → exec i s = .next { s with
      tphase := .idle, hdr := s.hdr.setIfInBounds s.idx s.result, idx := s.idx + 1 }) ∧
    (s.tphase = .done → s.outcome = .success → s.idx = 3 → exec i s = .next { s with
      tphase := .idle, hdr := s.hdr.setIfInBounds 3 s.result, aphase := .classify }) ∧
    (s.tphase = .done → s.outcome ≠ .success → exec i s = .next { s with tphase := .idle, aphase := .next })

/-- R114, R121: "Only the value 0x0C selects 512", recorded in LEN and in the record; the body phase follows, from offset 0
again, which is the spec's own decision (D13, R117). Everything else is unchanged. -/
def Obligations.ClassifySelects512OnlyFor0C : Prop :=
  ∀ (s : State) (i : Instr) (h : s.slot < 8), (i = .acqall ∨ i = .ctlb 4128#24) → s.tphase = .idle →
    s.aphase = .classify →
    (let n := if s.hdr[2] = 0x0C#8 then 512 else 256
     exec i s = .next { s with
      img := s.img.set s.slot { s.img[s.slot] with length := n }, len := n, idx := 0, aphase := .body })

/-- R115, R116, R118, R125: the body phase of slot SLOT: the transaction for the low 8 bits of IDX is started; a byte
obtained goes to byte IDX of the record, the last one makes the record valid; any failure ends the slot and leaves its
record as it stands, not valid. Everything else is unchanged. -/
def Obligations.BodyPhaseStoresEachByte : Prop :=
  ∀ (s : State) (i : Instr) (h : s.slot < 8), (i = .acqall ∨ i = .ctlb 4128#24) → s.aphase = .body →
    s.idx < s.len → s.idx < 512 →
    (s.tphase = .idle → s.base ≠ 0#16 → exec i s = .next { s with
      slave := 0x50#7 + BitVec.ofNat 7 s.slot, offset := BitVec.ofNat 8 s.idx, arbcnt := 0, tphase := .arbRead }) ∧
    (s.tphase = .done → s.outcome = .success → s.idx + 1 < s.len → exec i s = .next { s with
      tphase := .idle, idx := s.idx + 1
      img := s.img.set s.slot { s.img[s.slot] with bytes := s.img[s.slot].bytes.write s.idx s.result } }) ∧
    (s.tphase = .done → s.outcome = .success → s.idx + 1 = s.len → exec i s = .next { s with
      tphase := .idle, aphase := .next
      img := s.img.set s.slot
        { s.img[s.slot] with bytes := s.img[s.slot].bytes.write s.idx s.result, valid := true } }) ∧
    (s.tphase = .done → s.outcome ≠ .success → exec i s = .next { s with tphase := .idle, aphase := .next })

/-- R119, R121: after a slot the next one starts with IDX = 0 and LEN = 0; after slot 7 the pass is complete with
Success. -/
def Obligations.SlotsAreTakenInOrder : Prop :=
  ∀ (s : State) (i : Instr), (i = .acqall ∨ i = .ctlb 4128#24) → s.tphase = .idle → s.aphase = .next →
    (s.slot < 7 → exec i s = .next { s with slot := s.slot + 1, idx := 0, len := 0, aphase := .hdr }) ∧
    (s.slot = 7 → exec i s = .next { s with slot := 8, outcome := .success, aphase := .done })

/-- R127, R164: the response at the end of a pass: ControllerNotFound with no payload after an aborted pass; after a
complete one, Success with no payload for ACQALL and with the eight records for CTLB. That the output buffer keeps the bytes
beyond the payload is the model's choice (log 11). -/
def Obligations.PassEndsWithTheResponse : Prop :=
  ∀ (s : State), s.tphase = .idle → s.aphase = .done →
    (s.outcome = .controllerNotFound → ∀ i, (i = .acqall ∨ i = .ctlb 4128#24) → exec i s = .next { s with
      responses := s.responses ++ [⟨1#8, []⟩], lock := false, aphase := .idle }) ∧
    (s.outcome = .success → exec .acqall s = .next { s with
      responses := s.responses ++ [⟨0#8, []⟩], lock := false, aphase := .idle }) ∧
    (s.outcome = .success → exec (.ctlb 4128#24) s = .next { s with
      responses := s.responses ++ [⟨0#8, imagesPayload s.img⟩], lock := false, aphase := .idle
      outBuf := writePayload (imagesPayload s.img) s.outBuf })

/-- R18 items 3 to 6, R120, R125: the record of one slot of a pass. After a failed header it is empty; otherwise byte o is
the o-th byte the body pass obtained and 0 from the first failure on, and the record is valid exactly when all `length`
bytes were obtained. -/
def Obligations.SlotRecordHoldsExactlyTheBytesRead : Prop :=
  ∀ (cfg : Params) (base : Port) (slot : Nat) (src : Source),
    let h := readMany cfg base (slotSlave slot) [0, 1, 2, 3] src
    let im := (acquireSlot cfg base slot src).image
    (h.complete = false → im = emptyImage (BitVec.ofNat 3 slot)) ∧
    (h.complete = true →
      let n := if h.bytes[2]? = some 0x0C#8 then 512 else 256
      let b := readMany cfg base (slotSlave slot) (List.range n) h.src
      im.slotIndex = BitVec.ofNat 3 slot ∧ im.length = n ∧ b.bytes.length ≤ n ∧
      (im.valid = true ↔ b.bytes.length = n) ∧ im.bytes.wf ∧ ∀ o, im.bytes.read o = (b.bytes[o]?).getD 0#8)

/-- R110, R122, R124, R127: ACQALL, from its acceptance to its response, is the procedure `acquireAll` of the
environment's answers: the machine performs exactly its events and leaves exactly its image file; BASE is unchanged and
the response comes at most 16532658 steps after its first. With BASE = 0 the code is 1, otherwise 0. The bound in steps
rests on the model's own division into steps (log 9, log 22). -/
def Obligations.AcqallRunsThePass : Prop :=
  ∀ s : State, s.rst = false → s.lock = true → s.tphase = .idle → s.aphase = .idle → decode s.cmdw = .ok .acqall →
    ∃ t, exec .acqall s = .next t ∧ ∃ n u, n ≤ 16532658 ∧ stepN n t = .next u ∧
      (let r := acquireAll s.cfg s.base s.io
       u.responses = s.responses ++ [⟨if s.base = 0#16 then 1#8 else 0#8, []⟩] ∧ u.outcome = r.outcome ∧
       u.img.toList = r.images ∧ u.trace = s.trace ++ r.events ∧ u.io = r.src) ∧
      u.lock = false ∧ u.tphase = .idle ∧ u.aphase = .idle ∧ u.base = s.base ∧ u.cmdw = s.cmdw ∧ u.cfg = s.cfg ∧
      u.offers = s.offers ∧ u.rtr = s.rtr ∧ u.outBuf = s.outBuf ∧ u.rst = false

/-- R164: CTLB with a buffer of 4128 bytes runs exactly the pass of ACQALL and then returns the eight records in slot
order, valid or not; with BASE = 0 it returns code 1 and no array. The bound in steps rests on the model's own division into
steps (log 9, log 22), and what the output buffer keeps beyond the payload is the model's choice (log 11). -/
def Obligations.CtlbRunsThePassAndReturnsTheRecords : Prop :=
  ∀ (s : State) (outLen : BitVec 24), outLen.toNat = 4128 → s.rst = false → s.lock = true → s.tphase = .idle →
    s.aphase = .idle → decode s.cmdw = .ok (.ctlb outLen) →
    ∃ t, exec (.ctlb outLen) s = .next t ∧ ∃ n u, n ≤ 16532658 ∧ stepN n t = .next u ∧
      (let r := acquireAll s.cfg s.base s.io
       let payload := if s.base = 0#16 then [] else r.images.flatMap SpdImage.serialise
       u.responses = s.responses ++ [⟨if s.base = 0#16 then 1#8 else 0#8, payload⟩] ∧ u.outcome = r.outcome ∧
       u.outBuf = writePayload payload s.outBuf ∧
       u.img.toList = r.images ∧ u.trace = s.trace ++ r.events ∧ u.io = r.src) ∧
      u.lock = false ∧ u.tphase = .idle ∧ u.aphase = .idle ∧ u.base = s.base ∧ u.cmdw = s.cmdw ∧ u.cfg = s.cfg ∧
      u.offers = s.offers ∧ u.rtr = s.rtr ∧ u.rst = false

/-- R118: a record becomes valid exactly at the end of the transaction for its last byte. -/
def Obligations.ValidIsSetOnlyByTheLastBodyByte : Prop :=
  ∀ (s t : State) (j : Fin 8), step s = .next t → s.img[j].valid = false → t.img[j].valid = true →
    s.aphase = .body ∧ s.tphase = .done ∧ s.outcome = .success ∧ s.slot = j.val ∧ s.idx + 1 = s.len

/-- R18 item 7, R210: a valid record is unchanged by every step but the clear of the next pass and reset. -/
def Obligations.ValidImageIsImmutable : Prop :=
  ∀ (s t : State) (j : Fin 8), Inv s → s.rst = false → s.aphase ≠ .clear → step s = .next t →
    s.img[j].valid = true → t.img[j] = s.img[j]

-- SPD Decoder

/-- R140: SUMM of a valid record responds with its 24-byte summary, of any other record with InvalidImage and no payload;
nothing else changes but OUTCOME and LOCK. That a record which is not valid is refused is the spec's own decision (D20). That
OUTCOME is written is read from R12 and R189, since R140 lists no state written (log 15); that the output buffer keeps the
bytes beyond the payload is the model's choice (log 11). -/
def Obligations.SummRespondsWithTheSummary : Prop :=
  ∀ (s : State) (slot : BitVec 3), s.tphase = .idle → s.aphase = .idle →
    ((s.img[slot.toNat]'slot.isLt).valid = true →
      exec (.summ slot) s = .next { s with
        outcome := .success, lock := false
        responses := s.responses ++ [⟨0#8, (summarize (s.img[slot.toNat]'slot.isLt)).bytes⟩]
        outBuf := (summarize (s.img[slot.toNat]'slot.isLt)).bytes ++ s.outBuf.drop 24 }) ∧
    ((s.img[slot.toNat]'slot.isLt).valid = false →
      exec (.summ slot) s = .next { s with
        outcome := .invalidImage, lock := false, responses := s.responses ++ [⟨6#8, []⟩] })

/-- R132: a byte at or beyond `length` reads as 0 and any other as itself, and the decoder reads the image in no other
way: the summary is the same for any two records with the same `length` and the same bytes below it. -/
def Obligations.DecoderNeverReadsBeyondLength : Prop :=
  (∀ (im : SpdImage) (o : Nat),
    (o < im.length → im.byteAt o = im.bytes.read o) ∧ (im.length ≤ o → im.byteAt o = 0#8)) ∧
  ∀ a b : SpdImage, a.length = b.length → (∀ o < a.length, a.bytes.read o = b.bytes.read o) →
    summarize a = summarize b

/-- R135: the module size of a summary is the formula's exact value on its density and bank fields, for every image, and it
does not overflow 64 bits; the value the decoder computes is that of the formula for every pair of fields. The width is the
spec's own decision (D19). -/
def Obligations.ModuleSizeNeverOverflows : Prop :=
  (∀ im : SpdImage,
    (summarize im).sizeMB.toNat = (1 <<< (summarize im).density.toNat) * ((summarize im).banks.toNat + 1) * 256 ∧
    256 ≤ (summarize im).sizeMB.toNat ∧ (summarize im).sizeMB.toNat ≤ 2 ^ 42) ∧
  ∀ (density : BitVec 5) (banks : BitVec 3),
    (moduleSize density banks).toNat = (1 <<< density.toNat) * (banks.toNat + 1) * 256 ∧
    256 ≤ (moduleSize density banks).toNat ∧ (moduleSize density banks).toNat ≤ 2 ^ 42

/-- R69, R134: byte 4 is split 5 and 3 bits, density above banks, with no bit lost; both are 0 where byte 4 is absent. -/
def Obligations.Byte4SplitsIntoDensityAndBanks : Prop :=
  ∀ im : SpdImage,
    (im.length > 4 → (im.bytes.read 4).toNat = 8 * (summarize im).density.toNat + (summarize im).banks.toNat) ∧
    (im.length ≤ 4 → (summarize im).density = 0#5 ∧ (summarize im).banks = 0#3)

/-- R137: the manufacturer pair; in an image of length 256, or of any length that does not reach offset 320, it is reported
"not specified", whatever the buffer holds at 320 and 321. -/
def Obligations.ManufacturerOfAShortImageIsNotSpecified : Prop :=
  ∀ im : SpdImage,
    (im.length ≤ 320 →
      (summarize im).mfgSpecified = false ∧ (summarize im).mfg0 = 0#8 ∧ (summarize im).mfg1 = 0#8) ∧
    (im.length = 512 → (summarize im).mfg0 = im.bytes.read 320 ∧ (summarize im).mfg1 = im.bytes.read 321) ∧
    (summarize im).mfg0 = im.byteAt 320 ∧ (summarize im).mfg1 = im.byteAt 321 ∧
    ((summarize im).mfgSpecified = true ↔ (summarize im).mfg0 ≠ 0#8)

/-- R136: the four timing fields are 16-bit little-endian: the byte at the lower offset is the low byte. -/
def Obligations.TimingFieldsAreLittleEndian : Prop :=
  ∀ im : SpdImage,
    (summarize im).tCL.toNat = (im.byteAt 18).toNat + 256 * (im.byteAt 19).toNat ∧
    (summarize im).tRCD.toNat = (im.byteAt 20).toNat + 256 * (im.byteAt 21).toNat ∧
    (summarize im).tRP.toNat = (im.byteAt 22).toNat + 256 * (im.byteAt 23).toNat ∧
    (summarize im).tRAS.toNat = (im.byteAt 24).toNat + 256 * (im.byteAt 25).toNat

/-- R133: the type marker: 4 for 0x0C, 5 for 0x12, 0 otherwise, and the marker itself beside it. -/
def Obligations.TypeMarkerNamesTheGeneration : Prop :=
  ∀ im : SpdImage,
    (summarize im).typeRaw = im.byteAt 2 ∧
    (im.byteAt 2 = 0x0C#8 → (summarize im).typeTag = 4#8) ∧
    (im.byteAt 2 = 0x12#8 → (summarize im).typeTag = 5#8) ∧
    (im.byteAt 2 ≠ 0x0C#8 → im.byteAt 2 ≠ 0x12#8 → (summarize im).typeTag = 0#8)

/-- R71: the 24 bytes of a serialised summary; the 64-bit and 16-bit fields have their low byte first. The layout is the
spec's own decision (D19). -/
def Obligations.SummaryLayoutIsLittleEndian : Prop :=
  ∀ m : SpdSummary,
    m.bytes.length = 24 ∧
    m.bytes.take 4 = [m.typeTag, m.typeRaw, m.banks.setWidth 8, m.density.setWidth 8] ∧
    (m.bytes.drop 12).take 4 = [if m.mfgSpecified then 1#8 else 0#8, m.mfg0, m.mfg1, 0#8] ∧
    ((m.bytes.drop 4).take 8).foldr (fun b n => b.toNat + 256 * n) 0 = m.sizeMB.toNat ∧
    ((m.bytes.drop 16).take 2).foldr (fun b n => b.toNat + 256 * n) 0 = m.tCL.toNat ∧
    ((m.bytes.drop 18).take 2).foldr (fun b n => b.toNat + 256 * n) 0 = m.tRCD.toNat ∧
    ((m.bytes.drop 20).take 2).foldr (fun b n => b.toNat + 256 * n) 0 = m.tRP.toNat ∧
    ((m.bytes.drop 22).take 2).foldr (fun b n => b.toNat + 256 * n) 0 = m.tRAS.toNat

-- The commands of the boundary

/-- R161: SETBASE writes BASE with any value, 0 included, and responds (0, []); nothing else changes but OUTCOME and LOCK.
That OUTCOME is written is read from R12 and R189, since R161 names BASE only (log 15). -/
def Obligations.SetbaseWritesTheBase : Prop :=
  ∀ (s : State) (base : BitVec 16), s.tphase = .idle → s.aphase = .idle →
    exec (.setbase base) s = .next { s with
      base := base, outcome := .success, lock := false, responses := s.responses ++ [⟨0#8, []⟩] }

/-- R163, R166: CTLA with a buffer of exactly RTR_SIZE bytes responds with the bytes the timing source supplies; nothing
else changes but OUTCOME and LOCK, BASE is not consulted and no I/O event is performed. That OUTCOME is written is read from
R12 and R189, since R166 lists no state written (log 15); that the output buffer keeps the bytes beyond the payload is the
model's choice (log 11). -/
def Obligations.CtlaReturnsTheTimingRecord : Prop :=
  ∀ (s : State) (outLen : BitVec 24), s.tphase = .idle → s.aphase = .idle → outLen.toNat = s.cfg.rtrSize →
    ∃ t rec, exec (.ctla outLen) s = .next t ∧
      rec.length = s.cfg.rtrSize ∧ (∀ k < s.cfg.rtrSize, rec[k]? = some (s.rtr.nth Config.timingByte k)) ∧
      t.rtr.count = s.rtr.count + s.cfg.rtrSize ∧
      t = { s with
        outcome := .success, lock := false, responses := s.responses ++ [⟨0#8, rec⟩]
        outBuf := rec ++ s.outBuf.drop s.cfg.rtrSize, rtr := t.rtr }

/-- R163, R167: CTLA and CTLB with a buffer of any other size get (4, []), and nothing changes but LOCK, CMDW and OUTCOME:
no event, no draw of the timing source, and the image file is not cleared. That an oversized buffer fails too is the spec's
own reading of "must be exactly" (D21). -/
def Obligations.WrongBufferSizeTouchesNothing : Prop :=
  ∀ (s : State) (outLen : BitVec 24), s.tphase = .idle → s.aphase = .idle →
    (outLen.toNat ≠ s.cfg.rtrSize → exec (.ctla outLen) s = .next { s with
      outcome := .invalidBufferSize, lock := false, responses := s.responses ++ [⟨4#8, []⟩] }) ∧
    (outLen.toNat ≠ 4128 → exec (.ctlb outLen) s = .next { s with
      outcome := .invalidBufferSize, lock := false, responses := s.responses ++ [⟨4#8, []⟩] })

/-- R65, R70, R164: the 4128 bytes of the CTLB payload: record i at 516 i, its 512 bytes, its length with the low byte
first, its valid flag and its slot index. The layout is the spec's own decision (D18). -/
def Obligations.CtlbPayloadLayout : Prop :=
  ∀ (img : Vector SpdImage 8), (imagesPayload img).length = 4128 ∧
    ∀ i : Fin 8,
      (∀ o < 512, (imagesPayload img)[516 * i.val + o]? = some (img[i].bytes.read o)) ∧
      (img[i].length < 65536 → ∃ lo hi : Byte,
        (imagesPayload img)[516 * i.val + 512]? = some lo ∧ (imagesPayload img)[516 * i.val + 513]? = some hi ∧
        lo.toNat + 256 * hi.toNat = img[i].length) ∧
      (imagesPayload img)[516 * i.val + 514]? = some (if img[i].valid then 1#8 else 0#8) ∧
      (imagesPayload img)[516 * i.val + 515]? = some (img[i].slotIndex.setWidth 8)

-- The whole machine

/-- The invariant holds at reset (R18, R30). -/
def Obligations.InvHoldsAtReset : Prop := Inv State.reset

/-- The invariant of R14, R15, R16 and R18 is kept by every step from every state that meets it: the image file keeps its
eight records in order with a legal length, no valid record is short or has bytes beyond its length, memory keeps its
canonical form, the counters stay within their budgets, and LOCK, CMDW and the two phases agree. -/
def Obligations.StepKeepsInv : Prop := ∀ s t : State, Inv s → step s = .next t → Inv t

/-- R214: a state that meets the invariant has no stop: the step answers a next state, never a fault or a refusal. -/
def Obligations.InvStateNeverStops : Prop := ∀ s : State, Inv s → ∃ t, step s = .next t

/-- R169, R172, R214: every command ends: from every state that meets the invariant, with a command in progress and no
reset event, the engine places its one response and clears LOCK after a bounded number of steps, whatever the environment
answers. The bound in steps rests on the model's own division into steps (log 9, log 22). -/
def Obligations.EveryCommandEnds : Prop :=
  ∀ s : State, Inv s → s.rst = false → s.lock = true →
    ∃ n t r, n ≤ 16532658 ∧ stepN n s = .next t ∧ t.lock = false ∧ t.responses = s.responses ++ [r]

/-- R11: "BASE is written only by the SETBASE command ... and by reset". That the step which writes it is the one that takes
the offered word, with LOCK = 0 before it, is the model's choice (log 9). -/
def Obligations.BaseChangesOnlyBySetbase : Prop :=
  ∀ s t : State, Inv s → s.rst = false → step s = .next t → t.base ≠ s.base →
    ∃ w rest, s.lock = false ∧ s.offers = w :: rest ∧ decode w = .ok (.setbase t.base)

/-- R17: "The image file is written only by the acquisition sequencer ... and by reset": by the clear, the classification
and the store of a byte obtained. -/
def Obligations.ImagesAreWrittenOnlyByAPass : Prop :=
  ∀ s t : State, s.rst = false → step s = .next t → t.img ≠ s.img →
    s.aphase = .clear ∨ s.aphase = .classify ∨ (s.aphase = .body ∧ s.tphase = .done ∧ s.outcome = .success)

/-- R20, R21, R26, R41, R50: a step performs at most one event, and only these: reads of the status and data-low ports, the
four register writes with their values, and stalls. The data-high port is never accessed and the busy bit is never
written. -/
def Obligations.OnlyTheNamedPortsAreAccessed : Prop :=
  ∀ s t : State, s.cfg.ok = true → step s = .next t →
    t.trace = s.trace ∨ ∃ e, t.trace = s.trace ++ [e] ∧
      (e = .stall ∨ (∃ v, e = .ior8 s.stsPort v) ∨ (∃ v, e = .ior8 s.dat0Port v) ∨
        (∃ v, e = .iow8 s.stsPort v ∧ v = s.cfg.mIntr ||| s.cfg.mErr ∧ v &&& s.cfg.mBusy = 0#8) ∨
        e = .iow8 s.addrPort (addrByte s.slave) ∨ e = .iow8 s.cmdPort s.offset ∨ e = .iow8 s.ctlPort s.cfg.opcRead) ∧
      ∀ v, e ≠ .ior8 (portAt s.base s.cfg.offDat1) v ∧ e ≠ .iow8 (portAt s.base s.cfg.offDat1) v

/-- R96, R205: a step that reads the data-low port comes right after a status read whose sample has the interrupt bit set
and the error bit clear, and it ends the transaction with Success and that byte. -/
def Obligations.DataIsReadOnlyAfterConfirmation : Prop :=
  ∀ (s t : State) (v : Byte), Inv s → step s = .next t → t.trace = s.trace ++ [.ior8 s.dat0Port v] →
    s.trace.getLast? = some (.ior8 s.stsPort s.sts) ∧ s.sts &&& s.cfg.mIntr ≠ 0#8 ∧ s.sts &&& s.cfg.mErr = 0#8 ∧
    t.tphase = .done ∧ t.outcome = .success ∧ t.result = v

/-- R212: BASE = 0 is never used as a port base: with BASE = 0 no step performs an event. A response ControllerNotFound
(code 1) is placed only with BASE = 0, so it is never the result of something the controller answered (R181). -/
def Obligations.ZeroBaseIsNeverAPortBase : Prop :=
  ∀ s t : State, Inv s → step s = .next t →
    (s.base = 0#16 → t.trace = s.trace) ∧
    ∀ p, t.responses = s.responses ++ [⟨1#8, p⟩] → s.base = 0#16

/-- R182, R183: OUTCOME becomes BusTimeout only by the 1000th stall of a wait, and TransactionError only by a completion
sample with the error bit set. -/
def Obligations.TimeoutAndErrorAreRaisedOnlyInTheWaits : Prop :=
  ∀ s t : State, step s = .next t → t.outcome ≠ s.outcome →
    (t.outcome = .busTimeout → (s.tphase = .arbStall ∧ s.arbcnt = 999) ∨ (s.tphase = .cmpStall ∧ s.cmpcnt = 999)) ∧
    (t.outcome = .transactionError → s.tphase = .cmpRead ∧ s.answer &&& s.cfg.mErr ≠ 0#8)

/-- R167: a command answered with InvalidBufferSize or UnsupportedRequest performs no I/O event, does not touch the
timing-source port, and changes no state other than LOCK, CMDW and OUTCOME: the step that answers it starts in an idle
engine and differs from it in nothing else but the word taken from the port and the response placed. That the step which
answers is the one that accepts, with LOCK = 0 before it, is the model's choice (log 9). -/
def Obligations.BoundaryViolationsTouchNothing : Prop :=
  ∀ (s t : State) (code : Byte) (payload : List Byte), Inv s → step s = .next t →
    t.responses = s.responses ++ [⟨code, payload⟩] → code = 4#8 ∨ code = 5#8 →
    s.lock = false ∧ payload = [] ∧ t.trace = s.trace ∧ t.rtr = s.rtr ∧ t.img = s.img ∧
    t = { s with cmdw := t.cmdw, outcome := t.outcome, offers := t.offers, responses := t.responses }

-- The requester's side, and memory

/-- R146, R147: `persist` of a valid record replaces the artifact of its slot by exactly its `length` bytes and no other,
doing it twice is doing it once, and it is not done for a record that is not valid. -/
def Obligations.PersistThenReadGivesTheBytes : Prop :=
  ∀ (im : SpdImage) (art : ArtifactStore),
    (im.valid = false → im.persist art = none) ∧
    (im.valid = true → ∃ art', im.persist art = some art' ∧ im.persist art' = some art' ∧
      (art'[im.slotIndex.toNat]'im.slotIndex.isLt).length = im.length ∧
      (∀ o < im.length, (art'[im.slotIndex.toNat]'im.slotIndex.isLt)[o]? = some (im.bytes.read o)) ∧
      ∀ j : Fin 8, j.val ≠ im.slotIndex.toNat → art'[j] = art[j])

/-- R145: a dump is its `length / 16` rows of 72 characters one after another. Row `r` is the offset 16 r as four upper-case
hexadecimal digits, a colon and a space; the 16 bytes, each as two such digits and a space; one more space; the 16 bytes as
characters, those not in 0x20 to 0x7E as a full stop; a line feed. The canonical form is the spec's own decision (D23). -/
def Obligations.DumpHasRowsOf72Characters : Prop :=
  ∀ im : SpdImage,
    let digits := ['0', '1', '2', '3', '4', '5', '6', '7', '8', '9', 'A', 'B', 'C', 'D', 'E', 'F']
    im.dump.length = 72 * (im.length / 16) ∧
    (∀ r < im.length / 16, (im.dump.drop (72 * r)).take 72 = im.dumpRow r) ∧
    ∀ r, (im.dumpRow r).length = 72 ∧
      (∀ j < 4, (im.dumpRow r)[j]? = digits[16 * r / 16 ^ (3 - j) % 16]?) ∧
      (im.dumpRow r)[4]? = some ':' ∧ (im.dumpRow r)[5]? = some ' ' ∧
      (∀ k < 16, (im.dumpRow r)[6 + 3 * k]? = digits[(im.bytes.read (16 * r + k)).toNat / 16]? ∧
        (im.dumpRow r)[7 + 3 * k]? = digits[(im.bytes.read (16 * r + k)).toNat % 16]? ∧
        (im.dumpRow r)[8 + 3 * k]? = some ' ') ∧
      (im.dumpRow r)[54]? = some ' ' ∧
      (∀ k < 16, (im.dumpRow r)[55 + k]? = some (
        if 0x20 ≤ (im.bytes.read (16 * r + k)).toNat ∧ (im.bytes.read (16 * r + k)).toNat ≤ 0x7E
        then Char.ofNat (im.bytes.read (16 * r + k)).toNat else '.')) ∧
      (im.dumpRow r)[71]? = some '\n'

/-- Memories in canonical form that read the same at every address are equal. The spec gives the bytes of the image space
(R40, R53); that they are held as such a list is the model's own (log 17). -/
def Obligations.MemoriesThatReadAlikeAreEqual : Prop :=
  ∀ m m' : Memory, m.wf → m'.wf → (∀ a, m.read a = m'.read a) → m = m'
end

