-- ==== Sys2Proof/Laws/Encoding.lean ====
section
/-! SUPPORT. The byte order of the command port: a word read back from its four bytes, and the fields of a word bit by
bit. -/

namespace Sys2Proof

/-- A word is read back from the bytes that store it (R43). -/
theorem wordOfBytes_bytesOfWord (w : Word) :
    wordOfBytes (w.extractLsb' 0 8) (w.extractLsb' 8 8) (w.extractLsb' 16 8) (w.extractLsb' 24 8) = w := by
  unfold wordOfBytes
  ext k hk; interval_cases k <;> simp

/-- The decoder on the bytes of a word is the decoder on the word. -/
theorem decodeBytes_bytesOfWord (w : Word) (rest : List Byte) :
    decodeBytes (bytesOfWord w ++ rest) =
      match decode w with
      | .ok i => .ok (i, rest)
      | .error e => .error e := by
  cases h : decode w <;>
    simp [bytesOfWord, decodeBytes, wordOfBytes_bytesOfWord, h]

/-- A bit of a word whose field is known. -/
theorem getLsbD_of_field {w : Word} {start len : Nat} {v : BitVec len} (h : w.extractLsb' start len = v) (k : Nat)
    (hk : k < len) : w.getLsbD (start + k) = v.getLsbD k := by
  subst h; simp [hk]

end Sys2Proof
end

