-- ==== Sys2Proof/Laws/Step.lean ====
section
/-! SUPPORT. What a step can do, said once: the cases of `pass`, `exec` and `step`. Proofs over all steps cite these
instead of unfolding `step`. -/

namespace Sys2Proof.Machine

/-- What one engine step of a pass can be, when no transaction is in progress (R121). -/
inductive PassStep (s : State) (finish : State → State) : State → Prop where
  | enter : s.aphase = .idle → PassStep s finish { s with aphase := .clear }
  | begin : s.aphase = .clear → PassStep s finish s.beginPass
  | hdrStart : s.aphase = .hdr → s.slot < nSlots → s.idx < hdrLen → s.tphase = .idle →
      PassStep s finish (s.startTransaction (slotSlave s.slot) (idxByte s.idx))
  | hdrTake : s.aphase = .hdr → s.slot < nSlots → s.idx < hdrLen → s.tphase = .done →
      PassStep s finish s.takeHeaderByte
  | classify : s.aphase = .classify → s.slot < nSlots → PassStep s finish s.classify
  | bodyStart : s.aphase = .body → s.slot < nSlots → s.idx < s.len → s.idx < imgCap → s.tphase = .idle →
      PassStep s finish (s.startTransaction (slotSlave s.slot) (idxByte s.idx))
  | bodyTake : s.aphase = .body → s.slot < nSlots → s.idx < s.len → s.idx < imgCap → s.tphase = .done →
      PassStep s finish s.takeBodyByte
  | advance : s.aphase = .next → PassStep s finish s.nextSlot
  | finish : s.aphase = .done → PassStep s finish (finish s)

theorem tphase_of_not_active {s : State} (h : s.tphase.active = false) : s.tphase = .idle ∨ s.tphase = .done := by
  cases ht : s.tphase <;> simp_all [TPhase.active]

theorem pass_cases {s t : State} {finish : State → State} (ha : s.tphase.active = false)
    (h : s.pass finish = .next t) : PassStep s finish t := by
  unfold State.pass at h
  rw [ha] at h
  have hd := tphase_of_not_active ha
  cases hp : s.aphase <;> simp only [hp, Bool.false_eq_true, if_false] at h
  case idle => cases h; exact .enter hp
  case clear => cases h; exact .begin hp
  case hdr =>
    split at h <;> try cases h
    split at h <;> cases h
    rename_i h1 h2
    rcases hd with hd | hd <;> simp only [State.passRead, hd]
    · exact .hdrStart hp h1 h2 hd
    · exact .hdrTake hp h1 h2 hd
  case classify =>
    split at h <;> cases h
    rename_i h1
    exact .classify hp h1
  case body =>
    split at h <;> try cases h
    split at h <;> cases h
    rename_i h1 h2
    rcases hd with hd | hd <;> simp only [State.passRead, hd]
    · exact .bodyStart hp h1 h2.1 h2.2 hd
    · exact .bodyTake hp h1 h2.1 h2.2 hd
  case next => cases h; exact .advance hp
  case done => cases h; exact .finish hp

/-- What the step of a command can be, when no transaction is in progress. -/
inductive CommandStep (s : State) : Instr → State → Prop where
  | setbase (base : BitVec 16) : CommandStep s (.setbase base) ({ s with base := base }.respond .success [])
  | rdbyteStart (slave : SlaveAddr) (offset : Byte) : s.tphase = .idle →
      CommandStep s (.rdbyte slave offset) (s.startTransaction slave offset)
  | rdbyteEnd (slave : SlaveAddr) (offset : Byte) : s.tphase = .done →
      CommandStep s (.rdbyte slave offset) s.respondByte
  | acqall (t : State) : PassStep s State.respondPass t → CommandStep s .acqall t
  | summ (slot : BitVec 3) : CommandStep s (.summ slot) (s.respondSummary (s.image slot))
  | ctla (outLen : BitVec 24) : outLen.toNat = ctlaSize s.cfg → CommandStep s (.ctla outLen) s.respondTiming
  | ctlaSize (outLen : BitVec 24) : outLen.toNat ≠ ctlaSize s.cfg →
      CommandStep s (.ctla outLen) (s.respond .invalidBufferSize [])
  | ctlb (outLen : BitVec 24) (t : State) : outLen.toNat = ctlbSize → PassStep s State.respondImages t →
      CommandStep s (.ctlb outLen) t
  | ctlbSize (outLen : BitVec 24) : outLen.toNat ≠ ctlbSize →
      CommandStep s (.ctlb outLen) (s.respond .invalidBufferSize [])

theorem exec_cases {i : Instr} {s t : State} (ha : s.tphase.active = false) (h : exec i s = .next t) :
    CommandStep s i t := by
  cases i with
  | setbase base => cases h; exact .setbase base
  | rdbyte slave offset =>
    rcases tphase_of_not_active ha with ht | ht <;> simp only [exec, execRdbyte, ht] at h <;> cases h
    · exact .rdbyteStart slave offset ht
    · exact .rdbyteEnd slave offset ht
  | acqall => exact .acqall t (pass_cases ha h)
  | summ slot => cases h; exact .summ slot
  | ctla outLen =>
    simp only [exec, execCtla] at h
    split at h <;> cases h
    · exact .ctla outLen ‹_›
    · exact .ctlaSize outLen ‹_›
  | ctlb outLen =>
    simp only [exec, execCtlb] at h
    split at h
    · exact .ctlb outLen t ‹_› (pass_cases ha h)
    · cases h; exact .ctlbSize outLen ‹_›

/-- What a step of the machine can be. -/
inductive StepCase (s : State) : State → Prop where
  | reset : s.rst = true → StepCase s s.resetEvent
  | transport : s.rst = false → s.tphase.active = true → StepCase s s.transport
  | idle : s.rst = false → s.tphase.active = false → s.lock = false → s.offers = [] → StepCase s s
  | goOn (i : Instr) (t : State) : s.rst = false → s.tphase.active = false → s.lock = true → decode s.cmdw = .ok i →
      CommandStep s i t → StepCase s t
  | goOnUnsupported (e : Reject) : s.rst = false → s.tphase.active = false → s.lock = true →
      decode s.cmdw = .error e → StepCase s s.unsupported
  | accept (w : Word) (rest : List Word) (i : Instr) (t : State) : s.rst = false → s.tphase.active = false →
      s.lock = false → s.offers = w :: rest → decode w = .ok i → CommandStep (s.accept w rest) i t → StepCase s t
  | acceptUnsupported (w : Word) (rest : List Word) (e : Reject) : s.rst = false → s.tphase.active = false →
      s.lock = false → s.offers = w :: rest → decode w = .error e → StepCase s (s.accept w rest).unsupported

theorem step_cases {s t : State} (h : step s = .next t) : StepCase s t := by
  unfold step at h
  split at h
  · cases h; exact .reset ‹_›
  rename_i hr; simp only [Bool.not_eq_true] at hr
  split at h
  · cases h; exact .transport hr ‹_›
  rename_i ha; simp only [Bool.not_eq_true] at ha
  split at h
  · rename_i hl
    unfold runWord at h
    split at h
    · exact .goOn _ t hr ha hl ‹_› (exec_cases ha h)
    · cases h; exact .goOnUnsupported _ hr ha hl ‹_›
  · rename_i hl; simp only [Bool.not_eq_true] at hl
    split at h
    · cases h; exact .idle hr ha hl ‹_›
    · rename_i w rest ho
      unfold runWord at h
      split at h
      · exact .accept w rest _ t hr ha hl ho ‹_› (exec_cases (s := s.accept w rest) ha h)
      · cases h; exact .acceptUnsupported w rest _ hr ha hl ho ‹_›

theorem step_active {s : State} (hr : s.rst = false) (ha : s.tphase.active = true) : step s = .next s.transport := by
  simp [step, hr, ha]

theorem step_locked {s : State} (hr : s.rst = false) (ha : s.tphase.active = false) (hl : s.lock = true) :
    step s = runWord s.cmdw s := by
  simp [step, hr, ha, hl]

theorem step_nothing {s : State} (hr : s.rst = false) (ha : s.tphase.active = false) (hl : s.lock = false)
    (ho : s.offers = []) : step s = .next s := by
  simp [step, hr, ha, hl, ho]

theorem step_accepts {s : State} {w : Word} {rest : List Word} (hr : s.rst = false) (ha : s.tphase.active = false)
    (hl : s.lock = false) (ho : s.offers = w :: rest) : step s = runWord w (s.accept w rest) := by
  simp [step, hr, ha, hl, ho]

/-- The steps of a run may be taken in two parts. -/
theorem stepN_add {m n : Nat} {s t : State} (h : stepN m s = .next t) : stepN (m + n) s = stepN n t := by
  induction m generalizing s with
  | zero => cases h; simp
  | succ m ih =>
    rw [Nat.succ_add]
    cases hs : step s <;> simp only [stepN, hs] at h ⊢ <;> first | exact ih h | cases h

theorem stepN_one {s t : State} (h : step s = .next t) : stepN 1 s = .next t := by
  simp [stepN, h]

theorem stepN_succ {n : Nat} {s t : State} (h : step s = .next t) : stepN (n + 1) s = stepN n t := by
  simp [stepN, h]

end Sys2Proof.Machine
end

