-- ==== Sys2Proof/Laws/Transaction.lean ====
section
/-! SUPPORT. A transaction as a run of the machine: the draws of an input port, the two waits, and the whole transaction
as `readByte`, each with one step for each event. -/

namespace Sys2Proof.Machine

theorem Source.nth_zero (free : Nat → Byte) (src : Source) : src.nth free 0 = (src.next free).1 := by
  rcases src with ⟨_ | ⟨v, vs⟩, c⟩ <;> simp [Source.nth, Source.next]

theorem Source.nth_next (free : Nat → Byte) (src : Source) (k : Nat) :
    (src.next free).2.nth free k = src.nth free (k + 1) := by
  rcases src with ⟨_ | ⟨v, vs⟩, c⟩ <;> simp [Source.nth, Source.next, Nat.add_comm, Nat.add_left_comm]

theorem Source.take_length (free : Nat → Byte) (n : Nat) (src : Source) : (src.take free n).1.length = n := by
  induction n generalizing src with
  | zero => rfl
  | succ n ih => simp [Source.take, ih]

theorem Source.take_get (free : Nat → Byte) (n : Nat) (src : Source) (k : Nat) (hk : k < n) :
    (src.take free n).1[k]? = some (src.nth free k) := by
  induction n generalizing src k with
  | zero => omega
  | succ n ih =>
    cases k with
    | zero => simp [Source.take, Source.nth_zero]
    | succ k => simp [Source.take, ih _ k (by omega), Source.nth_next]

theorem Source.next_count (free : Nat → Byte) (src : Source) : (src.next free).2.count = src.count + 1 := by
  rcases src with ⟨_ | ⟨v, vs⟩, c⟩ <;> rfl

theorem Source.take_count (free : Nat → Byte) (n : Nat) (src : Source) : (src.take free n).2.count = src.count + n := by
  induction n generalizing src with
  | zero => rfl
  | succ n ih => simp [Source.take, ih, Source.next_count]; omega

/-- One step of a transaction in progress, with the phase known. -/
theorem step_arbRead {s : State} (hr : s.rst = false) (ht : s.tphase = .arbRead) : step s = .next s.arbRead := by
  rw [step_active hr (by rw [ht]; rfl)]; simp only [State.transport, ht]

theorem step_arbStall {s : State} (hr : s.rst = false) (ht : s.tphase = .arbStall) : step s = .next s.arbStall := by
  rw [step_active hr (by rw [ht]; rfl)]; simp only [State.transport, ht]

theorem step_cmpRead {s : State} (hr : s.rst = false) (ht : s.tphase = .cmpRead) : step s = .next s.cmpRead := by
  rw [step_active hr (by rw [ht]; rfl)]; simp only [State.transport, ht]

theorem step_cmpStall {s : State} (hr : s.rst = false) (ht : s.tphase = .cmpStall) : step s = .next s.cmpStall := by
  rw [step_active hr (by rw [ht]; rfl)]; simp only [State.transport, ht]

/-- The arbitration wait of a transaction is `waitFor` on the busy bit: one step for each event (R85, R86). -/
theorem arb_wait (n : Nat) (s : State) (hr : s.rst = false) (ht : s.tphase = .arbRead) (hc : s.arbcnt + n = pollBudget)
    (hn : 0 < n) :
    let r := waitFor s.stsPort (fun v => !busySet s.cfg v) n s.io
    ∃ u, stepN r.events.length s = .next u ∧
      u = { s with
        sts := u.sts, arbcnt := u.arbcnt, io := r.src, trace := s.trace ++ r.events
        outcome := if r.sample.isNone then .busTimeout else s.outcome
        tphase := if r.sample.isNone then .done else .clear } ∧
      (r.sample.isNone → u.arbcnt = pollBudget) := by
  induction n generalizing s with
  | zero => omega
  | succ n ih =>
    intro r
    have h1 := step_arbRead hr ht
    by_cases hb : busySet s.cfg s.answer = true
    · have hb' : busySet s.cfg (s.io.next Config.ioAnswer).1 = true := hb
      have h2 := step_arbStall (s := s.arbRead) hr (if_pos hb)
      by_cases hz : n = 0
      · subst hz
        have e : s.arbRead.arbStall = _ := if_pos hc
        have hl : r.events.length = 2 := by simp [r, waitFor, hb']
        refine ⟨s.arbRead.arbStall, ?_, ?_, ?_⟩
        · rw [hl, stepN_succ h1, stepN_one h2]
        · rw [e]
          simp [r, waitFor, hb', State.arbRead, State.ior8, State.stallEvent, State.answer]
        · intro _; rw [e]; exact hc
      · have e : s.arbRead.arbStall = _ := if_neg (show ¬ s.arbcnt + 1 = pollBudget by omega)
        obtain ⟨u, hu, he, hle⟩ := ih s.arbRead.arbStall (by rw [e]; exact hr) (by rw [e])
          (by rw [e]; show s.arbcnt + 1 + n = pollBudget; omega) (by omega)
        rw [e] at he hle
        simp only [State.stsPort, State.arbRead, State.ior8, State.stallEvent, State.answer] at he hle
        refine ⟨u, ?_, ?_, ?_⟩
        · have hl : r.events.length = (waitFor s.arbRead.arbStall.stsPort (fun v => !busySet s.arbRead.arbStall.cfg v) n
              s.arbRead.arbStall.io).events.length + 1 + 1 := by
            rw [e]
            simp [r, waitFor, hb', State.arbRead, State.ior8, State.stallEvent, State.answer, State.stsPort]
          rw [hl, stepN_succ h1, stepN_succ h2, hu]
        · rw [he]
          simp [r, waitFor, hb', State.stsPort]
        · intro h; apply hle; simpa [r, waitFor, hb', State.stsPort] using h
    · have hb' : busySet s.cfg (s.io.next Config.ioAnswer).1 = false := by simpa [State.answer] using hb
      have hl : r.events.length = 1 := by simp [r, waitFor, hb']
      refine ⟨s.arbRead, by rw [hl]; exact stepN_one h1, ?_, ?_⟩
      · simp [r, waitFor, hb', State.arbRead, State.ior8, State.answer]
      · simp [r, waitFor, hb']

/-- The completion wait of a transaction is `waitFor` on the error and interrupt bits: one step for each event (R92,
R93). -/
theorem cmp_wait (n : Nat) (s : State) (hr : s.rst = false) (ht : s.tphase = .cmpRead) (hc : s.cmpcnt + n = pollBudget)
    (hn : 0 < n) :
    let r := waitFor s.stsPort (fun v => errSet s.cfg v || intrSet s.cfg v) n s.io
    ∃ u, stepN r.events.length s = .next u ∧
      u = { s with
        sts := u.sts, cmpcnt := u.cmpcnt, io := r.src, trace := s.trace ++ r.events
        outcome := match r.sample with
          | none => .busTimeout
          | some v => if errSet s.cfg v then .transactionError else s.outcome
        tphase := match r.sample with
          | none => .done
          | some v => if errSet s.cfg v then .done else .data } := by
  induction n generalizing s with
  | zero => omega
  | succ n ih =>
    intro r
    have h1 := step_cmpRead hr ht
    by_cases he : errSet s.cfg s.answer = true
    · have he' : errSet s.cfg (s.io.next Config.ioAnswer).1 = true := he
      have e : s.cmpRead = _ := if_pos he
      have hl : r.events.length = 1 := by simp [r, waitFor, he']
      refine ⟨s.cmpRead, by rw [hl]; exact stepN_one h1, ?_⟩
      rw [e]; simp [r, waitFor, he', State.ior8, State.answer]
    have he' : errSet s.cfg (s.io.next Config.ioAnswer).1 = false := by simpa [State.answer] using he
    have e : s.cmpRead = _ := if_neg he
    by_cases hb : intrSet s.cfg s.answer = true
    · have hb' : intrSet s.cfg (s.io.next Config.ioAnswer).1 = true := hb
      have hl : r.events.length = 1 := by simp [r, waitFor, hb']
      refine ⟨s.cmpRead, by rw [hl]; exact stepN_one h1, ?_⟩
      rw [e]; simp [r, waitFor, he', hb', State.ior8, State.answer]
    · have hb' : intrSet s.cfg (s.io.next Config.ioAnswer).1 = false := by simpa [State.answer] using hb
      have h2 := step_cmpStall (s := s.cmpRead) (by rw [e]; exact hr) (by rw [e]; exact if_neg hb)
      have e2 : s.cmpRead.cmpcnt = s.cmpcnt := by rw [e]; rfl
      by_cases hz : n = 0
      · subst hz
        have e3 : s.cmpRead.cmpStall = _ := if_pos (show s.cmpRead.cmpcnt + 1 = pollBudget by omega)
        have hl : r.events.length = 2 := by simp [r, waitFor, he', hb']
        refine ⟨s.cmpRead.cmpStall, ?_, ?_⟩
        · rw [hl, stepN_succ h1, stepN_one h2]
        · rw [e3, e]
          simp [r, waitFor, he', hb', State.ior8, State.stallEvent, State.answer]
      · have e3 : s.cmpRead.cmpStall = _ := if_neg (show ¬ s.cmpRead.cmpcnt + 1 = pollBudget by omega)
        obtain ⟨u, hu, hE⟩ := ih s.cmpRead.cmpStall (by rw [e3, e]; exact hr) (by rw [e3])
          (by rw [e3]; show s.cmpRead.cmpcnt + 1 + n = pollBudget; omega) (by omega)
        rw [e3, e] at hE
        refine ⟨u, ?_, ?_⟩
        · have hl : r.events.length = (waitFor s.cmpRead.cmpStall.stsPort
              (fun v => errSet s.cmpRead.cmpStall.cfg v || intrSet s.cmpRead.cmpStall.cfg v) n
              s.cmpRead.cmpStall.io).events.length + 1 + 1 := by
            rw [e3, e]
            simp [r, waitFor, he', hb', State.ior8, State.stallEvent, State.answer, State.stsPort]
          rw [hl, stepN_succ h1, stepN_succ h2, hu]
        · rw [hE]
          simp [r, waitFor, he', hb', State.ior8, State.stallEvent, State.answer, State.stsPort]

/-- Steps 2 to 4 of a transaction take four steps (R87 to R91). -/
theorem setup_run (s : State) (hr : s.rst = false) (ht : s.tphase = .clear) :
    stepN 4 s = .next { s with
      trace := s.trace ++ setupWrites s.cfg s.base s.slave s.offset, cmpcnt := 0, tphase := .cmpRead } := by
  have h1 : step s = .next s.clearStatus := by
    rw [step_active hr (by rw [ht]; rfl)]; simp only [State.transport, ht]
  have h2 : step s.clearStatus = .next s.clearStatus.writeAddr := step_active hr rfl
  have h3 : step s.clearStatus.writeAddr = .next s.clearStatus.writeAddr.writeCmd := step_active hr rfl
  have h4 : step s.clearStatus.writeAddr.writeCmd = .next s.clearStatus.writeAddr.writeCmd.writeStart :=
    step_active hr rfl
  rw [stepN_succ h1, stepN_succ h2, stepN_succ h3, stepN_one h4]
  simp [State.writeStart, State.writeCmd, State.writeAddr, State.clearStatus, State.iow8, setupWrites, State.stsPort,
    State.addrPort, State.cmdPort, State.ctlPort]

/-- A transaction from its completion wait to T_DONE is `finishRead`: one step for each event (R92 to R96). -/
theorem finish_run (s : State) (hr : s.rst = false) (ht : s.tphase = .cmpRead) (hc : s.cmpcnt = 0) :
    let r := finishRead s.cfg s.base [] s.io
    ∃ u, stepN r.events.length s = .next u ∧
      u = { s with
        result := r.data.getD s.result, outcome := r.outcome, sts := u.sts, tphase := .done
        cmpcnt := u.cmpcnt, io := r.src, trace := s.trace ++ r.events } := by
  intro r
  obtain ⟨w, hw, hwe⟩ := cmp_wait pollBudget s hr ht (by rw [hc, Nat.zero_add]) (by decide)
  have hr' : r = finishRead s.cfg s.base [] s.io := rfl
  clear_value r
  simp only [State.stsPort] at hw hwe
  unfold finishRead at hr'
  generalize waitFor (portAt s.base s.cfg.offSts) (fun v => errSet s.cfg v || intrSet s.cfg v) pollBudget s.io = q
    at hr' hw hwe
  cases hs : q.sample with
  | none =>
    simp only [hs, List.nil_append] at hr' hwe
    exact ⟨w, by rw [hr']; exact hw, by rw [hr']; simpa using hwe⟩
  | some v =>
    by_cases hev : errSet s.cfg v = true
    · simp only [hs, hev, if_true, List.nil_append] at hr' hwe
      exact ⟨w, by rw [hr']; exact hw, by rw [hr']; simpa using hwe⟩
    · simp only [hs, hev, List.nil_append] at hr' hwe
      have hwt : w.tphase = .data := by rw [hwe]; simp
      have hwr : w.rst = false := by rw [hwe]; exact hr
      have h5 : step w = .next w.readData := by
        rw [step_active hwr (by rw [hwt]; rfl)]; simp only [State.transport, hwt]
      refine ⟨w.readData, ?_, ?_⟩
      · rw [hr']
        simp only [Bool.false_eq_true, if_false, List.length_append, List.length_singleton]
        rw [stepN_add hw, stepN_one h5]
      · rw [hr']
        simp only [State.readData, State.ior8, State.answer, State.dat0Port]
        rw [hwe]; simp

/-- The events before the completion wait come before its own. -/
theorem finishRead_before (cfg : Params) (base : Port) (before : List Event) (src : Source) :
    finishRead cfg base before src =
      { finishRead cfg base [] src with events := before ++ (finishRead cfg base [] src).events } := by
  unfold finishRead
  simp only
  split
  · simp
  · split <;> simp

/-- A transaction from T_ARB_READ to T_DONE is `readByte`: one step for each event (R98). -/
theorem transaction_run (s : State) (hr : s.rst = false) (ht : s.tphase = .arbRead) (hc : s.arbcnt = 0)
    (hb : s.base ≠ 0#16) :
    let r := readByte s.cfg s.base s.slave s.offset s.io
    ∃ u, stepN r.events.length s = .next u ∧
      u = { s with
        result := r.data.getD s.result, outcome := r.outcome, sts := u.sts, tphase := .done, arbcnt := u.arbcnt
        cmpcnt := u.cmpcnt, io := r.src, trace := s.trace ++ r.events } := by
  intro r
  obtain ⟨u, hu, he, -⟩ := arb_wait pollBudget s hr ht (by rw [hc, Nat.zero_add]) (by decide)
  have hr' : r = readByte s.cfg s.base s.slave s.offset s.io := rfl
  clear_value r
  simp only [State.stsPort] at hu he
  unfold readByte at hr'
  rw [if_neg hb] at hr'
  cases hs : (waitFor (portAt s.base s.cfg.offSts) (fun v => !busySet s.cfg v) pollBudget s.io).sample with
  | none =>
    simp only [hs] at hr' he
    exact ⟨u, by rw [hr']; exact hu, by rw [hr', he]; simp⟩
  | some v0 =>
    simp only [hs] at hr' he
    rw [finishRead_before] at hr'
    have hut : u.tphase = .clear := by rw [he]; simp
    have hur : u.rst = false := by rw [he]; exact hr
    have h4 := setup_run u hur hut
    obtain ⟨w, hw, hwe⟩ := finish_run { u with
      trace := u.trace ++ setupWrites u.cfg u.base u.slave u.offset, cmpcnt := 0, tphase := .cmpRead } hur rfl rfl
    rw [he] at hw hwe
    simp only at hw hwe
    refine ⟨w, ?_, ?_⟩
    · rw [hr']
      simp only [List.length_append, Nat.add_assoc]
      rw [stepN_add hu, show (setupWrites s.cfg s.base s.slave s.offset).length = 4 from rfl, stepN_add h4, he]
      exact hw
    · rw [hr', hwe]; simp

/-- A wait of `n` iterations performs at most `2 n` events, and one event less where a sample ends it. -/
theorem waitFor_length (p : Port) (ends : Byte → Bool) (n : Nat) (src : Source) :
    (waitFor p ends n src).events.length ≤ 2 * n ∧
    ((waitFor p ends n src).sample.isSome → (waitFor p ends n src).events.length + 1 ≤ 2 * n) := by
  induction n generalizing src with
  | zero => simp [waitFor]
  | succ n ih =>
    unfold waitFor
    simp only
    split
    · simp; omega
    · have := ih (src.next Config.ioAnswer).2
      simp only [List.length_cons]
      exact ⟨by omega, fun h => by have := this.2 h; omega⟩

/-- The sample that ends a wait passes the test. -/
theorem waitFor_sample (p : Port) (ends : Byte → Bool) (n : Nat) (src : Source) (v : Byte)
    (h : (waitFor p ends n src).sample = some v) : ends v = true := by
  induction n generalizing src with
  | zero => simp [waitFor] at h
  | succ n ih =>
    unfold waitFor at h
    simp only at h
    split at h
    · rename_i h1; simp only [Option.some.injEq] at h; rw [← h]; exact h1
    · exact ih _ h

end Sys2Proof.Machine
end

