-- ==== Sys2Proof/Laws/Environment.lean ====
section
/-! SUPPORT. What follows from the premises of R47: the engine needs no answer but its two reads (E7), and a transaction
that ends with Success obtains the byte the device holds (E1 to E6). -/

namespace Sys2Proof.Machine

/-- Two registers at different offsets have different ports (R3, R42). -/
theorem portAt_inj {base : Port} {a b : Byte} (h : portAt base a = portAt base b) : a = b := by
  unfold portAt at h
  bv_omega

/-- A step of a pass with no transaction in progress needs no answer. -/
theorem pass_needs_no_answer {s t : State} {finish : State → State} (io : Source) (ha : s.tphase.active = false)
    (hf : finish { s with io := io } = { finish s with io := io }) (h : s.pass finish = .next t) :
    State.pass { s with io := io } finish = .next { t with io := io } := by
  unfold State.pass at h ⊢
  simp only [ha, Bool.false_eq_true, if_false] at h ⊢
  rcases tphase_of_not_active ha with ht | ht <;> cases hp : s.aphase <;>
    simp only [hp, State.passRead, ht] at h ⊢ <;>
    (repeat' split at h) <;> cases h <;>
    simp_all [State.startTransaction, State.takeHeaderByte, State.takeBodyByte, State.beginPass, State.nextSlot,
      State.classify, State.handOver, State.clearImages, State.updateImage] <;>
    (repeat' split) <;> simp_all

/-- A step of a command with no transaction in progress needs no answer. -/
theorem exec_needs_no_answer {i : Instr} {s t : State} (io : Source) (ha : s.tphase.active = false)
    (h : exec i s = .next t) : exec i { s with io := io } = .next { t with io := io } := by
  cases i with
  | setbase base => cases h; rfl
  | rdbyte slave offset =>
    rcases tphase_of_not_active ha with ht | ht <;> simp only [exec, execRdbyte, ht] at h ⊢ <;> cases h
    · unfold State.startTransaction; by_cases hb : s.base = 0#16 <;> simp [hb]
    · unfold State.respondByte; by_cases ho : s.outcome = .success <;> simp [ho, State.respond]
  | acqall =>
    exact pass_needs_no_answer io ha
      (by unfold State.respondPass; by_cases ho : s.outcome = .controllerNotFound <;> simp [ho, State.respond]) h
  | summ slot =>
    cases h
    have e : ∀ im : SpdImage, State.respondSummary { s with io := io } im = { s.respondSummary im with io := io } := by
      intro im; unfold State.respondSummary; by_cases hv : im.valid = true <;> simp [hv, State.respond]
    exact congrArg Host.Outcome.next (e (s.image slot))
  | ctla outLen =>
    simp only [exec, execCtla] at h ⊢
    split at h <;> cases h <;> simp_all [State.respondTiming, State.respond]
  | ctlb outLen =>
    simp only [exec, execCtlb] at h ⊢
    split at h
    · rw [if_pos ‹_›]
      exact pass_needs_no_answer io ha
        (by unfold State.respondImages; by_cases ho : s.outcome = .controllerNotFound <;> simp [ho, State.respond]) h
    · cases h; rw [if_neg ‹_›]; rfl

/-- A phase that reads no register needs no answer. -/
theorem transport_needs_no_answer (s : State) (io : Source) (ha : s.tphase ≠ .arbRead) (hc : s.tphase ≠ .cmpRead)
    (hd : s.tphase ≠ .data) : State.transport { s with io := io } = { s.transport with io := io } := by
  unfold State.transport
  cases ht : s.tphase with
  | arbStall => unfold State.arbStall; by_cases hn : s.arbcnt + 1 = pollBudget <;> simp [hn, State.stallEvent]
  | cmpStall => unfold State.cmpStall; by_cases hn : s.cmpcnt + 1 = pollBudget <;> simp [hn, State.stallEvent]
  | arbRead => exact absurd ht ha
  | cmpRead => exact absurd ht hc
  | data => exact absurd ht hd
  | idle => simp only [ht]
  | _ => rfl

/-- E7 (R47) holds of the engine. -/
theorem noCallback : NoCallback := by
  intro s t io h
  by_cases hr : s.rst = true
  · have e : t = s.resetEvent := by simpa [step, hr] using h.symm
    subst e
    have e : step { s with io := io } = .next { s.resetEvent with io := io } := by simp [step, hr, State.resetEvent]
    exact ⟨fun _ => e, fun _ => ⟨_, e, rfl⟩⟩
  simp only [Bool.not_eq_true] at hr
  by_cases ha : s.tphase.active = true
  · have e : t = s.transport := by simpa [step_active hr ha] using h.symm
    subst e
    have e : step { s with io := io } = .next (State.transport { s with io := io }) := step_active hr ha
    refine ⟨fun hp => ?_, fun hd => ⟨_, e, ?_⟩⟩
    · rcases hp with hp | ⟨h1, h2, h3⟩
      · rw [hr] at hp; cases hp
      · rw [e, transport_needs_no_answer s io h1 h2 h3]
    · simp only [State.transport, hd]; rfl
  simp only [Bool.not_eq_true] at ha
  refine ⟨fun _ => ?_, fun hd => by rw [hd] at ha; cases ha⟩
  have run : ∀ (w : Word) (s' : State), s'.tphase.active = false → runWord w s' = .next t →
      runWord w { s' with io := io } = .next { t with io := io } := by
    intro w s' ha' h'
    unfold runWord at h' ⊢
    split at h'
    · exact exec_needs_no_answer io ha' h'
    · cases h'; rfl
  by_cases hl : s.lock = true
  · rw [step_locked hr ha hl] at h
    rw [step_locked (s := { s with io := io }) hr ha hl]
    exact run _ s ha h
  simp only [Bool.not_eq_true] at hl
  obtain ho | ⟨w, rest, ho⟩ : s.offers = [] ∨ ∃ w rest, s.offers = w :: rest := by cases s.offers <;> simp
  · rw [step_nothing hr ha hl ho] at h
    rw [step_nothing (s := { s with io := io }) hr ha hl ho]
    cases h; rfl
  · rw [step_accepts hr ha hl ho] at h
    rw [step_accepts (s := { s with io := io }) hr ha hl ho]
    exact run w (s.accept w rest) ha h

/-- The register contract and the premises E1 to E6 together, of one record of exchanges. -/
structure Controlled (cfg : Params) (base : Port) (dev : Byte → Byte → Byte) (ex : List Exchange) : Prop where
  reads : ReadsAnswerRegisters cfg base ex
  writes : WritesLoadRegisters cfg base ex
  busy : BusyWhileOccupied cfg ex
  clears : WritingOneClears cfg base ex
  starts : StartBeginsARead cfg base ex
  ends : EndSetsItsBit cfg base ex
  data : CompletedDataIsTheByteRead dev ex
  only : OnlyTheEngineStarts cfg base ex

variable {cfg : Params} {base : Port} {dev : Byte → Byte → Byte} {x y : Exchange} {l : List Exchange}

theorem Controlled.tail (h : Controlled cfg base dev (x :: l)) : Controlled cfg base dev l where
  reads := fun z hz => h.reads z (List.mem_cons_of_mem _ hz)
  writes := ⟨fun z hz => h.writes.1 z (List.mem_cons_of_mem _ hz), h.writes.2.tail⟩
  busy := fun z hz => h.busy z (List.mem_cons_of_mem _ hz)
  clears := fun z hz => h.clears z (List.mem_cons_of_mem _ hz)
  starts := fun z hz => h.starts z (List.mem_cons_of_mem _ hz)
  ends := ⟨fun z hz => h.ends.1 z (List.mem_cons_of_mem _ hz), h.ends.2.tail⟩
  data := fun z hz => h.data z (List.mem_cons_of_mem _ hz)
  only := ⟨fun z hz => h.only.1 z (List.mem_cons_of_mem _ hz), h.only.2.tail⟩

/-- The error bit is one of the result bits. -/
theorem errSet_of_resultBits {c d : Controller} (h : d.resultBits cfg = c.resultBits cfg) :
    errSet cfg d.status = errSet cfg c.status := by
  have e : ∀ a : Controller, a.status &&& cfg.mErr = a.resultBits cfg &&& cfg.mErr := by
    intro a; unfold Controller.resultBits statusClear; ext k hk; simp; grind
  simp only [errSet, e, h]

/-- No result bit, no interrupt bit. -/
theorem intrSet_of_resultBits {c : Controller} (h : c.resultBits cfg = 0#8) : intrSet cfg c.status = false := by
  have e : c.status &&& cfg.mIntr = c.resultBits cfg &&& cfg.mIntr := by
    unfold Controller.resultBits statusClear; ext k hk; simp; grind
  simp [intrSet, e, h]

/-- The transaction at (a, c) from its start on: in flight with no result bit set yet, or over. -/
def Controller.Follows (cfg : Params) (a c : Byte) (k : Controller) : Prop :=
  (k.work = .running a c ∧ k.resultBits cfg = 0#8) ∨ k.work = .completed a c ∨
    (k.work = .failed a c ∧ errSet cfg k.status = true)

theorem Controlled.follows_gap (h : Controlled cfg base dev (x :: y :: l)) {a c : Byte}
    (hf : x.after.Follows cfg a c) : y.before.Follows cfg a c := by
  have ho := (List.isChain_cons_cons.mp h.only.2).1
  have he := (List.isChain_cons_cons.mp h.ends.2).1
  rcases ho with ho | ho
  · have hb := he.1 ho
    rcases hf with ⟨hw, hz⟩ | hw | ⟨hw, hz⟩
    · exact .inl ⟨ho.trans hw, hb.trans hz⟩
    · exact .inr (.inl (ho.trans hw))
    · exact .inr (.inr ⟨ho.trans hw, by rw [errSet_of_resultBits hb]; exact hz⟩)
  · have hb := he.2 ho
    obtain ⟨a', c', hr, hd⟩ := ho
    rcases hf with ⟨hw, hz⟩ | hw | ⟨hw, hz⟩ <;> rw [hw] at hr <;> cases hr
    rcases hd with hd | hd
    · exact .inr (.inl hd)
    · exact .inr (.inr ⟨hd, (hb a c).2 hd⟩)

/-- An event that writes neither the status nor the control register changes neither the work nor the result bits. -/
theorem Controlled.same (h : Controlled cfg base dev (x :: l)) (hs : x.event.writeTo (portAt base cfg.offSts) = none)
    (hc : x.event.writeTo (portAt base cfg.offCtl) = none) :
    x.after.work = x.before.work ∧ x.after.resultBits cfg = x.before.resultBits cfg :=
  ⟨h.only.1 x (List.mem_cons_self ..) hc, h.ends.1 x (List.mem_cons_self ..) hs⟩

theorem Controlled.follows_event (h : Controlled cfg base dev (x :: l))
    (hs : x.event.writeTo (portAt base cfg.offSts) = none) (hc : x.event.writeTo (portAt base cfg.offCtl) = none)
    {a c : Byte} (hf : x.before.Follows cfg a c) : x.after.Follows cfg a c := by
  obtain ⟨hw, hb⟩ := h.same hs hc
  simpa only [Controller.Follows, hw, hb, errSet_of_resultBits hb] using hf

/-- A gap with nothing in flight changes neither the work nor the result bits. -/
theorem Controlled.gap_idle (h : Controlled cfg base dev (x :: y :: l)) (hr : x.after.work.isRunning = false) :
    y.before.work = x.after.work ∧ y.before.resultBits cfg = x.after.resultBits cfg := by
  rcases (List.isChain_cons_cons.mp h.only.2).1 with ho | ⟨a, c, hw, -⟩
  · exact ⟨ho, (List.isChain_cons_cons.mp h.ends.2).1.1 ho⟩
  · rw [hw] at hr; cases hr

/-- After an arbitration wait that a sample ended nothing is in flight (E1). -/
theorem Controlled.after_arb (n : Nat) (src : Source) (rest : List Event) (v : Byte) (ex : List Exchange)
    (h : Controlled cfg base dev ex)
    (hs : (waitFor (portAt base cfg.offSts) (fun v => !busySet cfg v) n src).sample = some v)
    (he : ex.map Exchange.event = (waitFor (portAt base cfg.offSts) (fun v => !busySet cfg v) n src).events ++ rest) :
    ∃ x l, Controlled cfg base dev (x :: l) ∧ l.map Exchange.event = rest ∧ x.after.work.isRunning = false := by
  induction n generalizing src ex with
  | zero => simp [waitFor] at hs
  | succ n ih =>
    unfold waitFor at hs he
    simp only at hs he
    split at hs
    · rename_i hb
      simp only [hb, if_true, List.cons_append, List.nil_append, List.map_eq_cons_iff] at he
      obtain ⟨x, l, rfl, hx, hl⟩ := he
      refine ⟨x, l, h, hl, ?_⟩
      have hr := (h.reads x (List.mem_cons_self ..) (src.next Config.ioAnswer).1).1 (by rw [hx]; simp [Event.readFrom])
      have hw := (h.same (by rw [hx]; rfl) (by rw [hx]; rfl)).1
      rw [hw]
      by_contra hrun
      have := h.busy x (List.mem_cons_self ..) (by simpa using hrun)
      rw [← hr] at this
      simp [this] at hb
    · rename_i hb
      simp only [hb, Bool.false_eq_true, if_false, List.cons_append, List.map_eq_cons_iff] at he
      obtain ⟨x, _, rfl, -, y, l, rfl, -, hl⟩ := he
      exact ih _ _ h.tail.tail hs hl

/-- After a completion wait that a sample with the error bit clear ended the transaction is complete (E2, E4). -/
theorem Controlled.after_cmp (n : Nat) (src : Source) (rest : List Event) (v a c : Byte) (x : Exchange)
    (ex : List Exchange) (h : Controlled cfg base dev (x :: ex)) (hf : x.after.Follows cfg a c)
    (hs : (waitFor (portAt base cfg.offSts) (fun v => errSet cfg v || intrSet cfg v) n src).sample = some v)
    (hv : errSet cfg v = false)
    (he : ex.map Exchange.event =
      (waitFor (portAt base cfg.offSts) (fun v => errSet cfg v || intrSet cfg v) n src).events ++ rest) :
    ∃ y l, Controlled cfg base dev (y :: l) ∧ l.map Exchange.event = rest ∧ y.after.work = .completed a c := by
  induction n generalizing src ex x with
  | zero => simp [waitFor] at hs
  | succ n ih =>
    unfold waitFor at hs he
    simp only at hs he
    split at hs
    · rename_i hb
      simp only [hb, if_true, List.cons_append, List.nil_append, List.map_eq_cons_iff] at he
      obtain ⟨y, l, rfl, hy, hl⟩ := he
      refine ⟨y, l, h.tail, hl, ?_⟩
      have hr := (h.tail.reads y (List.mem_cons_self ..) (src.next Config.ioAnswer).1).1
        (by rw [hy]; simp [Event.readFrom])
      simp only [Option.some.injEq] at hs
      rw [hs] at hr hb
      rw [hv, Bool.false_or] at hb
      rw [(h.tail.same (by rw [hy]; rfl) (by rw [hy]; rfl)).1]
      rcases h.follows_gap hf with ⟨-, hz⟩ | hw | ⟨-, hz⟩
      · rw [hr, intrSet_of_resultBits hz] at hb; cases hb
      · exact hw
      · rw [← hr, hv] at hz; cases hz
    · rename_i hb
      simp only [hb, Bool.false_eq_true, if_false, List.cons_append, List.map_eq_cons_iff] at he
      obtain ⟨y, _, rfl, hy, z, l, rfl, hz, hl⟩ := he
      have hfy := h.tail.follows_event (by rw [hy]; rfl) (by rw [hy]; rfl) (h.follows_gap hf)
      have hfz := h.tail.tail.follows_event (by rw [hz]; rfl) (by rw [hz]; rfl) (h.tail.follows_gap hfy)
      exact ih _ _ _ h.tail.tail hfz hs hl

/-- After the four writes the transaction they name is in flight, with no result bit set (E2, E3, E6). -/
theorem Controlled.after_setup (hok : cfg.ok = true) (slave : SlaveAddr) (offset : Byte) (rest : List Event)
    (x : Exchange) (ex : List Exchange) (h : Controlled cfg base dev (x :: ex)) (hr : x.after.work.isRunning = false)
    (he : ex.map Exchange.event = setupWrites cfg base slave offset ++ rest) :
    ∃ y l, Controlled cfg base dev (y :: l) ∧ l.map Exchange.event = rest ∧
      y.after.Follows cfg (addrByte slave) offset := by
  simp only [setupWrites, List.cons_append, List.nil_append, List.map_eq_cons_iff] at he
  obtain ⟨p, _, rfl, hp, q, _, rfl, hq, u, _, rfl, hu, w, l, rfl, hw, hl⟩ := he
  have hd : cfg.offsets.Nodup := by
    simp only [Params.ok, Bool.and_eq_true, Params.offsetsDistinct, decide_eq_true_eq] at hok
    exact hok.1.1.1.1
  have hne : ∀ a b : Byte, a ≠ b → portAt base a ≠ portAt base b := fun a b hab hc => hab (portAt_inj hc)
  simp only [Params.offsets, List.nodup_cons, List.mem_cons, not_or, List.not_mem_nil, not_false_eq_true] at hd
  obtain ⟨⟨hsc, hsm, hsa, -, -, -⟩, ⟨hcm, hca, -, -, -⟩, ⟨hma, -, -, -⟩, -⟩ := hd
  have e := h.tail
  have g1 := h.gap_idle hr
  have hpw : p.after.work = p.before.work :=
    e.only.1 p (List.mem_cons_self ..) (by rw [hp]; simp [Event.writeTo, hne _ _ hsc])
  have hpb : p.after.resultBits cfg = 0#8 := by
    rw [e.clears p (List.mem_cons_self ..) (statusClear cfg) (by rw [hp]; simp [Event.writeTo])]
    unfold Controller.resultBits; ext k hk; simp
  have hpr : p.after.work.isRunning = false := by rw [hpw, g1.1]; exact hr
  have g2 := e.gap_idle hpr
  have eq := e.tail
  have hqs := eq.same (by rw [hq]; simp [Event.writeTo, Ne.symm (hne _ _ hsa)])
    (by rw [hq]; simp [Event.writeTo, Ne.symm (hne _ _ hca)])
  have hqr : q.after.work.isRunning = false := by rw [hqs.1, g2.1]; exact hpr
  have hqa : q.after.addr = addrByte slave := by
    rw [(eq.writes.1 q (List.mem_cons_self ..)).1, hq]; simp [Event.writeTo]
  have g3 := eq.gap_idle hqr
  have a3 := (List.isChain_cons_cons.mp eq.writes.2).1
  have eu := eq.tail
  have hus := eu.same (by rw [hu]; simp [Event.writeTo, Ne.symm (hne _ _ hsm)])
    (by rw [hu]; simp [Event.writeTo, Ne.symm (hne _ _ hcm)])
  have hur : u.after.work.isRunning = false := by rw [hus.1, g3.1]; exact hqr
  have hua := eu.writes.1 u (List.mem_cons_self ..)
  rw [hu] at hua
  simp only [Event.writeTo, hne _ _ hma, if_false, Option.getD_none, if_true, Option.getD_some] at hua
  have g4 := eu.gap_idle hur
  have a4 := (List.isChain_cons_cons.mp eu.writes.2).1
  have ew := eu.tail
  have hws := ew.starts w (List.mem_cons_self ..) (by rw [hw]; simp [Event.writeTo])
  have hwb := ew.ends.1 w (List.mem_cons_self ..) (by rw [hw]; simp [Event.writeTo, Ne.symm (hne _ _ hsc)])
  refine ⟨w, l, ew, hl, .inl ⟨?_, ?_⟩⟩
  · rw [hws, a4.1, a4.2, hua.1, hua.2, a3.1, hqa]
  · rw [hwb, g4.2, hus.2, g3.2, hqs.2, g2.2, hpb]

/-- A transaction that ends with Success obtains the byte the device holds. -/
theorem readByte_obtains_device_byte (hok : cfg.ok = true) (slave : SlaveAddr) (offset : Byte) (src : Source)
    (ex : List Exchange) (h : Controlled cfg base dev ex)
    (hs : (readByte cfg base slave offset src).outcome = .success)
    (he : ex.map Exchange.event = (readByte cfg base slave offset src).events) :
    (readByte cfg base slave offset src).data = some (dev (addrByte slave) offset) := by
  unfold readByte finishRead at *
  by_cases hb : base = 0#16
  · simp [hb] at hs
  simp only [hb, if_false] at hs he ⊢
  cases ha : (waitFor (portAt base cfg.offSts) (fun v => !busySet cfg v) pollBudget src).sample with
  | none => simp [ha] at hs
  | some v0 =>
    simp only [ha] at hs he ⊢
    generalize hq : waitFor (portAt base cfg.offSts) (fun v => errSet cfg v || intrSet cfg v) pollBudget
      (waitFor (portAt base cfg.offSts) (fun v => !busySet cfg v) pollBudget src).src = q at hs he ⊢
    cases hc : q.sample with
    | none => simp [hc] at hs
    | some v =>
      simp only [hc] at hs he ⊢
      cases hv : errSet cfg v with
      | true => simp [hv] at hs
      | false =>
        simp only [hv, Bool.false_eq_true, if_false, List.append_assoc] at he ⊢
        obtain ⟨x1, l1, h1, e1, r1⟩ := h.after_arb _ _ _ _ _ ha he
        obtain ⟨x2, l2, h2, e2, r2⟩ := h1.after_setup hok _ _ _ _ _ r1 e1
        rw [← hq] at e2 hc
        obtain ⟨x3, l3, h3, e3, r3⟩ := h2.after_cmp _ _ _ _ _ _ _ _ r2 hc hv e2
        simp only [List.map_eq_cons_iff, List.map_eq_nil_iff] at e3
        obtain ⟨x4, l4, rfl, hx4, rfl⟩ := e3
        have hw := (List.isChain_cons_cons.mp h3.only.2).1
        have hw4 : x4.before.work = .completed (addrByte slave) offset := by
          rcases hw with hw | ⟨a, c, hw, -⟩
          · rw [hw, r3]
          · rw [r3] at hw; cases hw
        rw [← h3.tail.data x4 (List.mem_cons_self ..) _ _ hw4, ← hq]
        exact congrArg some ((h3.tail.reads x4 (List.mem_cons_self ..) _).2 (by rw [hx4]; simp [Event.readFrom]))

end Sys2Proof.Machine
end

