-- ==== Sys2Proof/Laws/Memory.lean ====
section
/-! SUPPORT. The laws of byte memory: a write keeps the canonical form, is read back at its own address, and leaves every
other address alone. -/

namespace Sys2Proof.Machine

theorem Memory.wf_nil : Memory.wf [] := ⟨List.Pairwise.nil, by simp⟩

theorem Memory.wf_tail {c : Host.Cell} {m : Memory} (h : Memory.wf (c :: m)) : Memory.wf m :=
  ⟨(List.pairwise_cons.1 h.1).2, fun d hd => h.2 d (List.mem_cons_of_mem _ hd)⟩

theorem Memory.head_lt {c : Host.Cell} {m : Memory} (h : Memory.wf (c :: m)) : ∀ d ∈ m, c.1 < d.1 :=
  (List.pairwise_cons.1 h.1).1

/-- An address that is not listed reads as `unlisted`. -/
theorem Memory.read_of_not_listed {m : Memory} {a : Nat} (h : ∀ c ∈ m, c.1 ≠ a) : m.read a = Memory.unlisted := by
  induction m with
  | nil => rfl
  | cons c m ih =>
    simp only [Memory.read, if_neg (h c List.mem_cons_self)]
    exact ih fun d hd => h d (List.mem_cons_of_mem _ hd)

/-- A listed byte is what its address reads as. -/
theorem Memory.read_of_mem {m : Memory} (hw : m.wf) {c : Host.Cell} (h : c ∈ m) : m.read c.1 = c.2 := by
  induction m with
  | nil => simp at h
  | cons d m ih =>
    rcases List.mem_cons.1 h with rfl | h
    · simp [Memory.read]
    · have := Memory.head_lt hw c h
      simp only [Memory.read, if_neg (Nat.ne_of_lt this)]
      exact ih (Memory.wf_tail hw) h

theorem Memory.mem_put {a : Nat} {b : Byte} {m : Memory} {c : Host.Cell} (h : c ∈ Memory.put a b m) :
    c = (a, b) ∨ c ∈ m := by
  unfold Memory.put at h
  split at h
  · exact .inr h
  · exact List.mem_cons.1 h

/-- A cell of a written memory is the cell written or one that was there. -/
theorem Memory.mem_write {m : Memory} {a : Nat} {b : Byte} {c : Host.Cell} (h : c ∈ m.write a b) :
    c = (a, b) ∨ c ∈ m := by
  induction m with
  | nil => exact Memory.mem_put h
  | cons d m ih =>
    unfold Memory.write at h
    split at h
    · exact Memory.mem_put h
    · split at h
      · exact (Memory.mem_put h).imp_right (List.mem_cons_of_mem _)
      · rcases List.mem_cons.1 h with rfl | h
        · exact .inr List.mem_cons_self
        · exact (ih h).imp_right (List.mem_cons_of_mem _)

theorem Memory.wf_put {a : Nat} {b : Byte} {m : Memory} (hw : m.wf) (ha : ∀ c ∈ m, a < c.1) :
    (Memory.put a b m).wf := by
  unfold Memory.put
  split
  · exact hw
  · refine ⟨List.pairwise_cons.2 ⟨ha, hw.1⟩, fun c hc => ?_⟩
    rcases List.mem_cons.1 hc with rfl | hc
    · assumption
    · exact hw.2 c hc

/-- A write keeps the canonical form. -/
theorem Memory.wf_write {m : Memory} (hw : m.wf) (a : Nat) (b : Byte) : (m.write a b).wf := by
  induction m with
  | nil => exact Memory.wf_put hw (by simp)
  | cons d m ih =>
    have hd := Memory.head_lt hw
    unfold Memory.write
    split
    · refine Memory.wf_put hw fun c hc => ?_
      rcases List.mem_cons.1 hc with rfl | hc
      · assumption
      · exact Nat.lt_trans ‹_› (hd c hc)
    · split
      · rename_i h; subst h
        exact Memory.wf_put (Memory.wf_tail hw) hd
      · have ih := ih (Memory.wf_tail hw)
        refine ⟨List.pairwise_cons.2 ⟨fun c hc => ?_, ih.1⟩, fun c hc => ?_⟩
        · rcases Memory.mem_write hc with rfl | hc
          · show d.1 < a; omega
          · exact hd c hc
        · rcases List.mem_cons.1 hc with rfl | hc
          · exact hw.2 c List.mem_cons_self
          · exact ih.2 c hc

theorem Memory.read_put {a : Nat} {b : Byte} {m : Memory} (ha : ∀ c ∈ m, a < c.1) (x : Nat) :
    (Memory.put a b m).read x = if x = a then b else m.read x := by
  unfold Memory.put
  by_cases hb : b = Memory.unlisted
  · rw [if_pos hb]
    split
    · rename_i h; subst h
      rw [hb]; exact Memory.read_of_not_listed fun c hc => Nat.ne_of_gt (ha c hc)
    · rfl
  · rw [if_neg hb]
    simp only [Memory.read, eq_comm]

/-- A read after a write gives the byte written at its own address and the old byte at any other. -/
theorem Memory.read_write {m : Memory} (hw : m.wf) (a : Nat) (b : Byte) (x : Nat) :
    (m.write a b).read x = if x = a then b else m.read x := by
  induction m with
  | nil => exact Memory.read_put (by simp) x
  | cons d m ih =>
    have hd := Memory.head_lt hw
    unfold Memory.write
    split
    · refine Memory.read_put (fun c hc => ?_) x
      rcases List.mem_cons.1 hc with rfl | hc
      · assumption
      · exact Nat.lt_trans ‹_› (hd c hc)
    · split
      · rename_i h; subst h
        rw [Memory.read_put hd]
        split
        · rfl
        · rename_i hx
          simp only [Memory.read, if_neg (Ne.symm hx)]
      · rename_i h1 h2
        simp only [Memory.read, ih (Memory.wf_tail hw)]
        by_cases hx : d.1 = x
        · rw [if_pos hx, if_neg (by omega), if_pos hx]
        · simp only [if_neg hx]

theorem Memory.wf_writeFrom {m : Memory} (hw : m.wf) (o : Nat) (bs : List Byte) : (Memory.writeFrom m o bs).wf := by
  induction bs generalizing m o with
  | nil => exact hw
  | cons b bs ih => exact ih (Memory.wf_write hw o b) (o + 1)

/-- Bytes written one after another are read back in order, and every other address is left alone. -/
theorem Memory.read_writeFrom {m : Memory} (hw : m.wf) (o : Nat) (bs : List Byte) (x : Nat) :
    (Memory.writeFrom m o bs).read x = if o ≤ x then (bs[x - o]?).getD (m.read x) else m.read x := by
  induction bs generalizing m o with
  | nil => simp [Memory.writeFrom]
  | cons b bs ih =>
    simp only [Memory.writeFrom]
    rw [ih (Memory.wf_write hw o b) (o + 1), Memory.read_write hw]
    by_cases h1 : x = o
    · subst h1; simp
    · by_cases h2 : o ≤ x
      · obtain ⟨k, rfl⟩ : ∃ k, x = o + k + 1 := ⟨x - o - 1, by omega⟩
        rw [show o + k + 1 - (o + 1) = k by omega, show o + k + 1 - o = k + 1 by omega,
          if_pos (show o + 1 ≤ o + k + 1 by omega), if_pos (show o ≤ o + k + 1 by omega),
          if_neg (show ¬ o + k + 1 = o by omega)]
        simp
      · simp [h1, h2, show ¬ o + 1 ≤ x by omega]

/-- Writing one more byte after a run of bytes. -/
theorem Memory.writeFrom_append (m : Memory) (o : Nat) (bs : List Byte) (b : Byte) :
    Memory.writeFrom m o (bs ++ [b]) = (Memory.writeFrom m o bs).write (o + bs.length) b := by
  induction bs generalizing m o with
  | nil => rfl
  | cons c bs ih => simp only [List.cons_append, Memory.writeFrom, ih, List.length_cons]; congr 1; omega

end Sys2Proof.Machine
end

