-- ==== Sys2Proof/Laws/PerInstr.lean ====
section
/-! SUPPORT. Facts about every instruction, one lemma for each constructor. -/

namespace Sys2Proof.Laws

/-- The word of a command matches the command's row of the match/mask table (R61). -/
def EncodeMatchesItsRow.Statement (i : Instr) : Prop := i.row.accepts (encode i) = true

theorem EncodeMatchesItsRow.setbase (base : BitVec 16) : EncodeMatchesItsRow.Statement (.setbase base) := by
  show ((encode (.setbase base) &&& 0xFFFF0000#32) == 0x01000000#32) = true
  rw [beq_iff_eq]; ext k hk; interval_cases k <;> simp [encode]

theorem EncodeMatchesItsRow.rdbyte (slave : BitVec 7) (offset : BitVec 8) :
    EncodeMatchesItsRow.Statement (.rdbyte slave offset) := by
  show ((encode (.rdbyte slave offset) &&& 0xFFFF8000#32) == 0x02000000#32) = true
  rw [beq_iff_eq]; ext k hk; interval_cases k <;> simp [encode]

theorem EncodeMatchesItsRow.acqall : EncodeMatchesItsRow.Statement .acqall := rfl

theorem EncodeMatchesItsRow.summ (slot : BitVec 3) : EncodeMatchesItsRow.Statement (.summ slot) := by
  show ((encode (.summ slot) &&& 0xFFFFFFF8#32) == 0x04000000#32) = true
  rw [beq_iff_eq]; ext k hk; interval_cases k <;> simp [encode]

theorem EncodeMatchesItsRow.ctla (outLen : BitVec 24) : EncodeMatchesItsRow.Statement (.ctla outLen) := by
  show ((encode (.ctla outLen) &&& 0xFF000000#32) == 0x0A000000#32) = true
  rw [beq_iff_eq]; ext k hk; interval_cases k <;> simp [encode]

theorem EncodeMatchesItsRow.ctlb (outLen : BitVec 24) : EncodeMatchesItsRow.Statement (.ctlb outLen) := by
  show ((encode (.ctlb outLen) &&& 0xFF000000#32) == 0x0B000000#32) = true
  rw [beq_iff_eq]; ext k hk; interval_cases k <;> simp [encode]

end Sys2Proof.Laws
end

