-- ==== Sys2Proof/Laws/State.lean ====
section
/-! SUPPORT. One lemma per field per update: what each shared operation over State writes and what it leaves as it was. A
proof that needs a field of an updated state uses these by simp and unfolds no operation. -/

namespace Sys2Proof.Machine


-- ior8
@[simp] theorem State.ior8_cfg (s : State) (p : Port) : (s.ior8 p).cfg = s.cfg := rfl
@[simp] theorem State.ior8_base (s : State) (p : Port) : (s.ior8 p).base = s.base := rfl
@[simp] theorem State.ior8_slave (s : State) (p : Port) : (s.ior8 p).slave = s.slave := rfl
@[simp] theorem State.ior8_offset (s : State) (p : Port) : (s.ior8 p).offset = s.offset := rfl
@[simp] theorem State.ior8_result (s : State) (p : Port) : (s.ior8 p).result = s.result := rfl
@[simp] theorem State.ior8_outcome (s : State) (p : Port) : (s.ior8 p).outcome = s.outcome := rfl
@[simp] theorem State.ior8_sts (s : State) (p : Port) : (s.ior8 p).sts = s.sts := rfl
@[simp] theorem State.ior8_tphase (s : State) (p : Port) : (s.ior8 p).tphase = s.tphase := rfl
@[simp] theorem State.ior8_aphase (s : State) (p : Port) : (s.ior8 p).aphase = s.aphase := rfl
@[simp] theorem State.ior8_slot (s : State) (p : Port) : (s.ior8 p).slot = s.slot := rfl
@[simp] theorem State.ior8_idx (s : State) (p : Port) : (s.ior8 p).idx = s.idx := rfl
@[simp] theorem State.ior8_len (s : State) (p : Port) : (s.ior8 p).len = s.len := rfl
@[simp] theorem State.ior8_hdr (s : State) (p : Port) : (s.ior8 p).hdr = s.hdr := rfl
@[simp] theorem State.ior8_arbcnt (s : State) (p : Port) : (s.ior8 p).arbcnt = s.arbcnt := rfl
@[simp] theorem State.ior8_cmpcnt (s : State) (p : Port) : (s.ior8 p).cmpcnt = s.cmpcnt := rfl
@[simp] theorem State.ior8_lock (s : State) (p : Port) : (s.ior8 p).lock = s.lock := rfl
@[simp] theorem State.ior8_cmdw (s : State) (p : Port) : (s.ior8 p).cmdw = s.cmdw := rfl
@[simp] theorem State.ior8_img (s : State) (p : Port) : (s.ior8 p).img = s.img := rfl
@[simp] theorem State.ior8_offers (s : State) (p : Port) : (s.ior8 p).offers = s.offers := rfl
@[simp] theorem State.ior8_responses (s : State) (p : Port) : (s.ior8 p).responses = s.responses := rfl
@[simp] theorem State.ior8_outBuf (s : State) (p : Port) : (s.ior8 p).outBuf = s.outBuf := rfl
@[simp] theorem State.ior8_rst (s : State) (p : Port) : (s.ior8 p).rst = s.rst := rfl
@[simp] theorem State.ior8_io (s : State) (p : Port) : (s.ior8 p).io = (s.io.next Config.ioAnswer).2 := rfl
@[simp] theorem State.ior8_rtr (s : State) (p : Port) : (s.ior8 p).rtr = s.rtr := rfl
@[simp] theorem State.ior8_trace (s : State) (p : Port) : (s.ior8 p).trace = s.trace ++ [.ior8 p s.answer] := rfl

-- iow8
@[simp] theorem State.iow8_cfg (s : State) (p : Port) (v : Byte) : (s.iow8 p v).cfg = s.cfg := rfl
@[simp] theorem State.iow8_base (s : State) (p : Port) (v : Byte) : (s.iow8 p v).base = s.base := rfl
@[simp] theorem State.iow8_slave (s : State) (p : Port) (v : Byte) : (s.iow8 p v).slave = s.slave := rfl
@[simp] theorem State.iow8_offset (s : State) (p : Port) (v : Byte) : (s.iow8 p v).offset = s.offset := rfl
@[simp] theorem State.iow8_result (s : State) (p : Port) (v : Byte) : (s.iow8 p v).result = s.result := rfl
@[simp] theorem State.iow8_outcome (s : State) (p : Port) (v : Byte) : (s.iow8 p v).outcome = s.outcome := rfl
@[simp] theorem State.iow8_sts (s : State) (p : Port) (v : Byte) : (s.iow8 p v).sts = s.sts := rfl
@[simp] theorem State.iow8_tphase (s : State) (p : Port) (v : Byte) : (s.iow8 p v).tphase = s.tphase := rfl
@[simp] theorem State.iow8_aphase (s : State) (p : Port) (v : Byte) : (s.iow8 p v).aphase = s.aphase := rfl
@[simp] theorem State.iow8_slot (s : State) (p : Port) (v : Byte) : (s.iow8 p v).slot = s.slot := rfl
@[simp] theorem State.iow8_idx (s : State) (p : Port) (v : Byte) : (s.iow8 p v).idx = s.idx := rfl
@[simp] theorem State.iow8_len (s : State) (p : Port) (v : Byte) : (s.iow8 p v).len = s.len := rfl
@[simp] theorem State.iow8_hdr (s : State) (p : Port) (v : Byte) : (s.iow8 p v).hdr = s.hdr := rfl
@[simp] theorem State.iow8_arbcnt (s : State) (p : Port) (v : Byte) : (s.iow8 p v).arbcnt = s.arbcnt := rfl
@[simp] theorem State.iow8_cmpcnt (s : State) (p : Port) (v : Byte) : (s.iow8 p v).cmpcnt = s.cmpcnt := rfl
@[simp] theorem State.iow8_lock (s : State) (p : Port) (v : Byte) : (s.iow8 p v).lock = s.lock := rfl
@[simp] theorem State.iow8_cmdw (s : State) (p : Port) (v : Byte) : (s.iow8 p v).cmdw = s.cmdw := rfl
@[simp] theorem State.iow8_img (s : State) (p : Port) (v : Byte) : (s.iow8 p v).img = s.img := rfl
@[simp] theorem State.iow8_offers (s : State) (p : Port) (v : Byte) : (s.iow8 p v).offers = s.offers := rfl
@[simp] theorem State.iow8_responses (s : State) (p : Port) (v : Byte) : (s.iow8 p v).responses = s.responses := rfl
@[simp] theorem State.iow8_outBuf (s : State) (p : Port) (v : Byte) : (s.iow8 p v).outBuf = s.outBuf := rfl
@[simp] theorem State.iow8_rst (s : State) (p : Port) (v : Byte) : (s.iow8 p v).rst = s.rst := rfl
@[simp] theorem State.iow8_io (s : State) (p : Port) (v : Byte) : (s.iow8 p v).io = s.io := rfl
@[simp] theorem State.iow8_rtr (s : State) (p : Port) (v : Byte) : (s.iow8 p v).rtr = s.rtr := rfl
@[simp] theorem State.iow8_trace (s : State) (p : Port) (v : Byte) : (s.iow8 p v).trace = s.trace ++ [.iow8 p v] := rfl

-- stallEvent
@[simp] theorem State.stallEvent_cfg (s : State) : (s.stallEvent).cfg = s.cfg := rfl
@[simp] theorem State.stallEvent_base (s : State) : (s.stallEvent).base = s.base := rfl
@[simp] theorem State.stallEvent_slave (s : State) : (s.stallEvent).slave = s.slave := rfl
@[simp] theorem State.stallEvent_offset (s : State) : (s.stallEvent).offset = s.offset := rfl
@[simp] theorem State.stallEvent_result (s : State) : (s.stallEvent).result = s.result := rfl
@[simp] theorem State.stallEvent_outcome (s : State) : (s.stallEvent).outcome = s.outcome := rfl
@[simp] theorem State.stallEvent_sts (s : State) : (s.stallEvent).sts = s.sts := rfl
@[simp] theorem State.stallEvent_tphase (s : State) : (s.stallEvent).tphase = s.tphase := rfl
@[simp] theorem State.stallEvent_aphase (s : State) : (s.stallEvent).aphase = s.aphase := rfl
@[simp] theorem State.stallEvent_slot (s : State) : (s.stallEvent).slot = s.slot := rfl
@[simp] theorem State.stallEvent_idx (s : State) : (s.stallEvent).idx = s.idx := rfl
@[simp] theorem State.stallEvent_len (s : State) : (s.stallEvent).len = s.len := rfl
@[simp] theorem State.stallEvent_hdr (s : State) : (s.stallEvent).hdr = s.hdr := rfl
@[simp] theorem State.stallEvent_arbcnt (s : State) : (s.stallEvent).arbcnt = s.arbcnt := rfl
@[simp] theorem State.stallEvent_cmpcnt (s : State) : (s.stallEvent).cmpcnt = s.cmpcnt := rfl
@[simp] theorem State.stallEvent_lock (s : State) : (s.stallEvent).lock = s.lock := rfl
@[simp] theorem State.stallEvent_cmdw (s : State) : (s.stallEvent).cmdw = s.cmdw := rfl
@[simp] theorem State.stallEvent_img (s : State) : (s.stallEvent).img = s.img := rfl
@[simp] theorem State.stallEvent_offers (s : State) : (s.stallEvent).offers = s.offers := rfl
@[simp] theorem State.stallEvent_responses (s : State) : (s.stallEvent).responses = s.responses := rfl
@[simp] theorem State.stallEvent_outBuf (s : State) : (s.stallEvent).outBuf = s.outBuf := rfl
@[simp] theorem State.stallEvent_rst (s : State) : (s.stallEvent).rst = s.rst := rfl
@[simp] theorem State.stallEvent_io (s : State) : (s.stallEvent).io = s.io := rfl
@[simp] theorem State.stallEvent_rtr (s : State) : (s.stallEvent).rtr = s.rtr := rfl
@[simp] theorem State.stallEvent_trace (s : State) : (s.stallEvent).trace = s.trace ++ [.stall] := rfl

-- accept
@[simp] theorem State.accept_cfg (s : State) (w : Word) (rest : List Word) : (s.accept w rest).cfg = s.cfg := rfl
@[simp] theorem State.accept_base (s : State) (w : Word) (rest : List Word) : (s.accept w rest).base = s.base := rfl
@[simp] theorem State.accept_slave (s : State) (w : Word) (rest : List Word) : (s.accept w rest).slave = s.slave := rfl
@[simp] theorem State.accept_offset (s : State) (w : Word) (rest : List Word) : (s.accept w rest).offset = s.offset := rfl
@[simp] theorem State.accept_result (s : State) (w : Word) (rest : List Word) : (s.accept w rest).result = s.result := rfl
@[simp] theorem State.accept_outcome (s : State) (w : Word) (rest : List Word) : (s.accept w rest).outcome = s.outcome := rfl
@[simp] theorem State.accept_sts (s : State) (w : Word) (rest : List Word) : (s.accept w rest).sts = s.sts := rfl
@[simp] theorem State.accept_tphase (s : State) (w : Word) (rest : List Word) : (s.accept w rest).tphase = s.tphase := rfl
@[simp] theorem State.accept_aphase (s : State) (w : Word) (rest : List Word) : (s.accept w rest).aphase = s.aphase := rfl
@[simp] theorem State.accept_slot (s : State) (w : Word) (rest : List Word) : (s.accept w rest).slot = s.slot := rfl
@[simp] theorem State.accept_idx (s : State) (w : Word) (rest : List Word) : (s.accept w rest).idx = s.idx := rfl
@[simp] theorem State.accept_len (s : State) (w : Word) (rest : List Word) : (s.accept w rest).len = s.len := rfl
@[simp] theorem State.accept_hdr (s : State) (w : Word) (rest : List Word) : (s.accept w rest).hdr = s.hdr := rfl
@[simp] theorem State.accept_arbcnt (s : State) (w : Word) (rest : List Word) : (s.accept w rest).arbcnt = s.arbcnt := rfl
@[simp] theorem State.accept_cmpcnt (s : State) (w : Word) (rest : List Word) : (s.accept w rest).cmpcnt = s.cmpcnt := rfl
@[simp] theorem State.accept_lock (s : State) (w : Word) (rest : List Word) : (s.accept w rest).lock = true := rfl
@[simp] theorem State.accept_cmdw (s : State) (w : Word) (rest : List Word) : (s.accept w rest).cmdw = w := rfl
@[simp] theorem State.accept_img (s : State) (w : Word) (rest : List Word) : (s.accept w rest).img = s.img := rfl
@[simp] theorem State.accept_offers (s : State) (w : Word) (rest : List Word) : (s.accept w rest).offers = rest := rfl
@[simp] theorem State.accept_responses (s : State) (w : Word) (rest : List Word) : (s.accept w rest).responses = s.responses := rfl
@[simp] theorem State.accept_outBuf (s : State) (w : Word) (rest : List Word) : (s.accept w rest).outBuf = s.outBuf := rfl
@[simp] theorem State.accept_rst (s : State) (w : Word) (rest : List Word) : (s.accept w rest).rst = s.rst := rfl
@[simp] theorem State.accept_io (s : State) (w : Word) (rest : List Word) : (s.accept w rest).io = s.io := rfl
@[simp] theorem State.accept_rtr (s : State) (w : Word) (rest : List Word) : (s.accept w rest).rtr = s.rtr := rfl
@[simp] theorem State.accept_trace (s : State) (w : Word) (rest : List Word) : (s.accept w rest).trace = s.trace := rfl

-- respond
@[simp] theorem State.respond_cfg (s : State) (oc : OutcomeCode) (p : List Byte) : (s.respond oc p).cfg = s.cfg := rfl
@[simp] theorem State.respond_base (s : State) (oc : OutcomeCode) (p : List Byte) : (s.respond oc p).base = s.base := rfl
@[simp] theorem State.respond_slave (s : State) (oc : OutcomeCode) (p : List Byte) : (s.respond oc p).slave = s.slave := rfl
@[simp] theorem State.respond_offset (s : State) (oc : OutcomeCode) (p : List Byte) : (s.respond oc p).offset = s.offset := rfl
@[simp] theorem State.respond_result (s : State) (oc : OutcomeCode) (p : List Byte) : (s.respond oc p).result = s.result := rfl
@[simp] theorem State.respond_outcome (s : State) (oc : OutcomeCode) (p : List Byte) : (s.respond oc p).outcome = oc := rfl
@[simp] theorem State.respond_sts (s : State) (oc : OutcomeCode) (p : List Byte) : (s.respond oc p).sts = s.sts := rfl
@[simp] theorem State.respond_tphase (s : State) (oc : OutcomeCode) (p : List Byte) : (s.respond oc p).tphase = .idle := rfl
@[simp] theorem State.respond_aphase (s : State) (oc : OutcomeCode) (p : List Byte) : (s.respond oc p).aphase = .idle := rfl
@[simp] theorem State.respond_slot (s : State) (oc : OutcomeCode) (p : List Byte) : (s.respond oc p).slot = s.slot := rfl
@[simp] theorem State.respond_idx (s : State) (oc : OutcomeCode) (p : List Byte) : (s.respond oc p).idx = s.idx := rfl
@[simp] theorem State.respond_len (s : State) (oc : OutcomeCode) (p : List Byte) : (s.respond oc p).len = s.len := rfl
@[simp] theorem State.respond_hdr (s : State) (oc : OutcomeCode) (p : List Byte) : (s.respond oc p).hdr = s.hdr := rfl
@[simp] theorem State.respond_arbcnt (s : State) (oc : OutcomeCode) (p : List Byte) : (s.respond oc p).arbcnt = s.arbcnt := rfl
@[simp] theorem State.respond_cmpcnt (s : State) (oc : OutcomeCode) (p : List Byte) : (s.respond oc p).cmpcnt = s.cmpcnt := rfl
@[simp] theorem State.respond_lock (s : State) (oc : OutcomeCode) (p : List Byte) : (s.respond oc p).lock = false := rfl
@[simp] theorem State.respond_cmdw (s : State) (oc : OutcomeCode) (p : List Byte) : (s.respond oc p).cmdw = s.cmdw := rfl
@[simp] theorem State.respond_img (s : State) (oc : OutcomeCode) (p : List Byte) : (s.respond oc p).img = s.img := rfl
@[simp] theorem State.respond_offers (s : State) (oc : OutcomeCode) (p : List Byte) : (s.respond oc p).offers = s.offers := rfl
@[simp] theorem State.respond_responses (s : State) (oc : OutcomeCode) (p : List Byte) : (s.respond oc p).responses = s.responses ++ [⟨oc.code, p⟩] := rfl
@[simp] theorem State.respond_outBuf (s : State) (oc : OutcomeCode) (p : List Byte) : (s.respond oc p).outBuf = writePayload p s.outBuf := rfl
@[simp] theorem State.respond_rst (s : State) (oc : OutcomeCode) (p : List Byte) : (s.respond oc p).rst = s.rst := rfl
@[simp] theorem State.respond_io (s : State) (oc : OutcomeCode) (p : List Byte) : (s.respond oc p).io = s.io := rfl
@[simp] theorem State.respond_rtr (s : State) (oc : OutcomeCode) (p : List Byte) : (s.respond oc p).rtr = s.rtr := rfl
@[simp] theorem State.respond_trace (s : State) (oc : OutcomeCode) (p : List Byte) : (s.respond oc p).trace = s.trace := rfl

-- handOver
@[simp] theorem State.handOver_cfg (s : State) : (s.handOver).cfg = s.cfg := rfl
@[simp] theorem State.handOver_base (s : State) : (s.handOver).base = s.base := rfl
@[simp] theorem State.handOver_slave (s : State) : (s.handOver).slave = s.slave := rfl
@[simp] theorem State.handOver_offset (s : State) : (s.handOver).offset = s.offset := rfl
@[simp] theorem State.handOver_result (s : State) : (s.handOver).result = s.result := rfl
@[simp] theorem State.handOver_outcome (s : State) : (s.handOver).outcome = s.outcome := rfl
@[simp] theorem State.handOver_sts (s : State) : (s.handOver).sts = s.sts := rfl
@[simp] theorem State.handOver_tphase (s : State) : (s.handOver).tphase = .idle := rfl
@[simp] theorem State.handOver_aphase (s : State) : (s.handOver).aphase = s.aphase := rfl
@[simp] theorem State.handOver_slot (s : State) : (s.handOver).slot = s.slot := rfl
@[simp] theorem State.handOver_idx (s : State) : (s.handOver).idx = s.idx := rfl
@[simp] theorem State.handOver_len (s : State) : (s.handOver).len = s.len := rfl
@[simp] theorem State.handOver_hdr (s : State) : (s.handOver).hdr = s.hdr := rfl
@[simp] theorem State.handOver_arbcnt (s : State) : (s.handOver).arbcnt = s.arbcnt := rfl
@[simp] theorem State.handOver_cmpcnt (s : State) : (s.handOver).cmpcnt = s.cmpcnt := rfl
@[simp] theorem State.handOver_lock (s : State) : (s.handOver).lock = s.lock := rfl
@[simp] theorem State.handOver_cmdw (s : State) : (s.handOver).cmdw = s.cmdw := rfl
@[simp] theorem State.handOver_img (s : State) : (s.handOver).img = s.img := rfl
@[simp] theorem State.handOver_offers (s : State) : (s.handOver).offers = s.offers := rfl
@[simp] theorem State.handOver_responses (s : State) : (s.handOver).responses = s.responses := rfl
@[simp] theorem State.handOver_outBuf (s : State) : (s.handOver).outBuf = s.outBuf := rfl
@[simp] theorem State.handOver_rst (s : State) : (s.handOver).rst = s.rst := rfl
@[simp] theorem State.handOver_io (s : State) : (s.handOver).io = s.io := rfl
@[simp] theorem State.handOver_rtr (s : State) : (s.handOver).rtr = s.rtr := rfl
@[simp] theorem State.handOver_trace (s : State) : (s.handOver).trace = s.trace := rfl

-- clearImages
@[simp] theorem State.clearImages_cfg (s : State) : (s.clearImages).cfg = s.cfg := rfl
@[simp] theorem State.clearImages_base (s : State) : (s.clearImages).base = s.base := rfl
@[simp] theorem State.clearImages_slave (s : State) : (s.clearImages).slave = s.slave := rfl
@[simp] theorem State.clearImages_offset (s : State) : (s.clearImages).offset = s.offset := rfl
@[simp] theorem State.clearImages_result (s : State) : (s.clearImages).result = s.result := rfl
@[simp] theorem State.clearImages_outcome (s : State) : (s.clearImages).outcome = s.outcome := rfl
@[simp] theorem State.clearImages_sts (s : State) : (s.clearImages).sts = s.sts := rfl
@[simp] theorem State.clearImages_tphase (s : State) : (s.clearImages).tphase = s.tphase := rfl
@[simp] theorem State.clearImages_aphase (s : State) : (s.clearImages).aphase = s.aphase := rfl
@[simp] theorem State.clearImages_slot (s : State) : (s.clearImages).slot = s.slot := rfl
@[simp] theorem State.clearImages_idx (s : State) : (s.clearImages).idx = s.idx := rfl
@[simp] theorem State.clearImages_len (s : State) : (s.clearImages).len = s.len := rfl
@[simp] theorem State.clearImages_hdr (s : State) : (s.clearImages).hdr = s.hdr := rfl
@[simp] theorem State.clearImages_arbcnt (s : State) : (s.clearImages).arbcnt = s.arbcnt := rfl
@[simp] theorem State.clearImages_cmpcnt (s : State) : (s.clearImages).cmpcnt = s.cmpcnt := rfl
@[simp] theorem State.clearImages_lock (s : State) : (s.clearImages).lock = s.lock := rfl
@[simp] theorem State.clearImages_cmdw (s : State) : (s.clearImages).cmdw = s.cmdw := rfl
@[simp] theorem State.clearImages_img (s : State) : (s.clearImages).img = emptyImages := rfl
@[simp] theorem State.clearImages_offers (s : State) : (s.clearImages).offers = s.offers := rfl
@[simp] theorem State.clearImages_responses (s : State) : (s.clearImages).responses = s.responses := rfl
@[simp] theorem State.clearImages_outBuf (s : State) : (s.clearImages).outBuf = s.outBuf := rfl
@[simp] theorem State.clearImages_rst (s : State) : (s.clearImages).rst = s.rst := rfl
@[simp] theorem State.clearImages_io (s : State) : (s.clearImages).io = s.io := rfl
@[simp] theorem State.clearImages_rtr (s : State) : (s.clearImages).rtr = s.rtr := rfl
@[simp] theorem State.clearImages_trace (s : State) : (s.clearImages).trace = s.trace := rfl

-- updateImage
@[simp] theorem State.updateImage_cfg (s : State) (k : Nat) (f : SpdImage → SpdImage) : (s.updateImage k f).cfg = s.cfg := rfl
@[simp] theorem State.updateImage_base (s : State) (k : Nat) (f : SpdImage → SpdImage) : (s.updateImage k f).base = s.base := rfl
@[simp] theorem State.updateImage_slave (s : State) (k : Nat) (f : SpdImage → SpdImage) : (s.updateImage k f).slave = s.slave := rfl
@[simp] theorem State.updateImage_offset (s : State) (k : Nat) (f : SpdImage → SpdImage) : (s.updateImage k f).offset = s.offset := rfl
@[simp] theorem State.updateImage_result (s : State) (k : Nat) (f : SpdImage → SpdImage) : (s.updateImage k f).result = s.result := rfl
@[simp] theorem State.updateImage_outcome (s : State) (k : Nat) (f : SpdImage → SpdImage) : (s.updateImage k f).outcome = s.outcome := rfl
@[simp] theorem State.updateImage_sts (s : State) (k : Nat) (f : SpdImage → SpdImage) : (s.updateImage k f).sts = s.sts := rfl
@[simp] theorem State.updateImage_tphase (s : State) (k : Nat) (f : SpdImage → SpdImage) : (s.updateImage k f).tphase = s.tphase := rfl
@[simp] theorem State.updateImage_aphase (s : State) (k : Nat) (f : SpdImage → SpdImage) : (s.updateImage k f).aphase = s.aphase := rfl
@[simp] theorem State.updateImage_slot (s : State) (k : Nat) (f : SpdImage → SpdImage) : (s.updateImage k f).slot = s.slot := rfl
@[simp] theorem State.updateImage_idx (s : State) (k : Nat) (f : SpdImage → SpdImage) : (s.updateImage k f).idx = s.idx := rfl
@[simp] theorem State.updateImage_len (s : State) (k : Nat) (f : SpdImage → SpdImage) : (s.updateImage k f).len = s.len := rfl
@[simp] theorem State.updateImage_hdr (s : State) (k : Nat) (f : SpdImage → SpdImage) : (s.updateImage k f).hdr = s.hdr := rfl
@[simp] theorem State.updateImage_arbcnt (s : State) (k : Nat) (f : SpdImage → SpdImage) : (s.updateImage k f).arbcnt = s.arbcnt := rfl
@[simp] theorem State.updateImage_cmpcnt (s : State) (k : Nat) (f : SpdImage → SpdImage) : (s.updateImage k f).cmpcnt = s.cmpcnt := rfl
@[simp] theorem State.updateImage_lock (s : State) (k : Nat) (f : SpdImage → SpdImage) : (s.updateImage k f).lock = s.lock := rfl
@[simp] theorem State.updateImage_cmdw (s : State) (k : Nat) (f : SpdImage → SpdImage) : (s.updateImage k f).cmdw = s.cmdw := rfl
@[simp] theorem State.updateImage_offers (s : State) (k : Nat) (f : SpdImage → SpdImage) : (s.updateImage k f).offers = s.offers := rfl
@[simp] theorem State.updateImage_responses (s : State) (k : Nat) (f : SpdImage → SpdImage) : (s.updateImage k f).responses = s.responses := rfl
@[simp] theorem State.updateImage_outBuf (s : State) (k : Nat) (f : SpdImage → SpdImage) : (s.updateImage k f).outBuf = s.outBuf := rfl
@[simp] theorem State.updateImage_rst (s : State) (k : Nat) (f : SpdImage → SpdImage) : (s.updateImage k f).rst = s.rst := rfl
@[simp] theorem State.updateImage_io (s : State) (k : Nat) (f : SpdImage → SpdImage) : (s.updateImage k f).io = s.io := rfl
@[simp] theorem State.updateImage_rtr (s : State) (k : Nat) (f : SpdImage → SpdImage) : (s.updateImage k f).rtr = s.rtr := rfl
@[simp] theorem State.updateImage_trace (s : State) (k : Nat) (f : SpdImage → SpdImage) : (s.updateImage k f).trace = s.trace := rfl

-- startTransaction
@[simp] theorem State.startTransaction_cfg (s : State) (a : SlaveAddr) (o : Byte) : (s.startTransaction a o).cfg = s.cfg := by
  unfold State.startTransaction; split <;> rfl
@[simp] theorem State.startTransaction_base (s : State) (a : SlaveAddr) (o : Byte) : (s.startTransaction a o).base = s.base := by
  unfold State.startTransaction; split <;> rfl
@[simp] theorem State.startTransaction_result (s : State) (a : SlaveAddr) (o : Byte) : (s.startTransaction a o).result = s.result := by
  unfold State.startTransaction; split <;> rfl
@[simp] theorem State.startTransaction_sts (s : State) (a : SlaveAddr) (o : Byte) : (s.startTransaction a o).sts = s.sts := by
  unfold State.startTransaction; split <;> rfl
@[simp] theorem State.startTransaction_aphase (s : State) (a : SlaveAddr) (o : Byte) : (s.startTransaction a o).aphase = s.aphase := by
  unfold State.startTransaction; split <;> rfl
@[simp] theorem State.startTransaction_slot (s : State) (a : SlaveAddr) (o : Byte) : (s.startTransaction a o).slot = s.slot := by
  unfold State.startTransaction; split <;> rfl
@[simp] theorem State.startTransaction_idx (s : State) (a : SlaveAddr) (o : Byte) : (s.startTransaction a o).idx = s.idx := by
  unfold State.startTransaction; split <;> rfl
@[simp] theorem State.startTransaction_len (s : State) (a : SlaveAddr) (o : Byte) : (s.startTransaction a o).len = s.len := by
  unfold State.startTransaction; split <;> rfl
@[simp] theorem State.startTransaction_hdr (s : State) (a : SlaveAddr) (o : Byte) : (s.startTransaction a o).hdr = s.hdr := by
  unfold State.startTransaction; split <;> rfl
@[simp] theorem State.startTransaction_cmpcnt (s : State) (a : SlaveAddr) (o : Byte) : (s.startTransaction a o).cmpcnt = s.cmpcnt := by
  unfold State.startTransaction; split <;> rfl
@[simp] theorem State.startTransaction_lock (s : State) (a : SlaveAddr) (o : Byte) : (s.startTransaction a o).lock = s.lock := by
  unfold State.startTransaction; split <;> rfl
@[simp] theorem State.startTransaction_cmdw (s : State) (a : SlaveAddr) (o : Byte) : (s.startTransaction a o).cmdw = s.cmdw := by
  unfold State.startTransaction; split <;> rfl
@[simp] theorem State.startTransaction_img (s : State) (a : SlaveAddr) (o : Byte) : (s.startTransaction a o).img = s.img := by
  unfold State.startTransaction; split <;> rfl
@[simp] theorem State.startTransaction_offers (s : State) (a : SlaveAddr) (o : Byte) : (s.startTransaction a o).offers = s.offers := by
  unfold State.startTransaction; split <;> rfl
@[simp] theorem State.startTransaction_responses (s : State) (a : SlaveAddr) (o : Byte) : (s.startTransaction a o).responses = s.responses := by
  unfold State.startTransaction; split <;> rfl
@[simp] theorem State.startTransaction_outBuf (s : State) (a : SlaveAddr) (o : Byte) : (s.startTransaction a o).outBuf = s.outBuf := by
  unfold State.startTransaction; split <;> rfl
@[simp] theorem State.startTransaction_rst (s : State) (a : SlaveAddr) (o : Byte) : (s.startTransaction a o).rst = s.rst := by
  unfold State.startTransaction; split <;> rfl
@[simp] theorem State.startTransaction_io (s : State) (a : SlaveAddr) (o : Byte) : (s.startTransaction a o).io = s.io := by
  unfold State.startTransaction; split <;> rfl
@[simp] theorem State.startTransaction_rtr (s : State) (a : SlaveAddr) (o : Byte) : (s.startTransaction a o).rtr = s.rtr := by
  unfold State.startTransaction; split <;> rfl
@[simp] theorem State.startTransaction_trace (s : State) (a : SlaveAddr) (o : Byte) : (s.startTransaction a o).trace = s.trace := by
  unfold State.startTransaction; split <;> rfl

theorem State.startTransaction_slave (s : State) (a : SlaveAddr) (o : Byte) : (s.startTransaction a o).slave = a := by
  unfold State.startTransaction; split <;> rfl
theorem State.startTransaction_offset (s : State) (a : SlaveAddr) (o : Byte) : (s.startTransaction a o).offset = o := by
  unfold State.startTransaction; split <;> rfl

/-- The start of a transaction with a resolved base (R84). -/
theorem State.startTransaction_resolved {s : State} (h : s.base ≠ 0#16) (a : SlaveAddr) (o : Byte) :
    s.startTransaction a o = { s with slave := a, offset := o, arbcnt := 0, tphase := .arbRead } := by
  simp [State.startTransaction, h]

/-- The start of a transaction with an unresolved base (R84). -/
theorem State.startTransaction_unresolved {s : State} (h : s.base = 0#16) (a : SlaveAddr) (o : Byte) :
    s.startTransaction a o =
      { s with slave := a, offset := o, outcome := .controllerNotFound, tphase := .done } := by
  simp [State.startTransaction, h]

/-- A transport step writes nothing but the transaction registers, the counters and TPHASE (R97, R100). -/
theorem State.transport_frame (s : State) :
    s.transport = { s with
      result := s.transport.result, outcome := s.transport.outcome, sts := s.transport.sts,
      tphase := s.transport.tphase, arbcnt := s.transport.arbcnt, cmpcnt := s.transport.cmpcnt,
      io := s.transport.io, trace := s.transport.trace } := by
  cases ht : s.tphase <;>
    simp only [State.transport, ht, State.arbRead, State.arbStall, State.clearStatus, State.writeAddr, State.writeCmd,
      State.writeStart, State.cmpRead, State.cmpStall, State.readData, State.ior8, State.iow8, State.stallEvent,
      State.handOver] <;> (try split) <;> first | rfl | (rw [← ht])


-- transport: the fields it never writes
@[simp] theorem State.transport_cfg (s : State) : s.transport.cfg = s.cfg :=
  (congrArg State.cfg s.transport_frame).trans rfl
@[simp] theorem State.transport_base (s : State) : s.transport.base = s.base :=
  (congrArg State.base s.transport_frame).trans rfl
@[simp] theorem State.transport_slave (s : State) : s.transport.slave = s.slave :=
  (congrArg State.slave s.transport_frame).trans rfl
@[simp] theorem State.transport_offset (s : State) : s.transport.offset = s.offset :=
  (congrArg State.offset s.transport_frame).trans rfl
@[simp] theorem State.transport_aphase (s : State) : s.transport.aphase = s.aphase :=
  (congrArg State.aphase s.transport_frame).trans rfl
@[simp] theorem State.transport_slot (s : State) : s.transport.slot = s.slot :=
  (congrArg State.slot s.transport_frame).trans rfl
@[simp] theorem State.transport_idx (s : State) : s.transport.idx = s.idx :=
  (congrArg State.idx s.transport_frame).trans rfl
@[simp] theorem State.transport_len (s : State) : s.transport.len = s.len :=
  (congrArg State.len s.transport_frame).trans rfl
@[simp] theorem State.transport_hdr (s : State) : s.transport.hdr = s.hdr :=
  (congrArg State.hdr s.transport_frame).trans rfl
@[simp] theorem State.transport_lock (s : State) : s.transport.lock = s.lock :=
  (congrArg State.lock s.transport_frame).trans rfl
@[simp] theorem State.transport_cmdw (s : State) : s.transport.cmdw = s.cmdw :=
  (congrArg State.cmdw s.transport_frame).trans rfl
@[simp] theorem State.transport_img (s : State) : s.transport.img = s.img :=
  (congrArg State.img s.transport_frame).trans rfl
@[simp] theorem State.transport_offers (s : State) : s.transport.offers = s.offers :=
  (congrArg State.offers s.transport_frame).trans rfl
@[simp] theorem State.transport_responses (s : State) : s.transport.responses = s.responses :=
  (congrArg State.responses s.transport_frame).trans rfl
@[simp] theorem State.transport_outBuf (s : State) : s.transport.outBuf = s.outBuf :=
  (congrArg State.outBuf s.transport_frame).trans rfl
@[simp] theorem State.transport_rst (s : State) : s.transport.rst = s.rst :=
  (congrArg State.rst s.transport_frame).trans rfl
@[simp] theorem State.transport_rtr (s : State) : s.transport.rtr = s.rtr :=
  (congrArg State.rtr s.transport_frame).trans rfl

-- the commands' responses, as one call of `respond`

/-- The response of RDBYTE (R101). -/
theorem State.respondByte_eq (s : State) :
    s.respondByte = s.respond s.outcome (if s.outcome = .success then [s.result] else []) := by
  unfold State.respondByte; split <;> simp_all

/-- The response of ACQALL (R127). -/
theorem State.respondPass_eq (s : State) :
    s.respondPass = s.respond (if s.outcome = .controllerNotFound then .controllerNotFound else .success) [] := by
  unfold State.respondPass; split <;> simp_all

/-- The response of CTLB (R164). -/
theorem State.respondImages_eq (s : State) :
    s.respondImages = s.respond (if s.outcome = .controllerNotFound then .controllerNotFound else .success)
      (if s.outcome = .controllerNotFound then [] else imagesPayload s.img) := by
  unfold State.respondImages; split <;> simp_all

/-- The response of SUMM (R140). -/
theorem State.respondSummary_eq (s : State) (im : SpdImage) :
    s.respondSummary im = s.respond (if im.valid then .success else .invalidImage)
      (if im.valid then (summarize im).bytes else []) := by
  unfold State.respondSummary; split <;> simp_all

/-- The record of another slot is unchanged by a write to a record. -/
theorem State.updateImage_other (s : State) (k : Nat) (f : SpdImage → SpdImage) (j : Fin 8) (h : j.val ≠ k) :
    (s.updateImage k f).img[j] = s.img[j] := by
  unfold State.updateImage
  split
  · simp [Ne.symm h]
  · rfl

/-- The record that a write to a record writes. -/
theorem State.updateImage_same (s : State) (k : Nat) (f : SpdImage → SpdImage) (j : Fin 8) (h : j.val = k) :
    (s.updateImage k f).img[j] = f s.img[j] := by
  subst h
  unfold State.updateImage
  simp

/-- Each record of the cleared file is the empty record of its slot (R111). -/
theorem emptyImages_get (j : Fin 8) : emptyImages[j] = emptyImage (BitVec.ofNat 3 j.val) := by
  fin_cases j <;> rfl

end Sys2Proof.Machine
end

