-- ==== Sys2Proof/Tests/Slice0.lean ====
section
/-! SUPPORT. The model's own tests. Expected results are those of spec/95_test_vectors.md (the vector is named) or words
written out from the encoding of R61; the witnesses show that the hypotheses of each statement can be met together, at
the boundary values of its clauses. -/

namespace Sys2Proof.Tests

open Sys2Proof Sys2Proof.Machine

/-! ### Small states -/

/-- The parameter values of the spec's vectors (R3, the column "default"), with RTR_SIZE = 40 (vector C8). -/
def gk : Params where
  offSts := 0x00#8
  offCtl := 0x02#8
  offCmd := 0x03#8
  offAddr := 0x04#8
  offDat0 := 0x05#8
  offDat1 := 0x06#8
  mBusy := 0x01#8
  mIntr := 0x02#8
  mErr := 0x04#8
  opcRead := 0x48#8
  rtrSize := 40

/-- The idle engine with a base address. -/
def idleAt (base : Port) : State := { State.reset with cfg := gk, base := base }

/-- The idle engine with a word offered. -/
def offered (w : Word) : State := { idleAt 0xF000#16 with offers := [w] }

/-- RDBYTE 0x50, 0x02 in progress, in a phase, with the answers still to come. -/
def busAt (ph : TPhase) (answers : List Byte) : State :=
  { idleAt 0xF000#16 with
    lock := true, cmdw := 0x02005002#32, slave := 0x50#7, offset := 0x02#8, tphase := ph, io := ⟨answers, 0⟩ }

/-- ACQALL in progress, in a phase. -/
def passAt (ph : APhase) (slot idx len : Nat) : State :=
  { idleAt 0xF000#16 with lock := true, cmdw := 0x03000000#32, aphase := ph, slot := slot, idx := idx, len := len }

/-- The same with a byte read of the pass over. -/
def passByte (ph : APhase) (slot idx len : Nat) (oc : OutcomeCode) : State :=
  { passAt ph slot idx len with
    tphase := .done, outcome := oc, result := 0x0C#8, slave := slotSlave slot, offset := idxByte idx }

/-- IMG[0] of vector A2, at the offsets the decoder reads (vector D14). -/
def imageD14 : SpdImage where
  slotIndex := 0#3
  bytes := [(0, 0x23#8), (1, 0x11#8), (2, 0x0C#8), (3, 0x02#8), (4, 0x19#8), (18, 0x16#8), (20, 0x16#8), (22, 0x16#8),
    (24, 0x34#8), (320, 0x80#8), (321, 0xAD#8)]
  length := 512
  valid := true

/-- The idle engine with that image in slot 0. -/
def withImage : State := { idleAt 0xF000#16 with img := emptyImages.set 0 imageD14 }

/-- The next state, if there is one. -/
def after (o : Host.Outcome State Fault Refusal) : Option State :=
  match o with
  | .next s => some s
  | .fault _ => none
  | .refused _ => none

/-! ### Well-formedness: an ill-formed term for each check -/

theorem test_params_gk_wellFormed : gk.wellFormed = true := by decide
theorem test_params_offsets_equal : { gk with offDat0 := 0x04#8 }.offsetsDistinct = false ∧
    { gk with offDat0 := 0x04#8 }.wellFormed = false := by decide
theorem test_params_offset_large : { gk with offDat1 := 0x20#8 }.offsetsSmall = false ∧
    { gk with offDat1 := 0x20#8 }.wellFormed = false := by decide
theorem test_params_mask_zero : { gk with mErr := 0#8 }.masksNonzero = false ∧
    { gk with mErr := 0#8 }.wellFormed = false := by decide
theorem test_params_masks_overlap : { gk with mErr := 0x06#8 }.masksDisjoint = false ∧
    { gk with mErr := 0x06#8 }.wellFormed = false := by decide
theorem test_params_rtr_zero : { gk with rtrSize := 0 }.rtrSizeLegal = false ∧
    { gk with rtrSize := 0 }.wellFormed = false := by decide
theorem test_params_rtr_large : { gk with rtrSize := 2 ^ 24 }.rtrSizeLegal = false ∧
    { gk with rtrSize := 2 ^ 24 }.wellFormed = false := by decide

/-! ### Decoding: words written out bit by bit from R61 -/

theorem test_decode_setbase : decode 0b00000001000000001111000000000000#32 = .ok (.setbase 0xF000#16) := by decide
theorem test_decode_rdbyte : decode 0b00000010000000000101011100010000#32 = .ok (.rdbyte 0x57#7 0x10#8) := by decide
theorem test_decode_rdbyte_high : decode 0b00000010000000000111111100000000#32 = .ok (.rdbyte 0x7F#7 0x00#8) := by decide
theorem test_decode_acqall : decode 0b00000011000000000000000000000000#32 = .ok .acqall := by decide
theorem test_decode_summ : decode 0b00000100000000000000000000000110#32 = .ok (.summ 6#3) := by decide
theorem test_decode_ctla : decode 0b00001010000000000000000000101000#32 = .ok (.ctla 40#24) := by decide
theorem test_decode_ctlb : decode 0b00001011000000000001000000100000#32 = .ok (.ctlb 4128#24) := by decide

/-- The bytes on the little-endian command port (D2): the opcode is the last of the four. -/
theorem test_decode_bytes : decodeBytes [0x02#8, 0x50#8, 0x00#8, 0x02#8] = .ok (.rdbyte 0x50#7 0x02#8, []) := by decide
theorem test_decode_bytes_short : decodeBytes [0x02#8, 0x50#8, 0x00#8] = .error .truncated := by decide
theorem test_encode_words : [encode (.setbase 0xF000#16), encode (.rdbyte 0x50#7 0x02#8), encode .acqall, encode (.summ 7#3),
    encode (.ctla 39#24), encode (.ctlb 4129#24)] =
    [0x0100F000#32, 0x02005002#32, 0x03000000#32, 0x04000007#32, 0x0A000027#32, 0x0B001021#32] := by decide

/-- Vector C2: words with an opcode that is no command's. -/
theorem test_decode_unrecognised : [0x7F000000#32, 0x00000000#32, 0xFFFFFFFF#32, 0x05000000#32, 0x09000000#32,
    0x0C000000#32].map decode = [.error (.unknownOpcode 0x7F#8), .error (.unknownOpcode 0x00#8),
    .error (.unknownOpcode 0xFF#8), .error (.unknownOpcode 0x05#8), .error (.unknownOpcode 0x09#8),
    .error (.unknownOpcode 0x0C#8)] := by decide

/-- Vector C3: words with a command's opcode and a reserved bit set. -/
theorem test_decode_reserved : [0x01010000#32, 0x02008000#32, 0x03000001#32, 0x04000008#32].map decode =
    [.error (.reservedBits 0x01#8), .error (.reservedBits 0x02#8), .error (.reservedBits 0x03#8),
     .error (.reservedBits 0x04#8)] := by decide

/-- Vectors C2 and C3: such words match no row of the table. -/
theorem test_isCommandWord : [0x7F000000#32, 0x01010000#32, 0x02008000#32, 0x03000001#32, 0x04000008#32,
    0x02005002#32].map isCommandWord = [false, false, false, false, false, true] := by decide

/-! ### One step of each command -/

/-- Vector C4. -/
theorem test_setbase : (after (step (offered 0x0100FFFF#32))).map (fun t => (t.base, t.responses, t.lock, t.trace)) =
    some (0xFFFF#16, [⟨0#8, []⟩], false, []) := by decide

/-- Vector T7: BASE = 0, no event. -/
theorem test_rdbyte_base_zero : (after (exec (.rdbyte 0x50#7 0#8) (idleAt 0#16))).map (fun t => (t.tphase, t.outcome, t.trace)) =
    some (.done, .controllerNotFound, []) := by decide

/-- Vector T5: error and interrupt in one sample, error wins. -/
theorem test_rdbyte_error_wins : (after (step (busAt .cmpRead [0x06#8]))).map (fun t => (t.tphase, t.outcome, t.trace)) =
    some (.done, .transactionError, [.ior8 0xF000#16 0x06#8]) := by decide

/-- Vector T13: the address port wraps, and slave 0x57 gives address byte 0xAF. -/
theorem test_transport_port_wrap :
    (after (step { busAt .addr [] with base := 0xFFFE#16, slave := 0x57#7 })).map (·.trace) =
    some [.iow8 0x0002#16 0xAF#8] := by decide

/-- Vector A9: a pass with BASE = 0 clears the file. -/
theorem test_acqall_base_zero_clears : (after (exec .acqall { withImage with base := 0#16, aphase := .clear })).map
    (fun t => (t.img[0], t.aphase, t.outcome)) = some (emptyImage 0#3, .done, .controllerNotFound) := by decide

/-- Vector A10: the marker 0x12 selects 256 bytes. -/
theorem test_acqall_marker_12 : (after (step { passAt .classify 7 3 0 with hdr := #v[0#8, 0#8, 0x12#8, 0#8] })).map
    (fun t => (t.len, t.img[7].length, t.idx, t.aphase)) = some (256, 256, 0, .body) := by decide

/-- Vector D14: the 24 bytes of a full summary. -/
theorem test_summ_full : (after (exec (.summ 0#3) withImage)).map (·.responses) =
    some [⟨0#8, [0x04#8, 0x0C#8, 0x01#8, 0x03#8, 0x00#8, 0x10#8, 0#8, 0#8, 0#8, 0#8, 0#8, 0#8, 0x01#8, 0x80#8, 0xAD#8, 0#8,
      0x16#8, 0#8, 0x16#8, 0#8, 0x16#8, 0#8, 0x34#8, 0#8]⟩] := by decide

/-- Vector C5: a record that is not valid. -/
theorem test_summ_invalid : (after (step (offered 0x04000007#32))).map (fun t => (t.responses, t.lock)) =
    some ([⟨6#8, []⟩], false) := by decide

/-- Vector C8: the bytes of the timing source, unchanged. -/
theorem test_ctla : (after (exec (.ctla 40#24) { idleAt 0#16 with rtr := ⟨List.replicate 40 0xAB#8, 0⟩ })).map (·.responses) =
    some [⟨0#8, List.replicate 40 0xAB#8⟩] := by decide

/-- Vector C8: one byte too many. -/
theorem test_ctla_oversized : (after (step (offered 0x0A000029#32))).map (fun t => (t.responses, t.rtr.count)) =
    some ([⟨4#8, []⟩], 0) := by decide

/-- Vector C1: a wrong size leaves the image file as it is. -/
theorem test_ctlb_wrong_size : (after (step { withImage with offers := [0x0B00101F#32] })).map
    (fun t => (t.responses, t.img[0].valid)) = some ([⟨4#8, []⟩], true) := by decide

/-- Vector C7: the response after a pass with BASE = 0. -/
theorem test_ctlb_base_zero : (after (exec (.ctlb 4128#24)
    { passAt .done 0 0 0 with base := 0#16, outcome := .controllerNotFound })).map (·.responses) =
    some [⟨1#8, []⟩] := by decide

/-- Vector D8: the manufacturer bytes of a record of length 256 are not read. -/
theorem test_summarize_short : (summarize { imageD14 with length := 256 }).mfgSpecified = false ∧
    (summarize { imageD14 with length := 256 }).mfg0 = 0#8 := by decide

/-- Vector D15: a dump row. -/
theorem test_dump_row : ({ imageD14 with
    bytes := [(0, 0x23#8), (1, 0x11#8), (2, 0x0C#8), (3, 0x02#8), (4, 0x19#8), (6, 0x41#8), (7, 0x42#8), (8, 0x7E#8),
      (9, 0x7F#8), (10, 0x20#8), (11, 0x1F#8), (12, 0x80#8), (13, 0xFF#8), (14, 0x30#8), (15, 0x39#8)] } : SpdImage).dumpRow 0 =
    "0000: 23 11 0C 02 19 00 41 42 7E 7F 20 1F 80 FF 30 39  #.....AB~. ...09\n".toList := by decide

/-! ### Byte memory -/

theorem test_memory_write_keeps_order : Memory.write [(1, 7#8), (5, 8#8)] 3 9#8 = [(1, 7#8), (3, 9#8), (5, 8#8)] := by decide
theorem test_memory_write_zero_removes : Memory.write [(1, 7#8), (5, 8#8)] 5 0#8 = [(1, 7#8)] := by decide

/-! ### Witnesses: the hypotheses of each statement met together -/

theorem witness_EncodeOfDecodedWordIsTheWord : decode 0x02007FFF#32 = .ok (.rdbyte 0x7F#7 0xFF#8) := by decide
theorem witness_DecodedWordsAreTheTableRows : decode 0x04000007#32 = .ok (.summ 7#3) ∧
    decode 0x05000000#32 = .error (.unknownOpcode 0x05#8) ∧ decode 0x04000008#32 = .error (.reservedBits 0x04#8) := by
  decide
theorem witness_StepRunsTheDecodedCommand :
    (let s := offered 0x03000000#32
     s.rst = false ∧ s.tphase.active = false ∧ s.lock = false ∧ s.offers = [0x03000000#32] ∧
       decode 0x03000000#32 = .ok .acqall) ∧
    (let s := busAt .done []
     s.rst = false ∧ s.tphase.active = false ∧ s.lock = true ∧ decode s.cmdw = .ok (.rdbyte 0x50#7 0x02#8)) := by decide
theorem witness_UnrecognisedWordIsAnsweredUnsupported :
    let s := offered 0x7F000000#32
    s.rst = false ∧ s.tphase = .idle ∧ s.aphase = .idle ∧ s.lock = false ∧ s.offers = [0x7F000000#32] ∧
      decode 0x7F000000#32 = .error (.unknownOpcode 0x7F#8) := by decide
theorem witness_OfferedWordHasNoEffectWhileLocked :
    (busAt .clear []).lock = true ∧ (busAt .clear []).rst = false ∧
      step (busAt .clear []) = .next (busAt .clear []).transport := ⟨rfl, rfl, rfl⟩
theorem witness_ResponsesCarryOutcomesInOrder :
    (busAt .clear []).rst = false ∧ step (busAt .clear []) = .next (busAt .clear []).transport ∧
      (busAt .done []).rst = false ∧ step (busAt .done []) = .next (busAt .done []).respondByte :=
  ⟨rfl, rfl, rfl, rfl⟩
theorem witness_ResetEventAbandonsTheCommand : { busAt .cmpStall [] with rst := true }.rst = true := rfl
theorem witness_TransactionStartChecksTheBase :
    (idleAt 0#16).tphase = .idle ∧ (idleAt 0#16).base = 0#16 ∧ (idleAt 1#16).base ≠ 0#16 ∧
    (let s := passAt .hdr 7 3 0
     s.tphase = .idle ∧ s.slot < 8 ∧ s.aphase = .hdr ∧ s.idx < 4 ∧ s.base ≠ 0#16) ∧
    (let s := { passAt .body 0 511 512 with base := 0#16 }
     s.tphase = .idle ∧ s.slot < 8 ∧ s.aphase = .body ∧ s.idx < s.len ∧ s.idx < 512 ∧ s.base = 0#16) := by decide
theorem witness_ArbitrationWaitReadsThenTests :
    (busAt .arbRead [0x01#8]).rst = false ∧ (busAt .arbRead [0x01#8]).tphase = .arbRead ∧
    { busAt .arbStall [] with arbcnt := 998 }.tphase = .arbStall ∧ { busAt .arbStall [] with arbcnt := 998 }.arbcnt + 1 ≠ 1000 ∧
    { busAt .arbStall [] with arbcnt := 999 }.tphase = .arbStall ∧ { busAt .arbStall [] with arbcnt := 999 }.arbcnt + 1 = 1000 := by
  decide
theorem witness_StatusClearAndAddressWrites :
    (busAt .clear []).rst = false ∧ (busAt .clear []).tphase = .clear ∧
      (busAt .addr []).rst = false ∧ (busAt .addr []).tphase = .addr := by decide
theorem witness_CommandAndControlWrites :
    (busAt .cmd []).rst = false ∧ (busAt .cmd []).tphase = .cmd ∧
      (busAt .start []).rst = false ∧ (busAt .start []).tphase = .start := by decide
theorem witness_SetupWritesComeInOrder : (busAt .clear []).rst = false ∧ (busAt .clear []).tphase = .clear := by decide
theorem witness_CompletionWaitTestsErrorFirst :
    (busAt .cmpRead [0x06#8]).rst = false ∧ (busAt .cmpRead [0x06#8]).tphase = .cmpRead ∧
    { busAt .cmpStall [] with cmpcnt := 998 }.tphase = .cmpStall ∧ { busAt .cmpStall [] with cmpcnt := 998 }.cmpcnt + 1 ≠ 1000 ∧
    { busAt .cmpStall [] with cmpcnt := 999 }.tphase = .cmpStall ∧ { busAt .cmpStall [] with cmpcnt := 999 }.cmpcnt + 1 = 1000 := by
  decide
theorem witness_DataPhaseReadsDataLow : (busAt .data [0x0C#8]).rst = false ∧ (busAt .data [0x0C#8]).tphase = .data := by decide
theorem witness_RdbyteRespondsAtTheEnd :
    (busAt .done []).tphase = .done ∧ (busAt .done []).outcome = .success ∧
      ∀ oc ∈ [OutcomeCode.controllerNotFound, .busTimeout, .transactionError, .invalidBufferSize, .unsupportedRequest,
        .invalidImage],
        { busAt .done [] with outcome := oc }.tphase = .done ∧ { busAt .done [] with outcome := oc }.outcome = oc := by decide
theorem witness_TransportWritesOnlyTransactionRegisters :
    (busAt .data []).rst = false ∧ (busAt .data []).tphase.active = true := by decide

/-- The state of the stuck-busy witness: the next 1000 answers have the busy bit set (fixture STUCK). -/
def stuckState : State := busAt .arbRead (List.replicate 1000 0x01#8)

theorem witness_StuckBusyBitTimesOutWithoutAWrite :
    stuckState.rst = false ∧ stuckState.tphase = .arbRead ∧ stuckState.arbcnt = 0 ∧
      ∀ k < 1000, stuckState.io.nth Config.ioAnswer k &&& stuckState.cfg.mBusy ≠ 0#8 := by
  refine ⟨rfl, rfl, rfl, fun k hk => ?_⟩
  have h : stuckState.io.nth Config.ioAnswer k = 0x01#8 := by
    show ((List.replicate 1000 0x01#8)[k]?).getD _ = 0x01#8
    rw [List.getElem?_replicate, if_pos hk]; rfl
  rw [h]; decide

/-- The engine about to make the first step of a command: LOCK = 1, CMDW latched, the answers to come. -/
def begun (w : Word) (answers : List Byte) : State :=
  { idleAt 0xF000#16 with lock := true, cmdw := w, io := ⟨answers, 0⟩ }

theorem witness_RdbyteRunsReadByte :
    let s := begun 0x02005002#32 []
    s.rst = false ∧ s.lock = true ∧ s.tphase = .idle ∧ decode s.cmdw = .ok (.rdbyte 0x50#7 0x02#8) := by decide
theorem witness_TransactionBounds : gk.ok = true := by decide

/-- A controller in vector T1: its status, address and command registers, its data register and its work. -/
def ctl (status addr cmd data : Byte) (work : ControllerWork) : Controller := ⟨status, addr, cmd, data, work⟩

/-- Vector T1 with a controller beside it: the transaction starts at the control write and has completed, with the interrupt
bit set and the byte 0x0C in data-low, before the completion read. -/
def exchangesT1 : List Exchange :=
  [⟨ctl 0 0 0 0 .free, .ior8 0xF000#16 0x00#8, ctl 0 0 0 0 .free⟩,
   ⟨ctl 0 0 0 0 .free, .iow8 0xF000#16 0x06#8, ctl 0 0 0 0 .free⟩,
   ⟨ctl 0 0 0 0 .free, .iow8 0xF004#16 0xA1#8, ctl 0 0xA1 0 0 .free⟩,
   ⟨ctl 0 0xA1 0 0 .free, .iow8 0xF003#16 0x02#8, ctl 0 0xA1 2 0 .free⟩,
   ⟨ctl 0 0xA1 2 0 .free, .iow8 0xF002#16 0x48#8, ctl 0 0xA1 2 0 (.running 0xA1 2)⟩,
   ⟨ctl 2 0xA1 2 0x0C (.completed 0xA1 2), .ior8 0xF000#16 0x02#8, ctl 2 0xA1 2 0x0C (.completed 0xA1 2)⟩,
   ⟨ctl 2 0xA1 2 0x0C (.completed 0xA1 2), .ior8 0xF005#16 0x0C#8, ctl 2 0xA1 2 0x0C (.completed 0xA1 2)⟩]

/-- Vector T1, with a device that holds 0x0C at this address and command. -/
theorem witness_RdbyteAnswersTheDeviceByte :
    let s := begun 0x02005002#32 [0x00#8, 0x02#8, 0x0C#8]
    s.rst = false ∧ s.lock = true ∧ s.tphase = .idle ∧ decode s.cmdw = .ok (.rdbyte 0x50#7 0x02#8) ∧ s.cfg.ok = true ∧
      (readByte s.cfg s.base 0x50#7 0x02#8 s.io).outcome = .success ∧
      exchangesT1.map Exchange.event = (readByte s.cfg s.base 0x50#7 0x02#8 s.io).events ∧
      ReadsAnswerRegisters s.cfg s.base exchangesT1 ∧ WritesLoadRegisters s.cfg s.base exchangesT1 ∧
      BusyWhileOccupied s.cfg exchangesT1 ∧ WritingOneClears s.cfg s.base exchangesT1 ∧
      StartBeginsARead s.cfg s.base exchangesT1 ∧ EndSetsItsBit s.cfg s.base exchangesT1 ∧
      CompletedDataIsTheByteRead (fun a c => if a = 0xA1#8 ∧ c = 0x02#8 then 0x0C#8 else 0xFF#8) exchangesT1 ∧
      OnlyTheEngineStarts s.cfg s.base exchangesT1 := by
  refine ⟨rfl, rfl, rfl, by decide, by decide, by decide, by decide, ?_, ?_, ?_, ?_, ?_, ?_, ?_, ?_⟩ <;>
    simp [exchangesT1, ctl, begun, idleAt, gk, ReadsAnswerRegisters, WritesLoadRegisters, BusyWhileOccupied,
      WritingOneClears, StartBeginsARead, EndSetsItsBit, CompletedDataIsTheByteRead, OnlyTheEngineStarts,
      Event.readFrom, Event.writeTo, portAt, Controller.resultBits, statusClear, intrSet,
      ControllerWork.isRunning, ControllerWork.isEndOf]

theorem witness_PassClearsTheFileThenChecksTheBase :
    (idleAt 0#16).tphase = .idle ∧ (idleAt 0#16).aphase = .idle ∧
    { passAt .clear 0 0 0 with base := 0#16 }.tphase = .idle ∧ { passAt .clear 0 0 0 with base := 0#16 }.aphase = .clear ∧
    { passAt .clear 0 0 0 with base := 0#16 }.base = 0#16 ∧
    (passAt .clear 0 0 0).tphase = .idle ∧ (passAt .clear 0 0 0).aphase = .clear ∧ (passAt .clear 0 0 0).base ≠ 0#16 := by
  decide
theorem witness_HeaderPhaseReadsFourBytes :
    (let s := passAt .hdr 7 3 0
     s.aphase = .hdr ∧ s.slot < 8 ∧ s.idx < 4 ∧ s.tphase = .idle ∧ s.base ≠ 0#16) ∧
    (let s := passByte .hdr 0 2 0 .success
     s.aphase = .hdr ∧ s.slot < 8 ∧ s.idx < 3 ∧ s.tphase = .done ∧ s.outcome = .success) ∧
    (let s := passByte .hdr 0 3 0 .success
     s.aphase = .hdr ∧ s.slot < 8 ∧ s.idx = 3 ∧ s.tphase = .done ∧ s.outcome = .success) ∧
    (let s := passByte .hdr 7 0 0 .busTimeout
     s.aphase = .hdr ∧ s.slot < 8 ∧ s.idx < 4 ∧ s.tphase = .done ∧ s.outcome ≠ .success) := by decide
theorem witness_ClassifySelects512OnlyFor0C :
    (let s := { passAt .classify 7 3 0 with hdr := #v[0x23#8, 0x11#8, 0x0C#8, 0x02#8] }
     s.slot < 8 ∧ s.tphase = .idle ∧ s.aphase = .classify ∧ s.hdr[2] = 0x0C#8) ∧
    (let s := { passAt .classify 0 3 0 with hdr := #v[0x0C#8, 0x0C#8, 0x12#8, 0x0C#8] }
     s.slot < 8 ∧ s.tphase = .idle ∧ s.aphase = .classify ∧ s.hdr[2] ≠ 0x0C#8) := by decide
theorem witness_BodyPhaseStoresEachByte :
    (let s := passAt .body 7 511 512
     s.slot < 8 ∧ s.aphase = .body ∧ s.idx < s.len ∧ s.idx < 512 ∧ s.tphase = .idle ∧ s.base ≠ 0#16) ∧
    (let s := passByte .body 0 510 512 .success
     s.slot < 8 ∧ s.aphase = .body ∧ s.idx < 512 ∧ s.tphase = .done ∧ s.outcome = .success ∧ s.idx + 1 < s.len) ∧
    (let s := passByte .body 0 255 256 .success
     s.slot < 8 ∧ s.aphase = .body ∧ s.idx < 512 ∧ s.tphase = .done ∧ s.outcome = .success ∧ s.idx + 1 = s.len) ∧
    (let s := passByte .body 7 511 512 .success
     s.slot < 8 ∧ s.aphase = .body ∧ s.idx < 512 ∧ s.tphase = .done ∧ s.outcome = .success ∧ s.idx + 1 = s.len) ∧
    (let s := passByte .body 0 0 256 .transactionError
     s.slot < 8 ∧ s.aphase = .body ∧ s.idx < s.len ∧ s.tphase = .done ∧ s.outcome ≠ .success) := by decide
theorem witness_SlotsAreTakenInOrder :
    (passAt .next 6 0 0).tphase = .idle ∧ (passAt .next 6 0 0).aphase = .next ∧ (passAt .next 6 0 0).slot < 7 ∧
      (passAt .next 7 0 0).slot = 7 := by decide
theorem witness_PassEndsWithTheResponse :
    (passAt .done 8 0 0).tphase = .idle ∧ (passAt .done 8 0 0).aphase = .done ∧ (passAt .done 8 0 0).outcome = .success ∧
      { passAt .done 0 0 0 with outcome := .controllerNotFound }.outcome = .controllerNotFound := by decide
theorem witness_SlotRecordHoldsExactlyTheBytesRead :
    (readMany gk 0#16 0x50#7 [0, 1, 2, 3] ⟨[], 0⟩).complete = false ∧
    (readMany gk 0xF000#16 0x50#7 [0, 1, 2, 3]
      ⟨[0x00#8, 0x02#8, 0x23#8, 0x02#8, 0x02#8, 0x11#8, 0x02#8, 0x02#8, 0x0C#8, 0x02#8, 0x02#8, 0x02#8], 0⟩).complete =
      true := by decide
theorem witness_AcqallRunsThePass :
    let s := begun 0x03000000#32 []
    s.rst = false ∧ s.lock = true ∧ s.tphase = .idle ∧ s.aphase = .idle ∧ decode s.cmdw = .ok .acqall := by decide
theorem witness_CtlbRunsThePassAndReturnsTheRecords :
    let s := begun 0x0B001020#32 []
    (4128#24).toNat = 4128 ∧ s.rst = false ∧ s.lock = true ∧ s.tphase = .idle ∧ s.aphase = .idle ∧
      decode s.cmdw = .ok (.ctlb 4128#24) := by decide
theorem witness_ValidIsSetOnlyByTheLastBodyByte :
    let s := passByte .body 0 255 256 .success
    step s = .next s.takeBodyByte ∧ s.img[(0 : Fin 8)].valid = false ∧ s.takeBodyByte.img[(0 : Fin 8)].valid = true :=
  ⟨rfl, rfl, rfl⟩
theorem witness_ValidImageIsImmutable :
    let s := { withImage with offers := [0x04000000#32] }
    Inv s ∧ s.rst = false ∧ s.aphase ≠ .clear ∧ (after (step s)).isSome = true ∧ s.img[(0 : Fin 8)].valid = true := by decide
theorem witness_SummRespondsWithTheSummary :
    withImage.tphase = .idle ∧ withImage.aphase = .idle ∧ withImage.img[0].valid = true ∧ withImage.img[7].valid = false := by
  decide
theorem witness_DecoderNeverReadsBeyondLength :
    let a : SpdImage := { imageD14 with length := 2 }
    let b : SpdImage := { emptyImage 0#3 with bytes := [(0, 0x23#8), (1, 0x11#8)], length := 2 }
    a.length = b.length ∧ (∀ o < a.length, a.bytes.read o = b.bytes.read o) ∧ a.bytes ≠ b.bytes ∧
      1 < a.length ∧ a.length ≤ 2 := by decide
theorem witness_Byte4SplitsIntoDensityAndBanks :
    { imageD14 with length := 5 }.length > 4 ∧ { imageD14 with length := 4 }.length ≤ 4 := by decide
theorem witness_ManufacturerOfAShortImageIsNotSpecified :
    { imageD14 with length := 256 }.length ≤ 320 ∧ { imageD14 with length := 320 }.length ≤ 320 ∧ imageD14.length = 512 := by
  decide
theorem witness_TypeMarkerNamesTheGeneration :
    imageD14.byteAt 2 = 0x0C#8 ∧ { imageD14 with bytes := [(2, 0x12#8)] }.byteAt 2 = 0x12#8 ∧
      { imageD14 with bytes := [(2, 0x11#8)] }.byteAt 2 ≠ 0x0C#8 ∧ { imageD14 with bytes := [(2, 0x11#8)] }.byteAt 2 ≠ 0x12#8 := by
  decide
theorem witness_SetbaseWritesTheBase : (idleAt 0#16).tphase = .idle ∧ (idleAt 0#16).aphase = .idle := by decide
theorem witness_CtlaReturnsTheTimingRecord :
    (idleAt 0#16).tphase = .idle ∧ (idleAt 0#16).aphase = .idle ∧ (40#24).toNat = (idleAt 0#16).cfg.rtrSize := by decide
theorem witness_WrongBufferSizeTouchesNothing :
    (idleAt 0#16).tphase = .idle ∧ (idleAt 0#16).aphase = .idle ∧ (39#24).toNat ≠ (idleAt 0#16).cfg.rtrSize ∧
      (41#24).toNat ≠ (idleAt 0#16).cfg.rtrSize ∧ (4127#24).toNat ≠ 4128 ∧ (4129#24).toNat ≠ 4128 := by decide
theorem witness_CtlbPayloadLayout : emptyImages[(7 : Fin 8)].length < 65536 := by decide
theorem witness_StepKeepsInv : Inv (busAt .clear []) ∧ step (busAt .clear []) = .next (busAt .clear []).transport :=
  ⟨by decide, rfl⟩
theorem witness_InvStateNeverStops : Inv (passAt .hdr 7 3 0) := by decide
theorem witness_EveryCommandEnds :
    (Inv (passAt .clear 0 0 0) ∧ (passAt .clear 0 0 0).rst = false ∧ (passAt .clear 0 0 0).lock = true) ∧
    (Inv (busAt .arbRead []) ∧ (busAt .arbRead []).rst = false ∧ (busAt .arbRead []).lock = true) := by decide
theorem witness_BaseChangesOnlyBySetbase :
    let s := offered 0x0100FFFF#32
    Inv s ∧ s.rst = false ∧ (after (step s)).map (·.base) = some 0xFFFF#16 ∧ s.base ≠ 0xFFFF#16 := by decide
theorem witness_ImagesAreWrittenOnlyByAPass :
    (let s := { withImage with lock := true, cmdw := 0x03000000#32, aphase := .clear }
     s.rst = false ∧ step s = .next s.beginPass ∧ s.beginPass.img ≠ s.img) ∧
    (let s := passAt .classify 7 3 0
     s.rst = false ∧ step s = .next s.classify ∧ s.classify.img ≠ s.img) ∧
    (let s := passByte .body 0 0 256 .success
     s.rst = false ∧ step s = .next s.takeBodyByte ∧ s.takeBodyByte.img ≠ s.img) :=
  ⟨⟨rfl, rfl, by decide⟩, ⟨rfl, rfl, by decide⟩, ⟨rfl, rfl, by decide⟩⟩
theorem witness_OnlyTheNamedPortsAreAccessed :
    (busAt .addr []).cfg.ok = true ∧ step (busAt .addr []) = .next (busAt .addr []).transport := ⟨by decide, rfl⟩

/-- A confirmed completion: the last event is the status read whose sample is in STS. -/
def confirmed : State :=
  { busAt .data [0x0C#8] with sts := 0x02#8, trace := [.ior8 0xF000#16 0x02#8] }

theorem witness_DataIsReadOnlyAfterConfirmation :
    Inv confirmed ∧ step confirmed = .next confirmed.readData ∧
      confirmed.readData.trace = confirmed.trace ++ [.ior8 confirmed.dat0Port 0x0C#8] := ⟨by decide, rfl, rfl⟩
theorem witness_ZeroBaseIsNeverAPortBase :
    let s := { passAt .done 0 0 0 with base := 0#16, outcome := .controllerNotFound }
    Inv s ∧ step s = .next s.respondPass ∧ s.base = 0#16 ∧ s.respondPass.responses = s.responses ++ [⟨1#8, []⟩] :=
  ⟨by decide, rfl, rfl, rfl⟩
theorem witness_TimeoutAndErrorAreRaisedOnlyInTheWaits :
    (let s := { busAt .arbStall [] with arbcnt := 999 }
     step s = .next s.arbStall ∧ s.arbStall.outcome = .busTimeout ∧ s.outcome ≠ .busTimeout) ∧
    (let s := { busAt .cmpStall [] with cmpcnt := 999 }
     step s = .next s.cmpStall ∧ s.cmpStall.outcome = .busTimeout ∧ s.outcome ≠ .busTimeout) ∧
    (let s := busAt .cmpRead [0x04#8]
     step s = .next s.cmpRead ∧ s.cmpRead.outcome = .transactionError ∧ s.outcome ≠ .transactionError) :=
  ⟨⟨rfl, rfl, by decide⟩, ⟨rfl, rfl, by decide⟩, ⟨rfl, rfl, by decide⟩⟩
theorem witness_BoundaryViolationsTouchNothing :
    (Inv (offered 0x0B001021#32) ∧ (after (step (offered 0x0B001021#32))).map (·.responses) = some [⟨4#8, []⟩]) ∧
    (Inv (offered 0x04000008#32) ∧ (after (step (offered 0x04000008#32))).map (·.responses) = some [⟨5#8, []⟩]) := by decide
theorem witness_PersistThenReadGivesTheBytes : imageD14.valid = true ∧ (emptyImage 0#3).valid = false := by decide
theorem witness_DumpHasRowsOf72Characters : 31 < imageD14.length / 16 ∧ 0 < { imageD14 with length := 256 }.length / 16 := by
  decide
theorem witness_MemoriesThatReadAlikeAreEqual :
    Memory.wf [(1, 7#8), (511, 8#8)] ∧ Memory.wf (Memory.write [(1, 7#8)] 511 8#8) ∧
      ∀ a, Memory.read [(1, 7#8), (511, 8#8)] a = Memory.read (Memory.write [(1, 7#8)] 511 8#8) a :=
  ⟨by decide, by decide, fun _ => rfl⟩

end Sys2Proof.Tests
end

section
/-! PROOFS. Bus Transport: the start of a transaction (R84), the two waits (R86, R92, R93) and the command and control
writes (R90, R91). First the flags of a sample and the step of each phase, then the obligations from them. -/

namespace Sys2Proof.Machine

/-- The busy bit of a sample as the spec tests it (R19). -/
theorem busySet_iff (p : Params) (v : Byte) : busySet p v = true ↔ v &&& p.mBusy ≠ 0#8 := bne_iff_ne

/-- The interrupt bit of a sample as the spec tests it (R19). -/
theorem intrSet_iff (p : Params) (v : Byte) : intrSet p v = true ↔ v &&& p.mIntr ≠ 0#8 := bne_iff_ne

/-- The error bit of a sample as the spec tests it (R3). -/
theorem errSet_iff (p : Params) (v : Byte) : errSet p v = true ↔ v &&& p.mErr ≠ 0#8 := bne_iff_ne

theorem step_cmd {s : State} (hr : s.rst = false) (ht : s.tphase = .cmd) : step s = .next s.writeCmd := by
  rw [step_active hr (by rw [ht]; rfl)]; simp only [State.transport, ht]

theorem step_start {s : State} (hr : s.rst = false) (ht : s.tphase = .start) : step s = .next s.writeStart := by
  rw [step_active hr (by rw [ht]; rfl)]; simp only [State.transport, ht]

/-- The header phase starts the transaction of its next byte (R113). -/
theorem pass_hdr_idle {s : State} (finish : State → State) (ht : s.tphase = .idle) (ha : s.aphase = .hdr)
    (hslot : s.slot < nSlots) (hidx : s.idx < hdrLen) :
    s.pass finish = .next (s.startTransaction (slotSlave s.slot) (idxByte s.idx)) := by
  simp [State.pass, State.passRead, TPhase.active, ht, ha, hslot, hidx]

/-- The body phase starts the transaction of its next byte (R116). -/
theorem pass_body_idle {s : State} (finish : State → State) (ht : s.tphase = .idle) (ha : s.aphase = .body)
    (hslot : s.slot < nSlots) (hlen : s.idx < s.len) (hcap : s.idx < imgCap) :
    s.pass finish = .next (s.startTransaction (slotSlave s.slot) (idxByte s.idx)) := by
  simp [State.pass, State.passRead, TPhase.active, ht, ha, hslot, hlen, hcap]

/-- RDBYTE starts its transaction with its own operands (R101). -/
theorem exec_rdbyte_idle {s : State} (slave : SlaveAddr) (offset : Byte) (ht : s.tphase = .idle) :
    exec (.rdbyte slave offset) s = .next (s.startTransaction slave offset) := by
  simp only [exec, execRdbyte, ht]

/-- CTLB with a buffer of the required size runs the pass (R163, R164). -/
theorem exec_ctlb_of_size (s : State) : exec (.ctlb 4128#24) s = s.pass State.respondImages := by
  have hsize : (4128#24).toNat = ctlbSize := rfl
  simp only [exec, execCtlb, hsize, if_true]

/-- Both commands that run the pass do so by `State.pass`, each with its own response at the end (R110, R164). -/
theorem exec_eq_pass {i : Instr} (s : State) (hi : i = .acqall ∨ i = .ctlb 4128#24) :
    ∃ finish, exec i s = s.pass finish := by
  rcases hi with rfl | rfl
  · exact ⟨State.respondPass, rfl⟩
  · exact ⟨State.respondImages, exec_ctlb_of_size s⟩

/-- Settles O11: RDBYTE and both reading phases of a pass answer `State.startTransaction`, whose two cases are those of
BASE. -/
theorem transactionStartChecksTheBase : Obligations.TransactionStartChecksTheBase := by
  intro s i slave offset ht hstart
  have hexec : exec i s = .next (s.startTransaction slave offset) := by
    rcases hstart with rfl | ⟨hi, hslot, hphase, rfl, rfl⟩
    · exact exec_rdbyte_idle slave offset ht
    · obtain ⟨finish, hpass⟩ := exec_eq_pass s hi
      rw [hpass]
      rcases hphase with ⟨ha, hidx⟩ | ⟨ha, hlen, hcap⟩
      · exact pass_hdr_idle finish ht ha hslot hidx
      · exact pass_body_idle finish ht ha hslot hlen hcap
  rw [hexec]
  exact ⟨fun hb => by rw [State.startTransaction_unresolved hb],
    fun hb => by rw [State.startTransaction_resolved hb]⟩

/-- Phase T_ARB_READ field by field (R86). -/
theorem State.arbRead_eq (s : State) : s.arbRead = { s with
    io := (s.io.next Config.ioAnswer).2, trace := s.trace ++ [.ior8 s.stsPort s.answer], sts := s.answer,
    tphase := if s.answer &&& s.cfg.mBusy = 0#8 then .clear else .arbStall } := by
  by_cases hb : s.answer &&& s.cfg.mBusy = 0#8 <;> simp [State.arbRead, State.ior8, busySet_iff, hb]

/-- Phase T_ARB_STALL field by field (R86). -/
theorem State.arbStall_eq (s : State) : s.arbStall = { s with
    trace := s.trace ++ [.stall], arbcnt := s.arbcnt + 1,
    outcome := if s.arbcnt + 1 = pollBudget then .busTimeout else s.outcome,
    tphase := if s.arbcnt + 1 = pollBudget then .done else .arbRead } := by
  by_cases hc : s.arbcnt + 1 = pollBudget <;> simp [State.arbStall, State.stallEvent, hc]

/-- Phase T_CMP_READ field by field (R92). -/
theorem State.cmpRead_eq (s : State) : s.cmpRead = { s with
    io := (s.io.next Config.ioAnswer).2, trace := s.trace ++ [.ior8 s.stsPort s.answer], sts := s.answer,
    outcome := if s.answer &&& s.cfg.mErr ≠ 0#8 then .transactionError else s.outcome,
    tphase := if s.answer &&& s.cfg.mErr ≠ 0#8 then .done
      else if s.answer &&& s.cfg.mIntr ≠ 0#8 then .data else .cmpStall } := by
  by_cases he : s.answer &&& s.cfg.mErr = 0#8 <;> simp [State.cmpRead, State.ior8, errSet_iff, intrSet_iff, he]

/-- Phase T_CMP_STALL field by field (R93). -/
theorem State.cmpStall_eq (s : State) : s.cmpStall = { s with
    trace := s.trace ++ [.stall], cmpcnt := s.cmpcnt + 1,
    outcome := if s.cmpcnt + 1 = pollBudget then .busTimeout else s.outcome,
    tphase := if s.cmpcnt + 1 = pollBudget then .done else .cmpRead } := by
  by_cases hc : s.cmpcnt + 1 = pollBudget <;> simp [State.cmpStall, State.stallEvent, hc]

/-- Settles O12, from the two phases of the arbitration wait; the budget of 1000 is `pollBudget`. -/
theorem arbitrationWaitReadsThenTests : Obligations.ArbitrationWaitReadsThenTests := by
  intro s hr
  refine ⟨fun ht => ?_, fun ht => ?_⟩
  · rw [step_arbRead hr ht, State.arbRead_eq]
  · rw [step_arbStall hr ht, State.arbStall_eq]; rfl

/-- Settles O14: each of the two phases is one write, and its step is the definition of that phase. -/
theorem commandAndControlWrites : Obligations.CommandAndControlWrites := fun _ hr =>
  ⟨fun ht => step_cmd hr ht, fun ht => step_start hr ht⟩

/-- Settles O16, from the two phases of the completion wait; the error bit is tested before the interrupt bit. -/
theorem completionWaitTestsErrorFirst : Obligations.CompletionWaitTestsErrorFirst := by
  intro s hr
  refine ⟨fun ht => ?_, fun ht => ?_⟩
  · rw [step_cmpRead hr ht, State.cmpRead_eq]
  · rw [step_cmpStall hr ht, State.cmpStall_eq]; rfl

end Sys2Proof.Machine
end

section
/-! PROOFS. SPD Acquisition: the header phase (R113). First what taking a header byte does to the state, case by case,
then the obligation. -/

namespace Sys2Proof.Machine

/-- The header phase takes the result of a finished transaction (R113). -/
theorem pass_hdr_done {s : State} (finish : State → State) (ht : s.tphase = .done) (ha : s.aphase = .hdr)
    (hslot : s.slot < nSlots) (hidx : s.idx < hdrLen) : s.pass finish = .next s.takeHeaderByte := by
  simp [State.pass, State.passRead, TPhase.active, ht, ha, hslot, hidx]

/-- A byte that is not the last of the header: the next offset follows (R113). -/
theorem State.takeHeaderByte_more {s : State} (ho : s.outcome = .success) (hi : s.idx + 1 < hdrLen) :
    s.takeHeaderByte =
      { s with tphase := .idle, hdr := s.hdr.setIfInBounds s.idx s.result, idx := s.idx + 1 } := by
  rw [State.takeHeaderByte, if_pos ho, if_pos hi, State.handOver]

/-- The last byte of the header: the slot is classified next (R113, R114). -/
theorem State.takeHeaderByte_last {s : State} (ho : s.outcome = .success) (hi : ¬ s.idx + 1 < hdrLen) :
    s.takeHeaderByte =
      { s with tphase := .idle, hdr := s.hdr.setIfInBounds s.idx s.result, aphase := .classify } := by
  rw [State.takeHeaderByte, if_pos ho, if_neg hi, State.handOver]

/-- No byte obtained: the slot ends and nothing is recorded (R113, R115). -/
theorem State.takeHeaderByte_failed {s : State} (ho : s.outcome ≠ .success) :
    s.takeHeaderByte = { s with tphase := .idle, aphase := .next } := by
  rw [State.takeHeaderByte, if_neg ho, State.handOver]

/-- Settles O25: an idle transport starts the transaction of byte IDX, a finished one hands over to
`State.takeHeaderByte`, whose three cases are the other three clauses. -/
theorem headerPhaseReadsFourBytes : Obligations.HeaderPhaseReadsFourBytes := by
  intro s i hi ha hslot hidx
  obtain ⟨finish, hpass⟩ := exec_eq_pass s hi
  have htake (ht : s.tphase = .done) : exec i s = .next s.takeHeaderByte :=
    hpass.trans (pass_hdr_done finish ht ha hslot hidx)
  refine ⟨fun ht hb => ?start, fun ht ho hlt => ?more, fun ht ho heq => ?last, fun ht ho => ?failed⟩
  case start =>
    rw [hpass, pass_hdr_idle finish ht ha hslot hidx, State.startTransaction_resolved hb]
    rfl
  case more => rw [htake ht, State.takeHeaderByte_more ho (Nat.succ_lt_succ hlt)]
  case last =>
    have hlast : ¬ s.idx + 1 < hdrLen := by rw [heq]; decide
    rw [htake ht, State.takeHeaderByte_last ho hlast, heq]
  case failed => rw [htake ht, State.takeHeaderByte_failed ho]

end Sys2Proof.Machine
end

section
/-! PROOFS. SPD Decoder: the bounds-checked read (R132), the type marker (R133), byte 4 (R134), the timing fields (R136)
and the manufacturer pair (R137). First the rules of the read, of the two byte splittings and of the summary's fields,
then the obligations from them. -/

namespace Sys2Proof.Machine

/-- A byte below `length` is the buffer's (R132). -/
theorem SpdImage.byteAt_of_lt {im : SpdImage} {o : Nat} (h : o < im.length) : im.byteAt o = im.bytes.read o := if_pos h

/-- A byte at or beyond `length` is absent (R132). -/
theorem SpdImage.byteAt_of_le {im : SpdImage} {o : Nat} (h : im.length ≤ o) : im.byteAt o = 0#8 :=
  if_neg (Nat.not_lt.mpr h)

/-- The bounds-checked read sees nothing of a record but its length and its bytes below it (R132). -/
theorem SpdImage.byteAt_congr {a b : SpdImage} (hlen : a.length = b.length)
    (hbytes : ∀ o < a.length, a.bytes.read o = b.bytes.read o) (o : Nat) : a.byteAt o = b.byteAt o := by
  by_cases h : o < a.length
  · rw [byteAt_of_lt h, byteAt_of_lt (hlen ▸ h), hbytes o h]
  · rw [byteAt_of_le (Nat.le_of_not_lt h), byteAt_of_le (hlen ▸ Nat.le_of_not_lt h)]

/-- The decoder reads a record through the bounds-checked read only (R132). -/
theorem summarize_congr {a b : SpdImage} (h : ∀ o, a.byteAt o = b.byteAt o) : summarize a = summarize b := by
  simp only [summarize, SpdImage.field16, h]

@[simp] theorem summarize_typeTag (im : SpdImage) : (summarize im).typeTag = (ddrType (im.byteAt 2)).tag := rfl
@[simp] theorem summarize_typeRaw (im : SpdImage) : (summarize im).typeRaw = im.byteAt 2 := rfl
@[simp] theorem summarize_banks (im : SpdImage) : (summarize im).banks = banksField (im.byteAt 4) := rfl
@[simp] theorem summarize_density (im : SpdImage) : (summarize im).density = densityField (im.byteAt 4) := rfl
@[simp] theorem summarize_mfg0 (im : SpdImage) : (summarize im).mfg0 = im.byteAt 320 := rfl
@[simp] theorem summarize_mfg1 (im : SpdImage) : (summarize im).mfg1 = im.byteAt 321 := rfl

/-- The manufacturer is specified where its first byte is not 0 (R137). -/
@[simp] theorem summarize_mfgSpecified_iff (im : SpdImage) : (summarize im).mfgSpecified = true ↔ im.byteAt 320 ≠ 0#8 :=
  bne_iff_ne

/-- The two fields of byte 4 lose no bit of it (R69, R134). -/
theorem toNat_eq_densityField_banksField (b4 : Byte) :
    b4.toNat = 8 * (densityField b4).toNat + (banksField b4).toNat := by
  have hdensity : (densityField b4).toNat = b4.toNat / 8 % 32 := by
    simp only [densityField, BitVec.extractLsb'_toNat, Nat.shiftRight_eq_div_pow]
  have hbanks : (banksField b4).toNat = b4.toNat % 8 := by
    simp only [banksField, BitVec.extractLsb'_toNat, Nat.shiftRight_zero]
  omega

/-- `le16` is the low byte plus 256 times the high byte (R6, R43). -/
theorem le16_toNat (lo hi : Byte) : (le16 lo hi).toNat = lo.toNat + 256 * hi.toNat := by
  have hmul : (hi.setWidth 16 <<< 8).toNat = hi.toNat <<< 8 := by
    simp only [BitVec.toNat_shiftLeft, BitVec.toNat_setWidth, Nat.shiftLeft_eq]
    omega
  have hlo : (lo.setWidth 16).toNat = lo.toNat := BitVec.toNat_setWidth_of_le (by decide)
  rw [le16, BitVec.toNat_or, hmul, hlo, Nat.or_comm, ← Nat.shiftLeft_add_eq_or_of_lt lo.isLt, Nat.shiftLeft_eq]
  omega

/-- A 16-bit field of a record, its low byte first (R68, R136). -/
theorem SpdImage.field16_toNat (im : SpdImage) (o : Nat) :
    (im.field16 o).toNat = (im.byteAt o).toNat + 256 * (im.byteAt (o + 1)).toNat := le16_toNat _ _

/-- The marker of no known type (R133). -/
theorem ddrType_of_ne {marker : Byte} (h4 : marker ≠ 0x0C#8) (h5 : marker ≠ 0x12#8) : ddrType marker = .unknown := by
  rw [ddrType, if_neg h4, if_neg h5]

/-- Settles O36: the two cases of the bounds-checked read, and a summary is made of such reads alone. -/
theorem decoderNeverReadsBeyondLength : Obligations.DecoderNeverReadsBeyondLength :=
  ⟨fun _ _ => ⟨SpdImage.byteAt_of_lt, SpdImage.byteAt_of_le⟩,
    fun _ _ hlen hbytes => summarize_congr (SpdImage.byteAt_congr hlen hbytes)⟩

/-- Settles O38: a present byte 4 is its two fields put together, an absent one is read as 0. -/
theorem byte4SplitsIntoDensityAndBanks : Obligations.Byte4SplitsIntoDensityAndBanks := by
  intro im
  rw [summarize_density, summarize_banks]
  refine ⟨fun hpresent => ?_, fun habsent => ?_⟩
  · rw [SpdImage.byteAt_of_lt hpresent]
    exact toNat_eq_densityField_banksField _
  · rw [SpdImage.byteAt_of_le habsent]
    decide

/-- Settles O39: offsets 320 and 321 lie beyond a length of at most 320 and below a length of 512. -/
theorem manufacturerOfAShortImageIsNotSpecified : Obligations.ManufacturerOfAShortImageIsNotSpecified := by
  intro im
  refine ⟨fun hshort => ?short, fun hfull => ?full, summarize_mfg0 im, summarize_mfg1 im, summarize_mfgSpecified_iff im⟩
  case short =>
    have h0 : im.byteAt 320 = 0#8 := SpdImage.byteAt_of_le hshort
    have h1 : im.byteAt 321 = 0#8 := SpdImage.byteAt_of_le (Nat.le_succ_of_le hshort)
    exact ⟨Bool.eq_false_iff.mpr fun hspec => (summarize_mfgSpecified_iff im).mp hspec h0, h0, h1⟩
  case full => exact ⟨SpdImage.byteAt_of_lt (by omega), SpdImage.byteAt_of_lt (by omega)⟩

/-- Settles O40: each timing field is the 16-bit field at its offset. -/
theorem timingFieldsAreLittleEndian : Obligations.TimingFieldsAreLittleEndian := fun im =>
  ⟨im.field16_toNat 18, im.field16_toNat 20, im.field16_toNat 22, im.field16_toNat 24⟩

/-- Settles O41, by the three cases of the marker. -/
theorem typeMarkerNamesTheGeneration : Obligations.TypeMarkerNamesTheGeneration := by
  intro im
  rw [summarize_typeTag]
  refine ⟨summarize_typeRaw im, fun h4 => ?ddr4, fun h5 => ?ddr5, fun h4 h5 => ?unknown⟩
  case ddr4 => rw [h4]; rfl
  case ddr5 => rw [h5]; rfl
  case unknown => rw [ddrType_of_ne h4 h5]; rfl

end Sys2Proof.Machine
end

section
/-! PROOFS. Reset and hazards: the data register is read only after a confirmed completion (R205), and BASE = 0 is never
used as a port base (R212). First what a step with no transaction in progress performs and answers, then what a
transport step reads, then the obligations from them. -/

namespace Sys2Proof.Machine

/-- The engine stands where a command may answer ControllerNotFound: OUTCOME says so at the end of a transaction or of a
pass (R84, R112). -/
def State.AtUnresolvedEnd (s : State) : Prop :=
  s.outcome = .controllerNotFound ∧ (s.tphase = .done ∨ s.aphase = .done)

/-- What a step with no transaction in progress does at the I/O master port and the response port: it performs no event,
and it places no response, or one, whose code is ControllerNotFound only at an unresolved end. -/
inductive PortEffect (s t : State) : Prop where
  | silent : t.trace = s.trace → t.responses = s.responses → PortEffect s t
  | answer (oc : OutcomeCode) (payload : List Byte) : t.trace = s.trace →
      t.responses = s.responses ++ [⟨oc.code, payload⟩] → (oc = .controllerNotFound → s.AtUnresolvedEnd) →
      PortEffect s t

/-- The delivery of an outcome that is not ControllerNotFound (R189). -/
theorem PortEffect.respond {s : State} {oc : OutcomeCode} (payload : List Byte) (h : oc ≠ .controllerNotFound) :
    PortEffect s (s.respond oc payload) := .answer oc payload rfl rfl fun hoc => absurd hoc h

/-- Acceptance touches neither of the two ports, nor where the engine stands (R160, R162). -/
theorem PortEffect.of_accept {s t : State} {w : Word} {rest : List Word} :
    PortEffect (s.accept w rest) t → PortEffect s t
  | .silent htrace hresp => .silent htrace hresp
  | .answer oc payload htrace hresp hend => .answer oc payload htrace hresp hend

theorem State.startTransaction_portEffect (s : State) (slave : SlaveAddr) (offset : Byte) :
    PortEffect s (s.startTransaction slave offset) := .silent (by simp) (by simp)

theorem State.beginPass_portEffect (s : State) : PortEffect s s.beginPass := by
  unfold State.beginPass; split <;> exact .silent rfl rfl

theorem State.takeHeaderByte_portEffect (s : State) : PortEffect s s.takeHeaderByte := by
  unfold State.takeHeaderByte; (repeat' split) <;> exact .silent rfl rfl

theorem State.takeBodyByte_portEffect (s : State) : PortEffect s s.takeBodyByte := by
  unfold State.takeBodyByte; (repeat' split) <;> exact .silent rfl rfl

theorem State.nextSlot_portEffect (s : State) : PortEffect s s.nextSlot := by
  unfold State.nextSlot; split <;> exact .silent rfl rfl

/-- RDBYTE answers the outcome of its transaction (R101). -/
theorem State.respondByte_portEffect {s : State} (ht : s.tphase = .done) : PortEffect s s.respondByte := by
  rw [State.respondByte_eq]
  exact .answer _ _ rfl rfl fun ho => ⟨ho, .inl ht⟩

/-- The response at the end of a pass names ControllerNotFound only where OUTCOME does (R127, R164). -/
theorem respond_passOutcome_portEffect {s : State} (payload : List Byte) (ha : s.aphase = .done) :
    PortEffect s (s.respond (if s.outcome = .controllerNotFound then .controllerNotFound else .success) payload) := by
  refine .answer _ payload rfl rfl fun hoc => ⟨?_, .inr ha⟩
  by_contra hne
  rw [if_neg hne] at hoc
  cases hoc

theorem State.respondPass_portEffect {s : State} (ha : s.aphase = .done) : PortEffect s s.respondPass := by
  rw [State.respondPass_eq]; exact respond_passOutcome_portEffect _ ha

theorem State.respondImages_portEffect {s : State} (ha : s.aphase = .done) : PortEffect s s.respondImages := by
  rw [State.respondImages_eq]; exact respond_passOutcome_portEffect _ ha

theorem State.respondSummary_portEffect (s : State) (im : SpdImage) : PortEffect s (s.respondSummary im) := by
  rw [State.respondSummary_eq]; exact .respond _ (by split <;> decide)

/-- The timing source is a port of its own (R166). -/
theorem State.respondTiming_portEffect (s : State) : PortEffect s s.respondTiming :=
  .answer .success _ rfl rfl nofun

/-- The effect of an engine step of a pass is silent up to the response at its end (R121). -/
theorem PassStep.portEffect {s t : State} {finish : State → State} (h : PassStep s finish t)
    (hfinish : s.aphase = .done → PortEffect s (finish s)) : PortEffect s t := by
  cases h with
  | enter => exact .silent rfl rfl
  | begin => exact s.beginPass_portEffect
  | hdrStart | bodyStart => exact s.startTransaction_portEffect _ _
  | hdrTake => exact s.takeHeaderByte_portEffect
  | classify => exact .silent rfl rfl
  | bodyTake => exact s.takeBodyByte_portEffect
  | advance => exact s.nextSlot_portEffect
  | finish ha => exact hfinish ha

theorem CommandStep.portEffect {i : Instr} {s t : State} (h : CommandStep s i t) : PortEffect s t := by
  cases h with
  | setbase base => exact .answer .success [] rfl rfl nofun
  | rdbyteStart slave offset => exact s.startTransaction_portEffect slave offset
  | rdbyteEnd _ _ ht => exact State.respondByte_portEffect ht
  | acqall _ hpass => exact hpass.portEffect State.respondPass_portEffect
  | summ slot => exact s.respondSummary_portEffect _
  | ctla => exact s.respondTiming_portEffect
  | ctlaSize | ctlbSize => exact .respond [] (by decide)
  | ctlb _ _ _ hpass => exact hpass.portEffect State.respondImages_portEffect

/-- Every step is the reset event, an event of the transport sequencer, or has the effect of a step with no transaction
in progress (R81, R200). -/
theorem step_resets_transports_or_portEffect {s t : State} (h : step s = .next t) :
    t = s.resetEvent ∨ (s.tphase.active = true ∧ t = s.transport) ∨ PortEffect s t := by
  cases step_cases h with
  | reset => exact .inl rfl
  | transport _ hactive => exact .inr (.inl ⟨hactive, rfl⟩)
  | idle => exact .inr (.inr (.silent rfl rfl))
  | goOn i _ _ _ _ _ hcmd => exact .inr (.inr hcmd.portEffect)
  | goOnUnsupported => exact .inr (.inr (.respond [] (by decide)))
  | accept w rest i _ _ _ _ _ _ hcmd => exact .inr (.inr hcmd.portEffect.of_accept)
  | acceptUnsupported w rest =>
    exact .inr (.inr (PortEffect.of_accept (w := w) (rest := rest) (.respond [] (by decide))))

/-- Only the transport sequencer performs events (R81, R82). -/
theorem step_transports_or_trace_eq {s t : State} (h : step s = .next t) :
    (s.tphase.active = true ∧ t = s.transport) ∨ t.trace = s.trace := by
  rcases step_resets_transports_or_portEffect h with rfl | htransport | heffect
  · exact .inr rfl
  · exact .inl htransport
  · cases heffect with
    | silent htrace | answer _ _ htrace => exact .inr htrace

/-- The number of an outcome names it (R180). -/
theorem OutcomeCode.eq_controllerNotFound_of_code {oc : OutcomeCode} (h : oc.code = 1#8) : oc = .controllerNotFound := by
  cases oc with
  | controllerNotFound => rfl
  | success | busTimeout | transactionError | invalidBufferSize | unsupportedRequest | invalidImage =>
    exact absurd h (by decide)

/-- A response with code 1 is placed only at an unresolved end (R181). -/
theorem atUnresolvedEnd_of_step_responds {s t : State} {payload : List Byte} (h : step s = .next t)
    (hresp : t.responses = s.responses ++ [⟨1#8, payload⟩]) : s.AtUnresolvedEnd := by
  rcases step_resets_transports_or_portEffect h with rfl | ⟨-, rfl⟩ | heffect
  · exact absurd hresp.symm (List.append_ne_nil_of_right_ne_nil _ (List.cons_ne_nil _ _))
  · simp at hresp
  · cases heffect with
    | silent _ hsame => simp [hsame] at hresp
    | answer oc _ _ hanswer hend =>
      rw [hanswer, List.append_cancel_left_eq, List.singleton_inj, Response.mk.injEq] at hresp
      exact hend (OutcomeCode.eq_controllerNotFound_of_code hresp.1)

/-- Under the invariant the base is 0 at an unresolved end (R84, R112). -/
theorem Inv.base_eq_zero_of_atUnresolvedEnd {s : State} (hinv : Inv s) (hend : s.AtUnresolvedEnd) : s.base = 0#16 := by
  obtain ⟨-, -, ⟨-, -, -, -, hpassDone⟩, ⟨-, -, -, -, -, -, htransDone⟩, -⟩ := hinv
  obtain ⟨ho, ht | ha⟩ := hend
  · by_contra hb
    simpa [ho] using (htransDone ht).2 hb
  · obtain ⟨-, hsuccess, -⟩ | ⟨hb, -, -⟩ := hpassDone ha
    · exact absurd (ho.symm.trans hsuccess) (by decide)
    · exact hb

/-- A transaction is in progress only with a resolved base (R84). -/
theorem Inv.base_ne_zero_of_active {s : State} (hinv : Inv s) (ha : s.tphase.active = true) : s.base ≠ 0#16 := by
  obtain ⟨-, -, -, ⟨hbase, -⟩, -⟩ := hinv
  exact hbase ha

/-- Settles O55: events are the transport sequencer's, which runs only with a resolved base, and code 1 is answered only
at an unresolved end. -/
theorem zeroBaseIsNeverAPortBase : Obligations.ZeroBaseIsNeverAPortBase := by
  intro s t hinv hstep
  refine ⟨fun hb => ?noEvent, fun payload hresp => ?onlyZero⟩
  case noEvent =>
    rcases step_transports_or_trace_eq hstep with ⟨hactive, -⟩ | htrace
    · exact absurd hb (hinv.base_ne_zero_of_active hactive)
    · exact htrace
  case onlyZero => exact hinv.base_eq_zero_of_atUnresolvedEnd (atUnresolvedEnd_of_step_responds hstep hresp)

/-- A read of the transport sequencer is of the status port, or it is phase T_DATA reading the answer (R86, R92, R95). -/
theorem State.transport_reads {s : State} {p : Port} {v : Byte} (ha : s.tphase.active = true)
    (h : s.transport.trace = s.trace ++ [.ior8 p v]) : p = s.stsPort ∨ (s.tphase = .data ∧ v = s.answer) := by
  cases ht : s.tphase <;> simp only [State.transport, ht] at h
  case idle | done => rw [ht] at ha; exact absurd ha (by decide)
  case clear | addr | cmd | start =>
    simp [State.clearStatus, State.writeAddr, State.writeCmd, State.writeStart] at h
  case arbStall | cmpStall => simp [State.arbStall_eq, State.cmpStall_eq] at h
  case arbRead | cmpRead =>
    obtain ⟨hport, -⟩ : s.stsPort = p ∧ s.answer = v := by simpa [State.arbRead_eq, State.cmpRead_eq] using h
    exact .inl hport.symm
  case data =>
    obtain ⟨-, hval⟩ : s.dat0Port = p ∧ s.answer = v := by simpa [State.readData] using h
    exact .inr ⟨rfl, hval.symm⟩

/-- Legal parameters put the data-low register and the status register at different ports (R3, R42). -/
theorem State.dat0Port_ne_stsPort {s : State} (hok : s.cfg.ok = true) : s.dat0Port ≠ s.stsPort := by
  have hdistinct : s.cfg.offsets.Nodup := by
    simp only [Params.ok, Bool.and_eq_true, Params.offsetsDistinct, decide_eq_true_eq] at hok
    exact hok.1.1.1.1
  intro hport
  have hoff : s.cfg.offDat0 = s.cfg.offSts := portAt_inj hport
  simp [Params.offsets, hoff] at hdistinct

/-- A clear error bit of a sample as the spec tests it (R3). -/
theorem errSet_eq_false_iff (p : Params) (v : Byte) : errSet p v = false ↔ v &&& p.mErr = 0#8 := bne_eq_false_iff_eq

/-- Settles O54: a step that reads data-low is the step of phase T_DATA, in which the invariant keeps the sample that
confirmed the completion. -/
theorem dataIsReadOnlyAfterConfirmation : Obligations.DataIsReadOnlyAfterConfirmation := by
  intro s t v hinv hstep hread
  obtain ⟨hactive, rfl⟩ | htrace := step_transports_or_trace_eq hstep
  case inr => simp [htrace] at hread
  obtain ⟨⟨hok, -⟩, -, -, ⟨-, -, -, -, -, hdata, -⟩, -⟩ := hinv
  obtain hport | ⟨ht, rfl⟩ := State.transport_reads hactive hread
  · exact absurd hport (State.dat0Port_ne_stsPort hok)
  · obtain ⟨herr, hintr, hlast⟩ := hdata ht
    have hdone : s.transport = s.readData := by simp only [State.transport, ht]
    rw [hdone]
    exact ⟨hlast, (intrSet_iff s.cfg s.sts).mp hintr, (errSet_eq_false_iff s.cfg s.sts).mp herr, rfl, rfl, rfl⟩

end Sys2Proof.Machine
end

section
/-! PROOFS. Encoding (R61, R63). The fields of the words the encoder gives, the cases of the decoder, and the match/mask
table read field by field; then the obligations from them. -/

namespace Sys2Proof

theorem encode_setbase_fields (base : BitVec 16) :
    opcodeField (encode (.setbase base)) = 0x01#8 ∧ (encode (.setbase base)).extractLsb' 16 8 = 0#8 ∧
      (encode (.setbase base)).extractLsb' 0 16 = base := by
  refine ⟨?_, ?_, ?_⟩ <;> ext k hk <;> interval_cases k <;> simp [encode, opcodeField]

theorem encode_rdbyte_fields (slave : BitVec 7) (offset : BitVec 8) :
    opcodeField (encode (.rdbyte slave offset)) = 0x02#8 ∧ (encode (.rdbyte slave offset)).extractLsb' 15 9 = 0#9 ∧
      (encode (.rdbyte slave offset)).extractLsb' 8 7 = slave ∧
      (encode (.rdbyte slave offset)).extractLsb' 0 8 = offset := by
  refine ⟨?_, ?_, ?_, ?_⟩ <;> ext k hk <;> interval_cases k <;> simp [encode, opcodeField]

theorem encode_summ_fields (slot : BitVec 3) :
    opcodeField (encode (.summ slot)) = 0x04#8 ∧ (encode (.summ slot)).extractLsb' 3 21 = 0#21 ∧
      (encode (.summ slot)).extractLsb' 0 3 = slot := by
  refine ⟨?_, ?_, ?_⟩ <;> ext k hk <;> interval_cases k <;> simp [encode, opcodeField]

theorem encode_ctla_fields (outLen : BitVec 24) :
    opcodeField (encode (.ctla outLen)) = 0x0A#8 ∧ (encode (.ctla outLen)).extractLsb' 0 24 = outLen := by
  refine ⟨?_, ?_⟩ <;> ext k hk <;> interval_cases k <;> simp [encode, opcodeField]

theorem encode_ctlb_fields (outLen : BitVec 24) :
    opcodeField (encode (.ctlb outLen)) = 0x0B#8 ∧ (encode (.ctlb outLen)).extractLsb' 0 24 = outLen := by
  refine ⟨?_, ?_⟩ <;> ext k hk <;> interval_cases k <;> simp [encode, opcodeField]

/-- The decoder reads the word of a command back (R61). -/
theorem decode_encode (i : Instr) : decode (encode i) = .ok i := by
  cases i with
  | setbase base =>
    obtain ⟨hop, hres, hbase⟩ := encode_setbase_fields base
    simp [decode, hop, hres, hbase]
  | rdbyte slave offset =>
    obtain ⟨hop, hres, hslave, hoffset⟩ := encode_rdbyte_fields slave offset
    simp [decode, hop, hres, hslave, hoffset]
  | acqall => rfl
  | summ slot =>
    obtain ⟨hop, hres, hslot⟩ := encode_summ_fields slot
    simp [decode, hop, hres, hslot]
  | ctla outLen =>
    obtain ⟨hop, hlen⟩ := encode_ctla_fields outLen
    simp [decode, hop, hlen]
  | ctlb outLen =>
    obtain ⟨hop, hlen⟩ := encode_ctlb_fields outLen
    simp [decode, hop, hlen]

/-- Settles O1: the word by the fields of each command, its bytes by the byte order of the command port. -/
theorem decodeOfEncodeIsTheCommand : Obligations.DecodeOfEncodeIsTheCommand := by
  intro i rest
  refine ⟨decode_encode i, ?_⟩
  rw [encodeBytes, decodeBytes_bytesOfWord, decode_encode i]

/-- The four opcodes whose words have reserved bits (R61). -/
def opcodesWithReservedBits : List Byte := [0x01#8, 0x02#8, 0x03#8, 0x04#8]

/-- The six opcodes (R61). -/
def opcodes : List Byte := [0x01#8, 0x02#8, 0x03#8, 0x04#8, 0x0A#8, 0x0B#8]

/-- What the decoder can answer of a word, with the fields it has tested (R61, R63). -/
inductive DecodeCase (w : Word) : Except Reject Instr → Prop where
  | setbase : opcodeField w = 0x01#8 → w.extractLsb' 16 8 = 0#8 → DecodeCase w (.ok (.setbase (w.extractLsb' 0 16)))
  | rdbyte : opcodeField w = 0x02#8 → w.extractLsb' 15 9 = 0#9 →
      DecodeCase w (.ok (.rdbyte (w.extractLsb' 8 7) (w.extractLsb' 0 8)))
  | acqall : opcodeField w = 0x03#8 → w.extractLsb' 0 24 = 0#24 → DecodeCase w (.ok .acqall)
  | summ : opcodeField w = 0x04#8 → w.extractLsb' 3 21 = 0#21 → DecodeCase w (.ok (.summ (w.extractLsb' 0 3)))
  | ctla : opcodeField w = 0x0A#8 → DecodeCase w (.ok (.ctla (w.extractLsb' 0 24)))
  | ctlb : opcodeField w = 0x0B#8 → DecodeCase w (.ok (.ctlb (w.extractLsb' 0 24)))
  | reserved : opcodeField w ∈ opcodesWithReservedBits → DecodeCase w (.error (.reservedBits (opcodeField w)))
  | unknown : opcodeField w ∉ opcodes → DecodeCase w (.error (.unknownOpcode (opcodeField w)))

theorem decode_cases (w : Word) : DecodeCase w (decode w) := by
  unfold decode
  extract_lets op
  split_ifs with h1 hr h2 hr h3 hr h4 hr hA hB
  · exact .setbase h1 hr
  · exact .reserved (by rw [show opcodeField w = _ from h1]; decide)
  · exact .rdbyte h2 hr
  · exact .reserved (by rw [show opcodeField w = _ from h2]; decide)
  · exact .acqall h3 hr
  · exact .reserved (by rw [show opcodeField w = _ from h3]; decide)
  · exact .summ h4 hr
  · exact .reserved (by rw [show opcodeField w = _ from h4]; decide)
  · exact .ctla hA
  · exact .ctlb hB
  · exact .unknown (by simp only [opcodes, List.mem_cons, List.not_mem_nil, or_false]; tauto)

/-- Words that agree in two neighbouring fields agree in the field that these make. -/
theorem field_join {v w : Word} (lo len len' : Nat)
    (hhigh : v.extractLsb' (lo + len) len' = w.extractLsb' (lo + len) len')
    (hlow : v.extractLsb' lo len = w.extractLsb' lo len) :
    v.extractLsb' lo (len' + len) = w.extractLsb' lo (len' + len) := by
  rw [← BitVec.extractLsb'_append_extractLsb'_eq_extractLsb' rfl,
    ← BitVec.extractLsb'_append_extractLsb'_eq_extractLsb' rfl, hhigh, hlow]

/-- A word is its opcode and its 24 operand bits (R61). -/
theorem eq_of_opcode_operand {v w : Word} (hop : opcodeField v = opcodeField w)
    (hoperand : v.extractLsb' 0 24 = w.extractLsb' 0 24) : v = w := by
  have hwhole : v.extractLsb' 0 32 = w.extractLsb' 0 32 := field_join 0 24 8 hop hoperand
  rwa [BitVec.extractLsb'_eq_self, BitVec.extractLsb'_eq_self] at hwhole

/-- The encoder gives back a word that decodes (R61, R63). -/
theorem encode_of_decode {w : Word} {i : Instr} (h : decode w = .ok i) : encode i = w := by
  have hcase := decode_cases w
  rw [h] at hcase
  cases hcase with
  | setbase hop hres =>
    obtain ⟨hop', hres', hbase⟩ := encode_setbase_fields (w.extractLsb' 0 16)
    exact eq_of_opcode_operand (hop'.trans hop.symm) (field_join 0 16 8 (hres'.trans hres.symm) hbase)
  | rdbyte hop hres =>
    obtain ⟨hop', hres', hslave, hoffset⟩ := encode_rdbyte_fields (w.extractLsb' 8 7) (w.extractLsb' 0 8)
    exact eq_of_opcode_operand (hop'.trans hop.symm)
      (field_join 0 15 9 (hres'.trans hres.symm) (field_join 0 8 7 hslave hoffset))
  | acqall hop hres => exact eq_of_opcode_operand hop.symm hres.symm
  | summ hop hres =>
    obtain ⟨hop', hres', hslot⟩ := encode_summ_fields (w.extractLsb' 0 3)
    exact eq_of_opcode_operand (hop'.trans hop.symm) (field_join 0 3 21 (hres'.trans hres.symm) hslot)
  | ctla hop =>
    obtain ⟨hop', hlen⟩ := encode_ctla_fields (w.extractLsb' 0 24)
    exact eq_of_opcode_operand (hop'.trans hop.symm) hlen
  | ctlb hop =>
    obtain ⟨hop', hlen⟩ := encode_ctlb_fields (w.extractLsb' 0 24)
    exact eq_of_opcode_operand (hop'.trans hop.symm) hlen

/-- Settles O2: the fields the decoder tests and those it keeps make up the whole word. -/
theorem encodeOfDecodedWordIsTheWord : Obligations.EncodeOfDecodedWordIsTheWord := fun _ _ => encode_of_decode

/-- A field that the mask of a row covers is the pattern's in every word of the row (R61). -/
theorem field_of_accepts {r : OpcodeRow} {w : Word} (h : r.accepts w = true) {start len : Nat}
    (hmask : r.mask.extractLsb' start len = BitVec.allOnes len) :
    w.extractLsb' start len = r.pattern.extractLsb' start len := by
  rw [← beq_iff_eq.mp h, BitVec.extractLsb'_and, hmask, BitVec.and_allOnes]

/-- Every row's mask covers the opcode, so a word of the row has the opcode of its pattern (R61). -/
theorem opcodeField_of_accepts {r : OpcodeRow} {w : Word} (hr : r ∈ opcodeTable) (h : r.accepts w = true) :
    opcodeField w = opcodeField r.pattern := by
  have hmask : ∀ r ∈ opcodeTable, r.mask.extractLsb' 24 8 = BitVec.allOnes 8 := by decide
  exact field_of_accepts h (hmask r hr)

/-- The rows have different opcodes, so a word matches at most one (R61). -/
theorem accepts_unique {r r' : OpcodeRow} {w : Word} (hr : r ∈ opcodeTable) (hr' : r' ∈ opcodeTable)
    (h : r.accepts w = true) (h' : r'.accepts w = true) : r = r' := by
  have hdistinct : ∀ r ∈ opcodeTable, ∀ r' ∈ opcodeTable, opcodeField r.pattern = opcodeField r'.pattern → r = r' := by
    decide
  exact hdistinct r hr r' hr' ((opcodeField_of_accepts hr h).symm.trans (opcodeField_of_accepts hr' h'))

theorem Instr.row_mem (i : Instr) : i.row ∈ opcodeTable := by
  cases i <;> simp [Instr.row, opcodeTable]

theorem Instr.row_accepts_encode (i : Instr) : i.row.accepts (encode i) = true :=
  match i with
  | .setbase base => Laws.EncodeMatchesItsRow.setbase base
  | .rdbyte slave offset => Laws.EncodeMatchesItsRow.rdbyte slave offset
  | .acqall => Laws.EncodeMatchesItsRow.acqall
  | .summ slot => Laws.EncodeMatchesItsRow.summ slot
  | .ctla outLen => Laws.EncodeMatchesItsRow.ctla outLen
  | .ctlb outLen => Laws.EncodeMatchesItsRow.ctlb outLen

/-- A word that decodes matches the row of its command (R61). -/
theorem row_accepts_of_decode {w : Word} {i : Instr} (h : decode w = .ok i) : i.row.accepts w = true :=
  encode_of_decode h ▸ i.row_accepts_encode

/-- A word that matches a row decodes: its opcode is the row's, and its reserved bits are 0 (R61, R63). -/
theorem decode_of_accepts {r : OpcodeRow} {w : Word} (hr : r ∈ opcodeTable) (h : r.accepts w = true) :
    ∃ i, decode w = .ok i := by
  have hop := opcodeField_of_accepts hr h
  simp only [opcodeTable, List.mem_cons, List.not_mem_nil, or_false] at hr
  rcases hr with rfl | rfl | rfl | rfl | rfl | rfl
  · have hop : opcodeField w = 0x01#8 := hop
    have hres : w.extractLsb' 16 8 = 0#8 := field_of_accepts h (by decide)
    simp [decode, hop, hres]
  · have hop : opcodeField w = 0x02#8 := hop
    have hres : w.extractLsb' 15 9 = 0#9 := field_of_accepts h (by decide)
    simp [decode, hop, hres]
  · have hop : opcodeField w = 0x03#8 := hop
    have hres : w.extractLsb' 0 24 = 0#24 := field_of_accepts h (by decide)
    simp [decode, hop, hres]
  · have hop : opcodeField w = 0x04#8 := hop
    have hres : w.extractLsb' 3 21 = 0#21 := field_of_accepts h (by decide)
    simp [decode, hop, hres]
  · have hop : opcodeField w = 0x0A#8 := hop
    simp [decode, hop]
  · have hop : opcodeField w = 0x0B#8 := hop
    simp [decode, hop]

/-- A word is a command word exactly if it decodes (R63). -/
theorem isCommandWord_iff (w : Word) : isCommandWord w = true ↔ ∃ i, decode w = .ok i := by
  rw [isCommandWord, List.any_eq_true]
  exact ⟨fun ⟨r, hr, h⟩ => decode_of_accepts hr h, fun ⟨i, h⟩ => ⟨i.row, i.row_mem, row_accepts_of_decode h⟩⟩

/-- Settles O3: the row of the command matches, the opcode excludes every other row, and the two rejections are the last
two cases of the decoder. -/
theorem decodedWordsAreTheTableRows : Obligations.DecodedWordsAreTheTableRows := by
  intro w
  refine ⟨isCommandWord_iff w, fun i h => ?row, fun op h => ?unknown, fun op h => ?reserved⟩
  case row =>
    have hacc := row_accepts_of_decode h
    exact ⟨i.row_mem, hacc, fun r hr hr' => accepts_unique hr i.row_mem hr' hacc⟩
  all_goals
    have hcase := decode_cases w
    rw [h] at hcase
  case unknown =>
    cases hcase with
    | unknown hnot => exact ⟨rfl, hnot⟩
  case reserved =>
    cases hcase with
    | reserved hmem => exact ⟨rfl, hmem⟩

/-- Settles O4, by evaluation of the decoder on the eight words. -/
theorem sampleWordsDecode : Obligations.SampleWordsDecode := by
  unfold Obligations.SampleWordsDecode
  decide

end Sys2Proof
end

section
/-! PROOFS. The invariant (R14 to R18). The records of the image file under each write, the registers of each sequencer
under each of its steps, and from them the invariant after the step of a command; then the obligations. -/

namespace Sys2Proof.Machine

/-! ### Records and the image file -/

theorem imageOk_emptyImage (i : Fin 8) : ImageOk i (emptyImage (BitVec.ofNat 3 i.val)) :=
  ⟨rfl, Memory.wf_nil, .inl rfl, fun _ => rfl, nofun⟩

/-- Classification of an empty record (R114). -/
theorem imageOk_setLength_emptyImage (i : Fin 8) {n : Nat} (hn : n = lenLegacy ∨ n = lenBig) :
    ImageOk i ((emptyImage (BitVec.ofNat 3 i.val)).setLength n) :=
  ⟨rfl, Memory.wf_nil, .inr hn, fun _ => rfl, nofun⟩

/-- A byte stored below `length` (R116). -/
theorem ImageOk.setByte {i : Fin 8} {im : SpdImage} (h : ImageOk i im) {o : Nat} (ho : o < im.length) (v : Byte) :
    ImageOk i (im.setByte o v) := by
  obtain ⟨hslot, hwf, hlen, hvalid, hbelow⟩ := h
  refine ⟨hslot, Memory.wf_write hwf o v, hlen, hvalid, fun c hc => ?_⟩
  rcases Memory.mem_write hc with rfl | hc
  · exact ho
  · exact hbelow c hc

/-- A record with a length may become valid (R118). -/
theorem ImageOk.markValid {i : Fin 8} {im : SpdImage} (h : ImageOk i im) (hne : im.length ≠ 0) :
    ImageOk i im.markValid := by
  obtain ⟨hslot, hwf, hlen, -, hbelow⟩ := h
  exact ⟨hslot, hwf, hlen, fun h0 => absurd h0 hne, hbelow⟩

theorem imagesOk_of_emptyImages {s : State} (h : s.img = emptyImages) : ImagesOk s := by
  intro i
  rw [h, emptyImages_get]
  exact imageOk_emptyImage i

theorem ImagesOk.updateImage {s : State} (h : ImagesOk s) {k : Nat} {f : SpdImage → SpdImage}
    (hf : ∀ i : Fin 8, i.val = k → ImageOk i (f s.img[i])) : ImagesOk (s.updateImage k f) := by
  intro i
  by_cases hi : i.val = k
  · rw [State.updateImage_same s k f i hi]; exact hf i hi
  · rw [State.updateImage_other s k f i hi]; exact h i

theorem EmptyFrom.mono {s : State} {k n : Nat} (h : EmptyFrom s k) (hkn : k ≤ n) : EmptyFrom s n :=
  fun i hi => h i (hkn.trans hi)

theorem EmptyFrom.updateImage {s : State} {k n : Nat} (h : EmptyFrom s n) (hk : k < n) (f : SpdImage → SpdImage) :
    EmptyFrom (s.updateImage k f) n := by
  intro i hi
  rw [State.updateImage_other s k f i (by omega)]
  exact h i hi

theorem emptyFrom_of_emptyImages {s : State} (h : s.img = emptyImages) (k : Nat) : EmptyFrom s k := by
  intro i _
  rw [h, emptyImages_get]

theorem classifyLength_cases (b : Byte) : classifyLength b = lenLegacy ∨ classifyLength b = lenBig := by
  unfold classifyLength
  split
  · exact .inr rfl
  · exact .inl rfl

/-! ### The two sequencers -/

theorem transportOk_of_idle {s : State} (ht : s.tphase = .idle) : TransportOk s := by
  simp [TransportOk, ht, TPhase.active]

/-- The start of a transaction: with a resolved base the arbitration budget is new, without one the outcome is known
(R84). -/
theorem transportOk_startTransaction (s : State) (slave : SlaveAddr) (offset : Byte) :
    TransportOk (s.startTransaction slave offset) := by
  by_cases hb : s.base = 0#16
  · rw [State.startTransaction_unresolved hb]
    simp [TransportOk, TPhase.active, hb]
  · rw [State.startTransaction_resolved hb]
    simp [TransportOk, TPhase.active, hb, pollBudget]

/-- Every step of the transport sequencer keeps its registers in order (R86 to R96). -/
theorem TransportOk.transport {s : State} (h : TransportOk s) (hactive : s.tphase.active = true) :
    TransportOk s.transport := by
  obtain ⟨hbase, harb, hcmp, -, hstall, hdata, -⟩ := h
  have hb : s.base ≠ 0#16 := hbase hactive
  cases ht : s.tphase <;> simp only [State.transport, ht]
  case idle | done => rw [ht] at hactive; exact absurd hactive (by decide)
  case arbRead =>
    have hlt := harb (.inl ht)
    rw [State.arbRead_eq]
    by_cases hbusy : s.answer &&& s.cfg.mBusy = 0#8 <;>
      simp [TransportOk, TPhase.active, busySet_iff, hbusy, hb, hlt]
  case arbStall =>
    have hlt := harb (.inr ht)
    rw [State.arbStall_eq]
    by_cases hlast : s.arbcnt + 1 = pollBudget
    · simp [TransportOk, TPhase.active, hlast, hb]
    · simp [TransportOk, TPhase.active, hlast, hb]; omega
  case clear | addr | cmd => simp [TransportOk, TPhase.active, State.clearStatus, State.writeAddr, State.writeCmd, hb]
  case start => simp [TransportOk, TPhase.active, State.writeStart, hb, pollBudget]
  case cmpRead =>
    have hlt := hcmp (.inl ht)
    rw [State.cmpRead_eq]
    by_cases herr : s.answer &&& s.cfg.mErr = 0#8
    · by_cases hintr : s.answer &&& s.cfg.mIntr = 0#8 <;>
        simp [TransportOk, TPhase.active, errSet, intrSet, herr, hintr, hb, hlt, State.stsPort]
    · simp [TransportOk, TPhase.active, herr, hb]
  case cmpStall =>
    have hlt := hcmp (.inr ht)
    rw [State.cmpStall_eq]
    by_cases hlast : s.cmpcnt + 1 = pollBudget
    · simp [TransportOk, TPhase.active, hlast, hb]
    · simp [TransportOk, TPhase.active, hlast, hb]; omega
  case data => simp [TransportOk, TPhase.active, State.readData, hb]

/-- A stall spends an iteration of the arbitration budget (R86). -/
theorem State.transport_arbcnt (s : State) :
    s.transport.arbcnt = if s.tphase = .arbStall then s.arbcnt + 1 else s.arbcnt := by
  cases ht : s.tphase <;>
    simp [State.transport, ht, State.arbRead_eq, State.arbStall_eq, State.clearStatus, State.writeAddr, State.writeCmd,
      State.writeStart, State.cmpRead_eq, State.cmpStall_eq, State.readData]

/-- A stall spends an iteration of the completion budget, which is new after the start (R91, R93). -/
theorem State.transport_cmpcnt (s : State) :
    s.transport.cmpcnt = if s.tphase = .start then 0 else if s.tphase = .cmpStall then s.cmpcnt + 1 else s.cmpcnt := by
  cases ht : s.tphase <;>
    simp [State.transport, ht, State.arbRead_eq, State.arbStall_eq, State.clearStatus, State.writeAddr, State.writeCmd,
      State.writeStart, State.cmpRead_eq, State.cmpStall_eq, State.readData]

/-- Every step of the transport sequencer keeps the counters within their budgets (R15). -/
theorem RangesOk.transport {s : State} (h : RangesOk s) (htrans : TransportOk s) : RangesOk s.transport := by
  obtain ⟨hok, hslot, hidx, hlen, harb, hcmp⟩ := h
  obtain ⟨-, harb', hcmp', -⟩ := htrans
  refine ⟨by simpa using hok, by simpa using hslot, by simpa using hidx, by simpa using hlen, ?_, ?_⟩
  · rw [State.transport_arbcnt]
    split
    · exact harb' (.inr ‹_›)
    · exact harb
  · rw [State.transport_cmpcnt]
    split_ifs with hstart hstall
    · exact Nat.zero_le _
    · exact hcmp' (.inr hstall)
    · exact hcmp

/-- A transaction in progress does not become T_IDLE by its own event (R97). -/
theorem transport_tphase_ne_idle {s : State} (hactive : s.tphase.active = true) : s.transport.tphase ≠ .idle := by
  cases ht : s.tphase <;> simp only [State.transport, ht]
  case idle | done => rw [ht] at hactive; exact absurd hactive (by decide)
  all_goals
    simp only [State.arbRead_eq, State.arbStall_eq, State.clearStatus, State.writeAddr, State.writeCmd,
      State.writeStart, State.cmpRead_eq, State.cmpStall_eq, State.readData]
    (repeat' split) <;> simp

/-! ### The cases of the steps of a pass -/

/-- With BASE = 0 the pass ends after the clear (R112). -/
theorem State.beginPass_unresolved {s : State} (hb : s.base = 0#16) :
    s.beginPass = { s with img := emptyImages, outcome := .controllerNotFound, aphase := .done } := by
  rw [State.beginPass, if_pos hb]; rfl

/-- With a resolved base the first slot follows the clear (R111, R121). -/
theorem State.beginPass_resolved {s : State} (hb : s.base ≠ 0#16) :
    s.beginPass = { s with img := emptyImages, slot := 0, idx := 0, len := 0, aphase := .hdr } := by
  rw [State.beginPass, if_neg hb]; rfl

/-- A slot that is not the last: the next one follows (R119). -/
theorem State.nextSlot_more {s : State} (hmore : s.slot + 1 < nSlots) :
    s.nextSlot = { s with slot := s.slot + 1, idx := 0, len := 0, aphase := .hdr } := by
  rw [State.nextSlot, if_pos hmore]

/-- The last slot: the pass is complete (R119, R124). -/
theorem State.nextSlot_last {s : State} (hlast : ¬ s.slot + 1 < nSlots) :
    s.nextSlot = { s with slot := nSlots, outcome := .success, aphase := .done } := by
  rw [State.nextSlot, if_neg hlast]

/-- A byte that is not the last of the body: it is stored, and the next offset follows (R116). -/
theorem State.takeBodyByte_more {s : State} (ho : s.outcome = .success) (hmore : s.idx + 1 < s.len) :
    s.takeBodyByte =
      { s.updateImage s.slot (SpdImage.setByte s.idx s.result) with tphase := .idle, idx := s.idx + 1 } := by
  rw [State.takeBodyByte, if_pos ho, if_pos hmore]; rfl

/-- The last byte of the body: it is stored, and the record is valid (R116, R118). -/
theorem State.takeBodyByte_last {s : State} (ho : s.outcome = .success) (hlast : ¬ s.idx + 1 < s.len) :
    s.takeBodyByte =
      { s.updateImage s.slot (fun im => (im.setByte s.idx s.result).markValid) with
        tphase := .idle, aphase := .next } := by
  rw [State.takeBodyByte, if_pos ho, if_neg hlast]; rfl

/-- No byte obtained: the slot ends, and its record stays as it stands (R115, R125). -/
theorem State.takeBodyByte_failed {s : State} (ho : s.outcome ≠ .success) :
    s.takeBodyByte = { s with tphase := .idle, aphase := .next } := by
  rw [State.takeBodyByte, if_neg ho, State.handOver]

/-! ### The registers of a pass, in a known phase -/

section Phase

variable {s : State}

theorem passOk_of_hdr (ha : s.aphase = .hdr) (h : HdrOk s) : PassOk s := by simp [PassOk, ha, h]

theorem passOk_of_classify (ha : s.aphase = .classify) (h : ClassifyOk s) : PassOk s := by simp [PassOk, ha, h]

theorem passOk_of_body (ha : s.aphase = .body) (h : BodyOk s) : PassOk s := by simp [PassOk, ha, h]

theorem passOk_of_next (ha : s.aphase = .next) (h : NextOk s) : PassOk s := by simp [PassOk, ha, h]

theorem passOk_of_done (ha : s.aphase = .done) (h : DoneOk s) : PassOk s := by simp [PassOk, ha, h]

theorem PassOk.hdrOk (h : PassOk s) (ha : s.aphase = .hdr) : HdrOk s := h.1 ha

theorem PassOk.classifyOk (h : PassOk s) (ha : s.aphase = .classify) : ClassifyOk s := h.2.1 ha

theorem PassOk.bodyOk (h : PassOk s) (ha : s.aphase = .body) : BodyOk s := h.2.2.1 ha

theorem PassOk.nextOk (h : PassOk s) (ha : s.aphase = .next) : NextOk s := h.2.2.2.1 ha

/-- In the two reading phases the registers of a pass are in order whatever a transaction does (R100). -/
theorem PassOk.of_reading {t : State} (h : PassOk s) (ha : s.aphase = .hdr ∨ s.aphase = .body)
    (hsame : t = { s with
      slave := t.slave, offset := t.offset, result := t.result, outcome := t.outcome, sts := t.sts, tphase := t.tphase,
      arbcnt := t.arbcnt, cmpcnt := t.cmpcnt, io := t.io, trace := t.trace }) : PassOk t := by
  rw [hsame]
  rcases ha with ha | ha
  · exact passOk_of_hdr ha (h.hdrOk ha)
  · exact passOk_of_body ha (h.bodyOk ha)

end Phase

/-! ### The steps of a command -/

/-- An idle, unlocked engine needs only its ranges and its records in order (R16). -/
theorem inv_of_idle {s : State} (hranges : RangesOk s) (himages : ImagesOk s) (ht : s.tphase = .idle)
    (ha : s.aphase = .idle) (hl : s.lock = false) : Inv s := by
  refine ⟨hranges, himages, ?_, transportOk_of_idle ht, fun _ => ⟨ht, ha⟩, ?_, fun hne => absurd ht hne⟩
  · simp [PassOk, ha]
  · simp [hl]

/-- A state in which the engine is about to make a step of command `i`: its first, in an idle engine, or one of those
that follow (R16, R168). -/
structure CommandReady (i : Instr) (s : State) : Prop where
  ranges : RangesOk s
  images : ImagesOk s
  pass : PassOk s
  transport : TransportOk s
  locked : s.lock = true
  decodes : decode s.cmdw = .ok i
  runs : commandRuns i s = true ∨ (s.tphase = .idle ∧ s.aphase = .idle)
  reads : s.tphase ≠ .idle → s.aphase ≠ .idle →
    (s.aphase = .hdr ∨ s.aphase = .body) ∧ s.slave = slotSlave s.slot ∧ s.offset = idxByte s.idx

theorem Inv.ready_of_locked {s : State} {i : Instr} (h : Inv s) (hl : s.lock = true) (hd : decode s.cmdw = .ok i) :
    CommandReady i s := by
  obtain ⟨hranges, himages, hpass, htrans, -, hruns, hreads⟩ := h
  have hrun := hruns hl
  simp only [cmdwRuns, hd] at hrun
  exact ⟨hranges, himages, hpass, htrans, hl, hd, .inl hrun, hreads⟩

theorem Inv.ready_of_accept {s : State} {i : Instr} {w : Word} (h : Inv s) (hl : s.lock = false)
    (hd : decode w = .ok i) (rest : List Word) : CommandReady i (s.accept w rest) := by
  obtain ⟨hranges, himages, hpass, htrans, hidle, -, hreads⟩ := h
  exact ⟨hranges, himages, hpass, htrans, rfl, hd, .inr (hidle hl), hreads⟩

/-- A response leaves the engine idle and unlocked (R189). -/
theorem inv_respond {s : State} (hranges : RangesOk s) (himages : ImagesOk s) (oc : OutcomeCode)
    (payload : List Byte) : Inv (s.respond oc payload) :=
  inv_of_idle hranges himages rfl rfl rfl

section Pass

variable {i : Instr} {s t : State} {finish : State → State}

/-- The invariant inside a pass: command `i` is one that runs in every acquisition phase but A_IDLE. -/
theorem inv_of_pass (hi : ∀ u : State, commandRuns i u = decide (u.aphase ≠ .idle)) (hl : t.lock = true)
    (hd : decode t.cmdw = .ok i) (ha : t.aphase ≠ .idle) (hranges : RangesOk t) (himages : ImagesOk t)
    (hpass : PassOk t) (htrans : TransportOk t)
    (hreads : t.tphase ≠ .idle →
      (t.aphase = .hdr ∨ t.aphase = .body) ∧ t.slave = slotSlave t.slot ∧ t.offset = idxByte t.idx) : Inv t := by
  refine ⟨hranges, himages, hpass, htrans, ?_, fun _ => ?_, fun ht _ => hreads ht⟩
  · simp [hl]
  · simp [cmdwRuns, hd, hi, ha]

/-- The same, with no transaction in progress. -/
theorem inv_of_pass_between (hi : ∀ u : State, commandRuns i u = decide (u.aphase ≠ .idle)) (hl : t.lock = true)
    (hd : decode t.cmdw = .ok i) (ht : t.tphase = .idle) (ha : t.aphase ≠ .idle) (hranges : RangesOk t)
    (himages : ImagesOk t) (hpass : PassOk t) : Inv t :=
  inv_of_pass hi hl hd ha hranges himages hpass (transportOk_of_idle ht) fun hne => absurd ht hne

/-- Outside the two reading phases of a pass no transaction is in progress (R121). -/
theorem CommandReady.tphase_idle (h : CommandReady i s) (hidle : s.aphase ≠ .idle) (hhdr : s.aphase ≠ .hdr)
    (hbody : s.aphase ≠ .body) : s.tphase = .idle := by
  by_contra ht
  rcases (h.reads ht hidle).1 with ha | ha
  · exact hhdr ha
  · exact hbody ha

variable (hi : ∀ u : State, commandRuns i u = decide (u.aphase ≠ .idle)) (h : CommandReady i s)
include hi h

theorem CommandReady.inv_enter (ha : s.aphase = .idle) : Inv { s with aphase := .clear } := by
  have ht : s.tphase = .idle := by
    rcases h.runs with hrun | ⟨ht, -⟩
    · simp [hi, ha] at hrun
    · exact ht
  exact inv_of_pass_between hi h.locked h.decodes ht nofun h.ranges h.images (by simp [PassOk])

/-- The clear leaves the file empty, for the first slot or for the end of an aborted pass (R111, R112). -/
theorem CommandReady.inv_beginPass (ha : s.aphase = .clear) : Inv s.beginPass := by
  have ht : s.tphase = .idle := h.tphase_idle (by simp [ha]) (by simp [ha]) (by simp [ha])
  obtain ⟨hok, -, -, -, harb, hcmp⟩ := h.ranges
  have hslot0 : 0 < nSlots := by decide
  have hidx0 : 0 < hdrLen := by decide
  by_cases hb : s.base = 0#16
  · rw [State.beginPass_unresolved hb]
    exact inv_of_pass_between hi h.locked h.decodes ht nofun h.ranges (imagesOk_of_emptyImages rfl)
      (passOk_of_done rfl (.inr ⟨hb, rfl, emptyFrom_of_emptyImages rfl 0⟩))
  · rw [State.beginPass_resolved hb]
    exact inv_of_pass_between hi h.locked h.decodes ht nofun
      ⟨hok, Nat.zero_le _, Nat.zero_le _, .inl rfl, harb, hcmp⟩ (imagesOk_of_emptyImages rfl)
      (passOk_of_hdr rfl ⟨hslot0, hb, hidx0, rfl, emptyFrom_of_emptyImages rfl 0⟩)

/-- A reading phase starts the transaction for byte IDX of slot SLOT (R113, R116). -/
theorem CommandReady.inv_startTransaction (ha : s.aphase = .hdr ∨ s.aphase = .body) (hb : s.base ≠ 0#16) :
    Inv (s.startTransaction (slotSlave s.slot) (idxByte s.idx)) := by
  have htrans := transportOk_startTransaction s (slotSlave s.slot) (idxByte s.idx)
  rw [State.startTransaction_resolved hb] at htrans ⊢
  obtain ⟨hok, hslot, hidx, hlen, -, hcmp⟩ := h.ranges
  have hne : s.aphase ≠ .idle := by rcases ha with ha | ha <;> simp [ha]
  exact inv_of_pass hi h.locked h.decodes hne ⟨hok, hslot, hidx, hlen, Nat.zero_le _, hcmp⟩ h.images
    (h.pass.of_reading ha rfl) htrans fun _ => ⟨ha, rfl, rfl⟩

/-- A header byte is obtained, or the slot ends with its record still empty (R113, R115, R120). -/
theorem CommandReady.inv_takeHeaderByte (ha : s.aphase = .hdr) : Inv s.takeHeaderByte := by
  obtain ⟨hslot, hb, hidx, hlen, hempty⟩ := h.pass.hdrOk ha
  obtain ⟨hok, hslot8, -, hlen3, harb, hcmp⟩ := h.ranges
  have hne : s.aphase ≠ .idle := by simp [ha]
  by_cases ho : s.outcome = .success
  · by_cases hmore : s.idx + 1 < hdrLen
    · rw [State.takeHeaderByte_more ho hmore]
      have hcap : s.idx + 1 ≤ imgCap := hmore.le.trans (by decide)
      exact inv_of_pass_between hi h.locked h.decodes rfl hne ⟨hok, hslot8, hcap, hlen3, harb, hcmp⟩ h.images
        (passOk_of_hdr ha ⟨hslot, hb, hmore, hlen, hempty⟩)
    · rw [State.takeHeaderByte_last ho hmore]
      exact inv_of_pass_between hi h.locked h.decodes rfl nofun h.ranges h.images
        (passOk_of_classify rfl ⟨hslot, hb, hempty⟩)
  · rw [State.takeHeaderByte_failed ho]
    exact inv_of_pass_between hi h.locked h.decodes rfl nofun h.ranges h.images
      (passOk_of_next rfl ⟨hslot, hb, hempty.mono (Nat.le_succ _)⟩)

/-- The empty record of the slot takes the classified length (R114). -/
theorem CommandReady.inv_classify (ha : s.aphase = .classify) : Inv s.classify := by
  obtain ⟨hslot, hb, hempty⟩ := h.pass.classifyOk ha
  obtain ⟨hok, hslot8, -, -, harb, hcmp⟩ := h.ranges
  have ht : s.tphase = .idle := h.tphase_idle (by simp [ha]) (by simp [ha]) (by simp [ha])
  have hlen := classifyLength_cases s.hdr[2]
  have hpos : 0 < classifyLength s.hdr[2] := by rcases hlen with hlen | hlen <;> rw [hlen] <;> decide
  have hrecord (j : Fin 8) (hj : j.val = s.slot) : s.img[j] = emptyImage (BitVec.ofNat 3 j.val) := hempty j hj.ge
  refine inv_of_pass_between hi h.locked h.decodes ht nofun ⟨hok, hslot8, Nat.zero_le _, .inr hlen, harb, hcmp⟩
    (h.images.updateImage fun j hj => ?image)
    (passOk_of_body rfl ⟨hslot, hb, hlen, hpos, fun j hj => ?record, ?later⟩)
  case image =>
    rw [hrecord j hj]
    exact imageOk_setLength_emptyImage j hlen
  case record =>
    have hnew := (State.updateImage_same s s.slot (SpdImage.setLength (classifyLength s.hdr[2])) j hj)
    rw [hrecord j hj] at hnew
    exact ⟨congrArg SpdImage.length hnew, congrArg SpdImage.valid hnew, by
      rw [show s.classify.img[j].bytes = [] from congrArg SpdImage.bytes hnew]; nofun⟩
  case later => exact (hempty.mono (Nat.le_succ _)).updateImage (Nat.lt_succ_self _) _

/-- A body byte is stored in the record of the slot, which the last one makes valid, or the slot ends (R115, R116,
R118). -/
theorem CommandReady.inv_takeBodyByte (ha : s.aphase = .body) : Inv s.takeBodyByte := by
  obtain ⟨hslot, hb, hlen, hidx, hrecord, hempty⟩ := h.pass.bodyOk ha
  obtain ⟨hok, hslot8, -, hlen3, harb, hcmp⟩ := h.ranges
  have hlater (f : SpdImage → SpdImage) : EmptyFrom (s.updateImage s.slot f) (s.slot + 1) :=
    hempty.updateImage (Nat.lt_succ_self _) f
  have hstore (j : Fin 8) (hj : j.val = s.slot) : ImageOk j (s.img[j].setByte s.idx s.result) :=
    (h.images j).setByte ((hrecord j hj).1 ▸ hidx) s.result
  by_cases ho : s.outcome = .success
  · by_cases hmore : s.idx + 1 < s.len
    · rw [State.takeBodyByte_more ho hmore]
      have hcap : s.idx + 1 ≤ imgCap := by
        rcases hlen with hlen | hlen <;> rw [hlen] at hmore <;> exact hmore.le.trans (by decide)
      refine inv_of_pass_between hi h.locked h.decodes rfl (by simp [ha]) ⟨hok, hslot8, hcap, hlen3, harb, hcmp⟩
        (h.images.updateImage hstore) (passOk_of_body ha ⟨hslot, hb, hlen, hmore, fun j hj => ?_, hlater _⟩)
      have hnew := State.updateImage_same s s.slot (SpdImage.setByte s.idx s.result) j hj
      obtain ⟨hlength, hvalid, hbelow⟩ := hrecord j hj
      refine ⟨(congrArg SpdImage.length hnew).trans hlength, (congrArg SpdImage.valid hnew).trans hvalid,
        fun c hc => ?_⟩
      rcases Memory.mem_write ((congrArg (c ∈ SpdImage.bytes ·) hnew).mp hc) with rfl | hc
      · exact Nat.lt_succ_self _
      · exact (hbelow c hc).trans (Nat.lt_succ_self _)
    · rw [State.takeBodyByte_last ho hmore]
      have hlength (j : Fin 8) (hj : j.val = s.slot) : s.img[j].length ≠ 0 :=
        (hrecord j hj).1 ▸ (Nat.zero_lt_of_lt hidx).ne'
      exact inv_of_pass_between hi h.locked h.decodes rfl nofun h.ranges
        (h.images.updateImage (f := fun im => (im.setByte s.idx s.result).markValid)
          fun j hj => (hstore j hj).markValid (hlength j hj))
        (passOk_of_next rfl ⟨hslot, hb, hlater fun im => (im.setByte s.idx s.result).markValid⟩)
  · rw [State.takeBodyByte_failed ho]
    exact inv_of_pass_between hi h.locked h.decodes rfl nofun h.ranges h.images (passOk_of_next rfl ⟨hslot, hb, hempty⟩)

/-- The next slot, or the end of the pass after the last one (R119, R124). -/
theorem CommandReady.inv_nextSlot (ha : s.aphase = .next) : Inv s.nextSlot := by
  obtain ⟨hslot, hb, hempty⟩ := h.pass.nextOk ha
  obtain ⟨hok, -, hidx, hlen3, harb, hcmp⟩ := h.ranges
  have ht : s.tphase = .idle := h.tphase_idle (by simp [ha]) (by simp [ha]) (by simp [ha])
  have hidx0 : 0 < hdrLen := by decide
  by_cases hmore : s.slot + 1 < nSlots
  · rw [State.nextSlot_more hmore]
    exact inv_of_pass_between hi h.locked h.decodes ht nofun
      ⟨hok, hmore.le, Nat.zero_le _, .inl rfl, harb, hcmp⟩ h.images
      (passOk_of_hdr rfl ⟨hmore, hb, hidx0, rfl, hempty⟩)
  · rw [State.nextSlot_last hmore]
    exact inv_of_pass_between hi h.locked h.decodes ht nofun ⟨hok, le_rfl, hidx, hlen3, harb, hcmp⟩ h.images
      (passOk_of_done rfl (.inl ⟨rfl, rfl, hb⟩))

/-- Every step of a pass leads to a state of the invariant, if its response does (R121). -/
theorem CommandReady.inv_passStep (hfinish : Inv (finish s)) (hstep : PassStep s finish t) : Inv t := by
  cases hstep with
  | enter ha => exact h.inv_enter hi ha
  | begin ha => exact h.inv_beginPass hi ha
  | hdrStart ha =>
    obtain ⟨-, hb, -⟩ := h.pass.hdrOk ha
    exact h.inv_startTransaction hi (.inl ha) hb
  | hdrTake ha => exact h.inv_takeHeaderByte hi ha
  | classify ha => exact h.inv_classify hi ha
  | bodyStart ha =>
    obtain ⟨-, hb, -⟩ := h.pass.bodyOk ha
    exact h.inv_startTransaction hi (.inr ha) hb
  | bodyTake ha => exact h.inv_takeBodyByte hi ha
  | advance ha => exact h.inv_nextSlot hi ha
  | finish ha => exact hfinish

end Pass

/-- The first step of RDBYTE starts its transaction (R101). -/
theorem CommandReady.inv_rdbyteStart {s : State} {slave : SlaveAddr} {offset : Byte}
    (h : CommandReady (.rdbyte slave offset) s) (ht : s.tphase = .idle) : Inv (s.startTransaction slave offset) := by
  have ha : s.aphase = .idle := by
    rcases h.runs with hrun | ⟨-, ha⟩
    · simp [commandRuns, ht] at hrun
    · exact ha
  have htrans := transportOk_startTransaction s slave offset
  obtain ⟨hok, hslot, hidx, hlen, harb, hcmp⟩ := h.ranges
  by_cases hb : s.base = 0#16
  · rw [State.startTransaction_unresolved hb] at htrans ⊢
    refine ⟨h.ranges, h.images, by simp [PassOk, ha], htrans, by simp [h.locked], fun _ => ?_, fun _ hne => absurd ha hne⟩
    simp [cmdwRuns, h.decodes, commandRuns, ha]
  · rw [State.startTransaction_resolved hb] at htrans ⊢
    refine ⟨⟨hok, hslot, hidx, hlen, Nat.zero_le _, hcmp⟩, h.images, by simp [PassOk, ha], htrans, by simp [h.locked],
      fun _ => ?_, fun _ hne => absurd ha hne⟩
    simp [cmdwRuns, h.decodes, commandRuns, ha]

/-- Every step of a command leads to a state of the invariant. -/
theorem CommandReady.inv_step {i : Instr} {s t : State} (h : CommandReady i s) (hstep : CommandStep s i t) : Inv t := by
  have hrespond (oc : OutcomeCode) (payload : List Byte) : Inv (s.respond oc payload) :=
    inv_respond h.ranges h.images oc payload
  cases hstep with
  | setbase base => exact inv_of_idle h.ranges h.images rfl rfl rfl
  | rdbyteStart slave offset ht => exact h.inv_rdbyteStart ht
  | rdbyteEnd => rw [State.respondByte_eq]; exact hrespond _ _
  | acqall _ hpass => exact h.inv_passStep (fun u => rfl) (by rw [State.respondPass_eq]; exact hrespond _ _) hpass
  | summ slot => rw [State.respondSummary_eq]; exact hrespond _ _
  | ctla => exact inv_of_idle h.ranges h.images rfl rfl rfl
  | ctlaSize | ctlbSize => exact hrespond _ _
  | ctlb _ _ hsize hpass =>
    exact h.inv_passStep (fun u => by simp [commandRuns, hsize]) (by rw [State.respondImages_eq]; exact hrespond _ _) hpass

/-- A running command still runs after an event of its transaction (R100). -/
theorem commandRuns_transport {i : Instr} {s : State} (hactive : s.tphase.active = true)
    (h : commandRuns i s = true) : commandRuns i s.transport = true := by
  cases i with
  | rdbyte slave offset => simp_all [commandRuns, transport_tphase_ne_idle hactive]
  | acqall | ctlb outLen => simpa [commandRuns] using h
  | setbase | summ | ctla => exact h

/-- An event of a transaction changes nothing of the pass around it (R100). -/
theorem Inv.transport {s : State} (h : Inv s) (hactive : s.tphase.active = true) : Inv s.transport := by
  obtain ⟨hranges, himages, hpass, htrans, hunlocked, hruns, hreads⟩ := h
  have ht : s.tphase ≠ .idle := by rintro ht; rw [ht] at hactive; exact absurd hactive (by decide)
  have hl : s.lock = true := by
    by_contra hl
    exact ht (hunlocked (by simpa using hl)).1
  refine ⟨hranges.transport htrans, fun j => by simpa using himages j, ?pass, htrans.transport hactive, by simp [hl],
    fun _ => ?runs, fun _ hne => by simpa using hreads ht (by simpa using hne)⟩
  case pass =>
    by_cases ha : s.aphase = .idle
    · simp [PassOk, ha]
    · exact hpass.of_reading (hreads ht ha).1 (by simpa using s.transport_frame)
  case runs =>
    have hrun := hruns hl
    unfold cmdwRuns at hrun ⊢
    rw [State.transport_cmdw]
    split at hrun
    · exact commandRuns_transport hactive hrun
    · exact absurd hrun (by decide)

/-- The parameters at reset are legal, whatever the opaque record is (R3). -/
theorem params_ok : Config.params.ok = true := by
  unfold Config.params
  split
  · assumption
  · decide

/-- The reset values with any legal parameters and any environment (R30, R200). -/
theorem inv_resetEvent {s : State} (hok : s.cfg.ok = true) : Inv s.resetEvent :=
  inv_of_idle ⟨hok, Nat.zero_le _, Nat.zero_le _, .inl rfl, Nat.zero_le _, Nat.zero_le _⟩
    (imagesOk_of_emptyImages rfl) rfl rfl rfl

/-- Settles O47: at reset the engine is idle, its file is empty and its parameters are legal. -/
theorem invHoldsAtReset : Obligations.InvHoldsAtReset := inv_resetEvent (s := State.reset) params_ok

/-- Settles O48, by the cases of a step: the reset event, a transport event, or a step of the command that runs or is
accepted. -/
theorem stepKeepsInv : Obligations.StepKeepsInv := by
  intro s t hinv hstep
  have hranges : RangesOk s := hinv.1
  have himages : ImagesOk s := hinv.2.1
  cases step_cases hstep with
  | reset => exact inv_resetEvent hranges.1
  | transport _ hactive => exact hinv.transport hactive
  | idle => exact hinv
  | goOn i _ _ _ hl hd hcmd => exact (hinv.ready_of_locked hl hd).inv_step hcmd
  | goOnUnsupported => exact inv_respond hranges himages _ _
  | accept w rest i _ _ _ hl _ hd hcmd => exact (hinv.ready_of_accept hl hd rest).inv_step hcmd
  | acceptUnsupported => exact inv_respond (s := s.accept _ _) hranges himages _ _

end Sys2Proof.Machine
end

section
/-! PROOFS. The command port (R160 to R172). What a step of a pass leaves alone, what a step of a command answers, that
the words offered have no effect on a locked engine, and that a state of the invariant has no stop; then the obligations. -/

namespace Sys2Proof.Machine

/-! ### The cases of a step, from the state -/

/-- The converse of `pass_cases`: each case is the engine step of the pass (R121). -/
theorem PassStep.pass_eq {s t : State} {finish : State → State} (ha : s.tphase.active = false)
    (h : PassStep s finish t) : s.pass finish = .next t := by
  unfold State.pass
  rw [ha]
  cases h with
  | enter hp | begin hp | advance hp | finish hp => simp [hp]
  | hdrStart hp hslot hidx ht | hdrTake hp hslot hidx ht => simp [hp, hslot, hidx, State.passRead, ht]
  | classify hp hslot => simp [hp, hslot]
  | bodyStart hp hslot hidx hcap ht | bodyTake hp hslot hidx hcap ht =>
    simp [hp, hslot, hidx, hcap, State.passRead, ht]

/-- The converse of `exec_cases`: each case is the engine step of the command. -/
theorem CommandStep.exec_eq {i : Instr} {s t : State} (ha : s.tphase.active = false) (h : CommandStep s i t) :
    exec i s = .next t := by
  cases h with
  | setbase | summ => rfl
  | rdbyteStart slave offset ht | rdbyteEnd slave offset ht => simp only [exec, execRdbyte, ht]
  | acqall _ hpass => exact hpass.pass_eq ha
  | ctla _ hsize => simp only [exec, execCtla, if_pos hsize]
  | ctlaSize _ hsize => simp only [exec, execCtla, if_neg hsize]
  | ctlb _ _ hsize hpass => simp only [exec, execCtlb, if_pos hsize, hpass.pass_eq ha]
  | ctlbSize _ hsize => simp only [exec, execCtlb, if_neg hsize]

/-- The step of a word that is a command. -/
theorem runWord_of_decode {w : Word} {i : Instr} (h : decode w = .ok i) (s : State) : runWord w s = exec i s := by
  simp only [runWord, h]

/-- The step of a word that is none (R165). -/
theorem runWord_of_error {w : Word} {e : Reject} (h : decode w = .error e) (s : State) :
    runWord w s = .next s.unsupported := by
  simp only [runWord, h]

/-! ### The frame of a pass -/

/-- What every step inside a command leaves as it is, whatever the two sequencers do: the parameters, BASE, the command
and its lock, the words offered, the responses, the output buffer, the timing source and the reset input (R100, R121). -/
structure PassFrame (s t : State) : Prop where
  cfg : t.cfg = s.cfg
  base : t.base = s.base
  lock : t.lock = s.lock
  cmdw : t.cmdw = s.cmdw
  offers : t.offers = s.offers
  responses : t.responses = s.responses
  outBuf : t.outBuf = s.outBuf
  rst : t.rst = s.rst
  rtr : t.rtr = s.rtr

theorem PassFrame.refl (s : State) : PassFrame s s := ⟨rfl, rfl, rfl, rfl, rfl, rfl, rfl, rfl, rfl⟩

theorem PassFrame.trans {s t u : State} (h : PassFrame s t) (h' : PassFrame t u) : PassFrame s u :=
  ⟨h'.cfg.trans h.cfg, h'.base.trans h.base, h'.lock.trans h.lock, h'.cmdw.trans h.cmdw, h'.offers.trans h.offers,
    h'.responses.trans h.responses, h'.outBuf.trans h.outBuf, h'.rst.trans h.rst, h'.rtr.trans h.rtr⟩

/-- A step that performs no event and draws nothing, inside a command. -/
def SilentFrame (s t : State) : Prop := PassFrame s t ∧ t.io = s.io ∧ t.trace = s.trace

theorem State.transport_passFrame (s : State) : PassFrame s s.transport := by constructor <;> simp

theorem State.startTransaction_silentFrame (s : State) (slave : SlaveAddr) (offset : Byte) :
    SilentFrame s (s.startTransaction slave offset) := ⟨by constructor <;> simp, by simp, by simp⟩

theorem State.beginPass_silentFrame (s : State) : SilentFrame s s.beginPass := by
  unfold State.beginPass
  split <;> exact ⟨by constructor <;> rfl, rfl, rfl⟩

theorem State.takeHeaderByte_silentFrame (s : State) : SilentFrame s s.takeHeaderByte := by
  unfold State.takeHeaderByte
  split_ifs <;> exact ⟨by constructor <;> rfl, rfl, rfl⟩

theorem State.takeBodyByte_silentFrame (s : State) : SilentFrame s s.takeBodyByte := by
  unfold State.takeBodyByte
  split_ifs <;> exact ⟨by constructor <;> rfl, rfl, rfl⟩

theorem State.nextSlot_silentFrame (s : State) : SilentFrame s s.nextSlot := by
  unfold State.nextSlot
  split <;> exact ⟨by constructor <;> rfl, rfl, rfl⟩

/-- A step of a pass is silent, but for the response at its end (R121). -/
theorem PassStep.silentFrame_or_finish {s t : State} {finish : State → State} (h : PassStep s finish t) :
    SilentFrame s t ∨ (s.aphase = .done ∧ t = finish s) := by
  cases h with
  | enter => exact .inl ⟨by constructor <;> rfl, rfl, rfl⟩
  | begin => exact .inl s.beginPass_silentFrame
  | hdrStart | bodyStart => exact .inl (s.startTransaction_silentFrame _ _)
  | hdrTake => exact .inl s.takeHeaderByte_silentFrame
  | classify => exact .inl ⟨by constructor <;> rfl, rfl, rfl⟩
  | bodyTake => exact .inl s.takeBodyByte_silentFrame
  | advance => exact .inl s.nextSlot_silentFrame
  | finish ha => exact .inr ⟨ha, rfl⟩

/-! ### Responses -/

/-- What a step does at the response port: nothing, LOCK being kept, or one response, LOCK being cleared (R64, R168,
R172). -/
inductive ResponseEffect (s t : State) : Prop where
  | silent : t.responses = s.responses → t.lock = s.lock → ResponseEffect s t
  | answer (oc : OutcomeCode) (payload : List Byte) : t.responses = s.responses ++ [⟨oc.code, payload⟩] →
      t.lock = false → (oc ≠ .success → payload = []) → ResponseEffect s t

theorem PassFrame.responseEffect {s t : State} (h : PassFrame s t) : ResponseEffect s t :=
  .silent h.responses h.lock

theorem State.respondByte_responseEffect (s : State) : ResponseEffect s s.respondByte := by
  rw [State.respondByte_eq]
  exact .answer _ _ rfl rfl fun ho => if_neg ho

theorem State.respondPass_responseEffect (s : State) : ResponseEffect s s.respondPass := by
  rw [State.respondPass_eq]
  exact .answer _ _ rfl rfl fun _ => rfl

theorem State.respondImages_responseEffect (s : State) : ResponseEffect s s.respondImages := by
  rw [State.respondImages_eq]
  refine .answer _ _ rfl rfl fun ho => if_pos ?_
  by_contra hne
  exact ho (if_neg hne)

theorem State.respondSummary_responseEffect (s : State) (im : SpdImage) : ResponseEffect s (s.respondSummary im) := by
  rw [State.respondSummary_eq]
  refine .answer _ _ rfl rfl fun ho => if_neg fun hv => ho (if_pos hv)

theorem PassStep.responseEffect {s t : State} {finish : State → State} (h : PassStep s finish t)
    (hfinish : ResponseEffect s (finish s)) : ResponseEffect s t := by
  rcases h.silentFrame_or_finish with ⟨hframe, -⟩ | ⟨-, rfl⟩
  · exact hframe.responseEffect
  · exact hfinish

theorem CommandStep.responseEffect {i : Instr} {s t : State} (h : CommandStep s i t) : ResponseEffect s t := by
  cases h with
  | setbase base => exact .answer .success [] rfl rfl fun _ => rfl
  | rdbyteStart slave offset => exact (s.startTransaction_silentFrame slave offset).1.responseEffect
  | rdbyteEnd => exact s.respondByte_responseEffect
  | acqall _ hpass => exact hpass.responseEffect s.respondPass_responseEffect
  | summ slot => exact s.respondSummary_responseEffect _
  | ctla => exact .answer .success _ rfl rfl fun ho => absurd rfl ho
  | ctlaSize | ctlbSize => exact .answer .invalidBufferSize [] rfl rfl fun _ => rfl
  | ctlb _ _ _ hpass => exact hpass.responseEffect s.respondImages_responseEffect

/-- What a step of the machine does at the response port, with LOCK set by an acceptance (R162). -/
theorem step_responseEffect {s t : State} (hr : s.rst = false) (h : step s = .next t) :
    ResponseEffect s t ∨ (s.lock = false ∧ ∃ w rest, ResponseEffect (s.accept w rest) t) := by
  cases step_cases h with
  | reset hrst => simp [hr] at hrst
  | transport => exact .inl s.transport_passFrame.responseEffect
  | idle => exact .inl (.silent rfl rfl)
  | goOn _ _ _ _ _ _ hcmd => exact .inl hcmd.responseEffect
  | goOnUnsupported => exact .inl (.answer .unsupportedRequest [] rfl rfl fun _ => rfl)
  | accept w rest _ _ _ _ hl _ _ hcmd => exact .inr ⟨hl, w, rest, hcmd.responseEffect⟩
  | acceptUnsupported w rest _ _ _ hl =>
    exact .inr ⟨hl, w, rest, .answer .unsupportedRequest [] rfl rfl fun _ => rfl⟩

theorem OutcomeCode.code_le (oc : OutcomeCode) : oc.code.toNat ≤ 6 := by cases oc <;> decide

theorem OutcomeCode.ne_success_of_code {oc : OutcomeCode} (h : oc.code ≠ 0#8) : oc ≠ .success := by
  rintro rfl
  exact h rfl

/-- Settles O8: a step inside a command is silent, and a command's last step is one call of `State.respond`. -/
theorem responsesCarryOutcomesInOrder : Obligations.ResponsesCarryOutcomesInOrder := by
  intro s t hr hstep
  have hcases : ∀ u : State, u.responses = s.responses → (s.lock = true → u.lock = true) → ResponseEffect u t →
      (t.responses = s.responses ∧ (s.lock = true → t.lock = true)) ∨
      (∃ r, t.responses = s.responses ++ [r] ∧ t.lock = false ∧ r.code.toNat ≤ 6 ∧ (r.code ≠ 0#8 → r.payload = [])) := by
    intro u hsame hlock heffect
    cases heffect with
    | silent hresp hkeep => exact .inl ⟨hresp.trans hsame, fun hl => hkeep.trans (hlock hl)⟩
    | answer oc payload hresp hclear hempty =>
      exact .inr ⟨_, hsame ▸ hresp, hclear, oc.code_le, fun hc => hempty (OutcomeCode.ne_success_of_code hc)⟩
  rcases step_responseEffect hr hstep with heffect | ⟨hl, w, rest, heffect⟩
  · exact hcases s rfl id heffect
  · exact hcases (s.accept w rest) rfl (fun _ => rfl) heffect

/-! ### The words offered -/

/-- `s` with other words offered. -/
def State.offering (s : State) (words : List Word) : State := { s with offers := words }

section Offering

variable (s : State) (words : List Word)

theorem State.offering_startTransaction (slave : SlaveAddr) (offset : Byte) :
    (s.offering words).startTransaction slave offset = (s.startTransaction slave offset).offering words := by
  by_cases hb : s.base = 0#16
  · rw [State.startTransaction_unresolved hb, State.startTransaction_unresolved (s := s.offering words) hb]; rfl
  · rw [State.startTransaction_resolved hb, State.startTransaction_resolved (s := s.offering words) hb]; rfl

theorem State.offering_transport : (s.offering words).transport = s.transport.offering words := by
  have he : (s.offering words).tphase = s.tphase := rfl
  cases ht : s.tphase <;> simp only [State.transport, he, ht]
  case arbRead => rw [State.arbRead_eq, State.arbRead_eq]; rfl
  case arbStall => rw [State.arbStall_eq, State.arbStall_eq]; rfl
  case cmpRead => rw [State.cmpRead_eq, State.cmpRead_eq]; rfl
  case cmpStall => rw [State.cmpStall_eq, State.cmpStall_eq]; rfl
  all_goals rfl

theorem State.offering_beginPass : (s.offering words).beginPass = s.beginPass.offering words := by
  by_cases hb : s.base = 0#16
  · rw [State.beginPass_unresolved hb, State.beginPass_unresolved (s := s.offering words) hb]; rfl
  · rw [State.beginPass_resolved hb, State.beginPass_resolved (s := s.offering words) hb]; rfl

theorem State.offering_takeHeaderByte : (s.offering words).takeHeaderByte = s.takeHeaderByte.offering words := by
  by_cases ho : s.outcome = .success
  · by_cases hm : s.idx + 1 < hdrLen
    · rw [State.takeHeaderByte_more ho hm, State.takeHeaderByte_more (s := s.offering words) ho hm]; rfl
    · rw [State.takeHeaderByte_last ho hm, State.takeHeaderByte_last (s := s.offering words) ho hm]; rfl
  · rw [State.takeHeaderByte_failed ho, State.takeHeaderByte_failed (s := s.offering words) ho]; rfl

theorem State.offering_takeBodyByte : (s.offering words).takeBodyByte = s.takeBodyByte.offering words := by
  by_cases ho : s.outcome = .success
  · by_cases hm : s.idx + 1 < s.len
    · rw [State.takeBodyByte_more ho hm, State.takeBodyByte_more (s := s.offering words) ho hm]; rfl
    · rw [State.takeBodyByte_last ho hm, State.takeBodyByte_last (s := s.offering words) ho hm]; rfl
  · rw [State.takeBodyByte_failed ho, State.takeBodyByte_failed (s := s.offering words) ho]; rfl

theorem State.offering_nextSlot : (s.offering words).nextSlot = s.nextSlot.offering words := by
  by_cases hm : s.slot + 1 < nSlots
  · rw [State.nextSlot_more hm, State.nextSlot_more (s := s.offering words) hm]; rfl
  · rw [State.nextSlot_last hm, State.nextSlot_last (s := s.offering words) hm]; rfl

variable {s}

/-- A step of a pass does the same whatever words are offered. -/
theorem PassStep.offering {t : State} {finish : State → State} (h : PassStep s finish t)
    (hfinish : finish (s.offering words) = (finish s).offering words) :
    PassStep (s.offering words) finish (t.offering words) := by
  cases h with
  | enter hp => exact .enter hp
  | begin hp => rw [← State.offering_beginPass]; exact .begin hp
  | hdrStart hp hslot hidx ht => rw [← State.offering_startTransaction]; exact .hdrStart hp hslot hidx ht
  | hdrTake hp hslot hidx ht => rw [← State.offering_takeHeaderByte]; exact .hdrTake hp hslot hidx ht
  | classify hp hslot => exact .classify (s := s.offering words) hp hslot
  | bodyStart hp hslot hidx hcap ht =>
    rw [← State.offering_startTransaction]; exact .bodyStart hp hslot hidx hcap ht
  | bodyTake hp hslot hidx hcap ht => rw [← State.offering_takeBodyByte]; exact .bodyTake hp hslot hidx hcap ht
  | advance hp => rw [← State.offering_nextSlot]; exact .advance hp
  | finish hp => rw [← hfinish]; exact .finish hp

/-- A step of a command does the same whatever words are offered. -/
theorem CommandStep.offering {i : Instr} {t : State} (h : CommandStep s i t) :
    CommandStep (s.offering words) i (t.offering words) := by
  cases h with
  | setbase base => exact .setbase base
  | rdbyteStart slave offset ht => rw [← State.offering_startTransaction]; exact .rdbyteStart slave offset ht
  | rdbyteEnd slave offset ht =>
    have he : (s.offering words).respondByte = s.respondByte.offering words := by
      rw [State.respondByte_eq, State.respondByte_eq]; rfl
    rw [← he]
    exact .rdbyteEnd slave offset ht
  | acqall _ hpass =>
    exact .acqall _ (hpass.offering words (by rw [State.respondPass_eq, State.respondPass_eq]; rfl))
  | summ slot =>
    have he : (s.offering words).respondSummary (s.image slot) =
        (s.respondSummary (s.image slot)).offering words := by
      rw [State.respondSummary_eq, State.respondSummary_eq]; rfl
    rw [← he]
    exact .summ slot
  | ctla outLen hsize => exact .ctla outLen hsize
  | ctlaSize outLen hsize => exact .ctlaSize outLen hsize
  | ctlb outLen _ hsize hpass =>
    exact .ctlb outLen _ hsize (hpass.offering words (by rw [State.respondImages_eq, State.respondImages_eq]; rfl))
  | ctlbSize outLen hsize => exact .ctlbSize outLen hsize

/-- A step of a locked engine does the same whatever words are offered (R169). -/
theorem step_offering {t : State} (hl : s.lock = true) (hr : s.rst = false) (h : step s = .next t) :
    step (s.offering words) = .next (t.offering words) := by
  cases step_cases h with
  | reset hrst => simp [hr] at hrst
  | transport _ ha =>
    rw [step_active (s := s.offering words) hr ha, State.offering_transport]
  | idle _ _ hunlocked | accept _ _ _ _ _ _ hunlocked | acceptUnsupported _ _ _ _ _ hunlocked =>
    simp [hl] at hunlocked
  | goOn i _ _ ha _ hd hcmd =>
    rw [step_locked (s := s.offering words) hr ha hl]
    exact (runWord_of_decode (w := s.cmdw) hd _).trans ((hcmd.offering words).exec_eq ha)
  | goOnUnsupported e _ ha _ hd =>
    rw [step_locked (s := s.offering words) hr ha hl]
    exact runWord_of_error (w := s.cmdw) hd _

end Offering

/-- Settles O7: with any words offered the locked engine makes the same step, with its own words among them, so these
stay as they are. -/
theorem offeredWordHasNoEffectWhileLocked : Obligations.OfferedWordHasNoEffectWhileLocked := by
  intro s t others hl hr hstep
  have hsame : step s = .next (t.offering s.offers) := step_offering (s := s) s.offers hl hr hstep
  rw [hstep, Host.Outcome.next.injEq] at hsame
  have hoffers : t.offers = s.offers := by rw [hsame]; rfl
  exact ⟨hoffers, step_offering others hl hr hstep⟩

/-! ### No stop -/

/-- With its registers in order a pass has a step in every phase: no fault is reached (R14, log 7). -/
theorem PassOk.exists_passStep {s : State} (h : PassOk s) (ha : s.tphase.active = false) (finish : State → State) :
    ∃ t, PassStep s finish t := by
  obtain ⟨hhdr, hclassify, hbody, -, -⟩ := h
  have ht := tphase_of_not_active ha
  cases hp : s.aphase with
  | idle => exact ⟨_, .enter hp⟩
  | clear => exact ⟨_, .begin hp⟩
  | hdr =>
    obtain ⟨hslot, -, hidx, -⟩ := hhdr hp
    rcases ht with ht | ht
    · exact ⟨_, .hdrStart hp hslot hidx ht⟩
    · exact ⟨_, .hdrTake hp hslot hidx ht⟩
  | classify => exact ⟨_, .classify hp (hclassify hp).1⟩
  | body =>
    obtain ⟨hslot, -, hlen, hidx, -⟩ := hbody hp
    have hcap : s.idx < imgCap := by
      rcases hlen with hlen | hlen <;> rw [hlen] at hidx <;> exact hidx.trans_le (by decide)
    rcases ht with ht | ht
    · exact ⟨_, .bodyStart hp hslot hidx hcap ht⟩
    · exact ⟨_, .bodyTake hp hslot hidx hcap ht⟩
  | next => exact ⟨_, .advance hp⟩
  | done => exact ⟨_, .finish hp⟩

/-- A command in a state of the invariant has a step (R214). -/
theorem CommandReady.exists_step {i : Instr} {s : State} (h : CommandReady i s) (ha : s.tphase.active = false) :
    ∃ t, CommandStep s i t := by
  cases i with
  | setbase base => exact ⟨_, .setbase base⟩
  | rdbyte slave offset =>
    rcases tphase_of_not_active ha with ht | ht
    · exact ⟨_, .rdbyteStart slave offset ht⟩
    · exact ⟨_, .rdbyteEnd slave offset ht⟩
  | acqall =>
    obtain ⟨t, hpass⟩ := h.pass.exists_passStep ha State.respondPass
    exact ⟨t, .acqall t hpass⟩
  | summ slot => exact ⟨_, .summ slot⟩
  | ctla outLen =>
    by_cases hsize : outLen.toNat = ctlaSize s.cfg
    · exact ⟨_, .ctla outLen hsize⟩
    · exact ⟨_, .ctlaSize outLen hsize⟩
  | ctlb outLen =>
    by_cases hsize : outLen.toNat = ctlbSize
    · obtain ⟨t, hpass⟩ := h.pass.exists_passStep ha State.respondImages
      exact ⟨t, .ctlb outLen t hsize hpass⟩
    · exact ⟨_, .ctlbSize outLen hsize⟩

/-- A command that is ready has its step in the machine. -/
theorem CommandReady.exists_runWord {i : Instr} {s : State} (h : CommandReady i s) (ha : s.tphase.active = false) :
    ∃ t, runWord s.cmdw s = .next t := by
  obtain ⟨t, hcmd⟩ := h.exists_step ha
  exact ⟨t, (runWord_of_decode h.decodes s).trans (hcmd.exec_eq ha)⟩

/-- Settles O49: a locked engine runs a command that has a step, and so does an accepted command. -/
theorem invStateNeverStops : Obligations.InvStateNeverStops := by
  intro s hinv
  by_cases hr : s.rst = true
  · exact ⟨s.resetEvent, by simp [step, hr]⟩
  by_cases ha : s.tphase.active = true
  · exact ⟨s.transport, step_active (by simpa using hr) ha⟩
  simp only [Bool.not_eq_true] at hr ha
  by_cases hl : s.lock = true
  · rw [step_locked hr ha hl]
    cases hd : decode s.cmdw with
    | ok i => exact (hinv.ready_of_locked hl hd).exists_runWord ha
    | error e => exact ⟨_, runWord_of_error hd s⟩
  simp only [Bool.not_eq_true] at hl
  cases ho : s.offers with
  | nil => exact ⟨s, step_nothing hr ha hl ho⟩
  | cons w rest =>
    rw [step_accepts hr ha hl ho]
    cases hd : decode w with
    | ok i => exact (hinv.ready_of_accept hl hd rest).exists_runWord ha
    | error e => exact ⟨_, runWord_of_error hd _⟩

end Sys2Proof.Machine
end

section
/-! PROOFS. The whole machine: which steps write the image file, BASE and OUTCOME, which events a step performs, and which
answers leave everything as it was; then the obligations. -/

namespace Sys2Proof.Machine

/-! ### The image file -/

/-- What a step without a reset event does to the image file (R17, R111, R114, R116, R118). -/
inductive ImageEffect (s t : State) : Prop where
  | same : t.img = s.img → ImageEffect s t
  | clear : s.aphase = .clear → t.img = emptyImages → ImageEffect s t
  | classify : s.aphase = .classify →
      t.img = (s.updateImage s.slot (SpdImage.setLength (classifyLength s.hdr[2]))).img → ImageEffect s t
  | store : s.aphase = .body → s.tphase = .done → s.outcome = .success →
      t.img = (s.updateImage s.slot (SpdImage.setByte s.idx s.result)).img → ImageEffect s t
  | last : s.aphase = .body → s.tphase = .done → s.outcome = .success → s.idx + 1 = s.len →
      t.img = (s.updateImage s.slot fun im => (im.setByte s.idx s.result).markValid).img → ImageEffect s t

theorem State.beginPass_img (s : State) : s.beginPass.img = emptyImages := by
  unfold State.beginPass
  split <;> rfl

theorem State.takeHeaderByte_img (s : State) : s.takeHeaderByte.img = s.img := by
  unfold State.takeHeaderByte
  split_ifs <;> rfl

theorem State.nextSlot_img (s : State) : s.nextSlot.img = s.img := by
  unfold State.nextSlot
  split <;> rfl

theorem State.takeBodyByte_imageEffect {s : State} (hp : s.aphase = .body) (ht : s.tphase = .done)
    (hidx : s.idx < s.len) : ImageEffect s s.takeBodyByte := by
  by_cases ho : s.outcome = .success
  · by_cases hmore : s.idx + 1 < s.len
    · exact .store hp ht ho (by rw [State.takeBodyByte_more ho hmore])
    · exact .last hp ht ho (by omega) (by rw [State.takeBodyByte_last ho hmore])
  · exact .same (by rw [State.takeBodyByte_failed ho])

theorem PassStep.imageEffect {s t : State} {finish : State → State} (h : PassStep s finish t)
    (hfinish : (finish s).img = s.img) : ImageEffect s t := by
  cases h with
  | enter => exact .same rfl
  | begin hp => exact .clear hp s.beginPass_img
  | hdrStart | bodyStart => exact .same (by simp)
  | hdrTake => exact .same s.takeHeaderByte_img
  | classify hp => exact .classify hp rfl
  | bodyTake hp _ hidx _ ht => exact State.takeBodyByte_imageEffect hp ht hidx
  | advance => exact .same s.nextSlot_img
  | finish => exact .same hfinish

theorem CommandStep.imageEffect {i : Instr} {s t : State} (h : CommandStep s i t) : ImageEffect s t := by
  cases h with
  | setbase | ctla | ctlaSize | ctlbSize => exact .same rfl
  | rdbyteStart => exact .same (by simp)
  | rdbyteEnd => exact .same (by rw [State.respondByte_eq]; rfl)
  | acqall _ hpass => exact hpass.imageEffect (by rw [State.respondPass_eq]; rfl)
  | summ => exact .same (by rw [State.respondSummary_eq]; rfl)
  | ctlb _ _ _ hpass => exact hpass.imageEffect (by rw [State.respondImages_eq]; rfl)

/-- Acceptance touches neither the file nor the sequencers (R160, R162). -/
theorem ImageEffect.of_accept {s t : State} {w : Word} {rest : List Word} :
    ImageEffect (s.accept w rest) t → ImageEffect s t
  | .same himg => .same himg
  | .clear hp himg => .clear hp himg
  | .classify hp himg => .classify hp himg
  | .store hp ht ho himg => .store hp ht ho himg
  | .last hp ht ho hidx himg => .last hp ht ho hidx himg

theorem step_imageEffect {s t : State} (hr : s.rst = false) (h : step s = .next t) : ImageEffect s t := by
  cases step_cases h with
  | reset hrst => simp [hr] at hrst
  | transport => exact .same (by simp)
  | idle | goOnUnsupported | acceptUnsupported => exact .same rfl
  | goOn _ _ _ _ _ _ hcmd => exact hcmd.imageEffect
  | accept _ _ _ _ _ _ _ _ _ hcmd => exact hcmd.imageEffect.of_accept

/-- Settles O52, from the cases of what a step does to the file. -/
theorem imagesAreWrittenOnlyByAPass : Obligations.ImagesAreWrittenOnlyByAPass := by
  intro s t hr hstep hne
  cases step_imageEffect hr hstep with
  | same himg => exact absurd himg hne
  | clear hp => exact .inl hp
  | classify hp => exact .inr (.inl hp)
  | store hp ht ho | last hp ht ho => exact .inr (.inr ⟨hp, ht, ho⟩)

/-- A write to a record turns valid only the record of its slot, and only if the new contents are valid. -/
theorem updateImage_valid {s : State} {k : Nat} {f : SpdImage → SpdImage} {j : Fin 8} (hv : s.img[j].valid = false)
    (h : (s.updateImage k f).img[j].valid = true) : j.val = k ∧ (f s.img[j]).valid = true := by
  by_cases hj : j.val = k
  · rw [State.updateImage_same s k f j hj] at h; exact ⟨hj, h⟩
  · rw [State.updateImage_other s k f j hj, hv] at h; cases h

/-- Settles O33: of the writes to the file only the one of the last body byte makes a record valid. -/
theorem validIsSetOnlyByTheLastBodyByte : Obligations.ValidIsSetOnlyByTheLastBodyByte := by
  intro s t j hstep hv hv'
  have hempty : emptyImages[j].valid = false := by rw [emptyImages_get]; rfl
  by_cases hr : s.rst = true
  · have ht : t = s.resetEvent := by simpa [step, hr] using hstep.symm
    rw [ht] at hv'
    exact absurd (hempty.symm.trans hv') (by decide)
  cases step_imageEffect (by simpa using hr) hstep with
  | same himg => rw [himg, hv] at hv'; cases hv'
  | clear _ himg => rw [himg, hempty] at hv'; cases hv'
  | classify _ himg | store _ _ _ himg =>
    rw [himg] at hv'
    exact absurd (hv.symm.trans (updateImage_valid hv hv').2) (by decide)
  | last hp ht ho hidx himg =>
    rw [himg] at hv'
    exact ⟨hp, ht, ho, (updateImage_valid hv hv').1.symm, hidx⟩

/-- Settles O34: the record that a pass writes to is not valid yet (R114, R116). -/
theorem validImageIsImmutable : Obligations.ValidImageIsImmutable := by
  intro s t j hinv hr hclear hstep hv
  obtain ⟨-, -, ⟨-, hclassify, hbody, -⟩, -⟩ := hinv
  have hrecord (hp : s.aphase = .body) (hj : j.val = s.slot) : s.img[j].valid = false := by
    obtain ⟨-, -, -, -, hrecord, -⟩ := hbody hp
    exact (hrecord j hj).2.1
  cases step_imageEffect hr hstep with
  | same himg => rw [himg]
  | clear hp => exact absurd hp hclear
  | classify hp himg =>
    obtain ⟨-, -, hempty⟩ := hclassify hp
    have hj : j.val ≠ s.slot := by
      intro hj
      rw [hempty j hj.ge] at hv
      cases hv
    rw [himg, State.updateImage_other _ _ _ j hj]
  | store hp _ _ himg | last hp _ _ _ himg =>
    have hj : j.val ≠ s.slot := by
      intro hj
      rw [hrecord hp hj] at hv
      cases hv
    rw [himg, State.updateImage_other _ _ _ j hj]

/-! ### BASE -/

/-- Of the commands only SETBASE writes BASE, with its operand (R11, R161). -/
theorem CommandStep.base_eq_or_setbase {i : Instr} {s t : State} (h : CommandStep s i t) :
    t.base = s.base ∨ i = .setbase t.base := by
  cases h with
  | setbase base => exact .inr rfl
  | rdbyteStart => exact .inl (by simp)
  | rdbyteEnd => exact .inl (by rw [State.respondByte_eq]; rfl)
  | acqall _ hpass =>
    rcases hpass.silentFrame_or_finish with ⟨hframe, -⟩ | ⟨-, rfl⟩
    · exact .inl hframe.base
    · exact .inl (by rw [State.respondPass_eq]; rfl)
  | summ => exact .inl (by rw [State.respondSummary_eq]; rfl)
  | ctla | ctlaSize | ctlbSize => exact .inl rfl
  | ctlb _ _ _ hpass =>
    rcases hpass.silentFrame_or_finish with ⟨hframe, -⟩ | ⟨-, rfl⟩
    · exact .inl hframe.base
    · exact .inl (by rw [State.respondImages_eq]; rfl)

/-- A locked engine runs the command in CMDW (R16, R168). -/
theorem Inv.cmdwRuns_of_locked {s : State} (h : Inv s) (hl : s.lock = true) : cmdwRuns s = true := by
  obtain ⟨-, -, -, -, -, hruns, -⟩ := h
  exact hruns hl

theorem Inv.commandRuns_of_locked {s : State} {i : Instr} (h : Inv s) (hl : s.lock = true)
    (hd : decode s.cmdw = .ok i) : commandRuns i s = true := by
  simpa [cmdwRuns, hd] using h.cmdwRuns_of_locked hl

/-- A word that is no command is never in progress (R16, R165). -/
theorem Inv.decodes_of_locked {s : State} {e : Reject} (h : Inv s) (hl : s.lock = true) : decode s.cmdw ≠ .error e := by
  intro hd
  simpa [cmdwRuns, hd] using h.cmdwRuns_of_locked hl

/-- Settles O51: SETBASE is never in progress between steps, so the step that writes BASE accepts it. -/
theorem baseChangesOnlyBySetbase : Obligations.BaseChangesOnlyBySetbase := by
  intro s t hinv hr hstep hne
  cases step_cases hstep with
  | reset hrst => simp [hr] at hrst
  | transport => exact absurd (State.transport_base s) hne
  | idle | goOnUnsupported | acceptUnsupported => exact absurd rfl hne
  | goOn i _ _ _ hl hd hcmd =>
    rcases hcmd.base_eq_or_setbase with hsame | rfl
    · exact absurd hsame hne
    · exact absurd (hinv.commandRuns_of_locked hl hd) (by simp [commandRuns])
  | accept w rest i _ _ _ hl ho hd hcmd =>
    rcases hcmd.base_eq_or_setbase with hsame | rfl
    · exact absurd hsame hne
    · exact ⟨w, rest, hl, ho, hd⟩

/-! ### Events -/

/-- The events the transport sequencer performs, with their ports and values (R20 to R25, R41, R50). -/
inductive EngineEvent (s : State) : Event → Prop where
  | stall : EngineEvent s .stall
  | readStatus (v : Byte) : EngineEvent s (.ior8 s.stsPort v)
  | readData (v : Byte) : EngineEvent s (.ior8 s.dat0Port v)
  | clearStatus : EngineEvent s (.iow8 s.stsPort (statusClear s.cfg))
  | writeAddr : EngineEvent s (.iow8 s.addrPort (addrByte s.slave))
  | writeCmd : EngineEvent s (.iow8 s.cmdPort s.offset)
  | writeStart : EngineEvent s (.iow8 s.ctlPort s.cfg.opcRead)

/-- A transport step performs exactly one event (R81). -/
theorem State.transport_event {s : State} (ha : s.tphase.active = true) :
    ∃ e, s.transport.trace = s.trace ++ [e] ∧ EngineEvent s e := by
  cases ht : s.tphase <;> simp only [State.transport, ht]
  case idle | done => rw [ht] at ha; exact absurd ha (by decide)
  case arbRead => exact ⟨_, by rw [State.arbRead_eq], .readStatus _⟩
  case arbStall => exact ⟨_, by rw [State.arbStall_eq], .stall⟩
  case clear => exact ⟨_, rfl, .clearStatus⟩
  case addr => exact ⟨_, rfl, .writeAddr⟩
  case cmd => exact ⟨_, rfl, .writeCmd⟩
  case start => exact ⟨_, rfl, .writeStart⟩
  case cmpRead => exact ⟨_, by rw [State.cmpRead_eq], .readStatus _⟩
  case cmpStall => exact ⟨_, by rw [State.cmpStall_eq], .stall⟩
  case data => exact ⟨_, rfl, .readData _⟩

/-- Legal parameters keep every register but data-high away from the data-high port (R3, R42). -/
theorem Params.dat1_ne {p : Params} (h : p.ok = true) :
    p.offSts ≠ p.offDat1 ∧ p.offCtl ≠ p.offDat1 ∧ p.offCmd ≠ p.offDat1 ∧ p.offAddr ≠ p.offDat1 ∧
      p.offDat0 ≠ p.offDat1 := by
  have hdistinct : p.offsets.Nodup := by
    simp only [Params.ok, Bool.and_eq_true, Params.offsetsDistinct, decide_eq_true_eq] at h
    obtain ⟨⟨⟨⟨hdistinct, -⟩, -⟩, -⟩, -⟩ := h
    exact hdistinct
  simp only [Params.offsets, List.nodup_cons, List.mem_cons, not_or] at hdistinct
  tauto

/-- The status clear writes no busy bit, because the masks are disjoint (R3, R87). -/
theorem statusClear_busy {p : Params} (h : p.ok = true) : statusClear p &&& p.mBusy = 0#8 := by
  simp only [Params.ok, Bool.and_eq_true, Params.masksDisjoint, beq_iff_eq] at h
  obtain ⟨⟨-, ⟨hintr, herr⟩, -⟩, -⟩ := h
  rw [statusClear, BitVec.and_comm, BitVec.and_or_distrib_left, hintr, herr]
  rfl

/-- No event of the engine is at the data-high port (R26). -/
theorem EngineEvent.not_dat1 {s : State} {e : Event} (hok : s.cfg.ok = true) (h : EngineEvent s e) (v : Byte) :
    e ≠ .ior8 (portAt s.base s.cfg.offDat1) v ∧ e ≠ .iow8 (portAt s.base s.cfg.offDat1) v := by
  obtain ⟨hsts, hctl, hcmd, haddr, hdat0⟩ := Params.dat1_ne hok
  have hport {off : Byte} (hne : off ≠ s.cfg.offDat1) : portAt s.base off ≠ portAt s.base s.cfg.offDat1 :=
    fun he => hne (portAt_inj he)
  cases h with
  | stall => exact ⟨nofun, nofun⟩
  | readStatus v => simp [State.stsPort, hport hsts]
  | readData v => simp [State.dat0Port, hport hdat0]
  | clearStatus => simp [State.stsPort, hport hsts]
  | writeAddr => simp [State.addrPort, hport haddr]
  | writeCmd => simp [State.cmdPort, hport hcmd]
  | writeStart => simp [State.ctlPort, hport hctl]

/-- Settles O53: events are the transport sequencer's, one a step. -/
theorem onlyTheNamedPortsAreAccessed : Obligations.OnlyTheNamedPortsAreAccessed := by
  intro s t hok hstep
  rcases step_transports_or_trace_eq hstep with ⟨ha, rfl⟩ | htrace
  case inr => exact .inl htrace
  obtain ⟨e, htrace, hevent⟩ := State.transport_event ha
  refine .inr ⟨e, htrace, ?_, hevent.not_dat1 hok⟩
  cases hevent with
  | stall => exact .inl rfl
  | readStatus v => exact .inr (.inl ⟨v, rfl⟩)
  | readData v => exact .inr (.inr (.inl ⟨v, rfl⟩))
  | clearStatus => exact .inr (.inr (.inr (.inl ⟨_, rfl, rfl, statusClear_busy hok⟩)))
  | writeAddr => exact .inr (.inr (.inr (.inr (.inl rfl))))
  | writeCmd => exact .inr (.inr (.inr (.inr (.inr (.inl rfl)))))
  | writeStart => exact .inr (.inr (.inr (.inr (.inr (.inr rfl)))))

/-- Settles O19: the frame of a transport step and its one event. -/
theorem transportWritesOnlyTransactionRegisters : Obligations.TransportWritesOnlyTransactionRegisters := by
  intro s hr ha
  obtain ⟨e, htrace, -⟩ := State.transport_event ha
  exact ⟨s.transport, e, step_active hr ha, htrace, s.transport_frame⟩

/-! ### OUTCOME -/

/-- OUTCOME is kept, or written with a value that is no failure of a wait (R182, R183). -/
def OutcomeKept (s t : State) : Prop :=
  t.outcome = s.outcome ∨ (t.outcome ≠ .busTimeout ∧ t.outcome ≠ .transactionError)

theorem State.startTransaction_outcomeKept (s : State) (slave : SlaveAddr) (offset : Byte) :
    OutcomeKept s (s.startTransaction slave offset) := by
  unfold State.startTransaction
  split
  · exact .inr ⟨nofun, nofun⟩
  · exact .inl rfl

theorem State.beginPass_outcomeKept (s : State) : OutcomeKept s s.beginPass := by
  unfold State.beginPass
  split
  · exact .inr ⟨nofun, nofun⟩
  · exact .inl rfl

theorem State.takeHeaderByte_outcomeKept (s : State) : OutcomeKept s s.takeHeaderByte := by
  unfold State.takeHeaderByte
  split_ifs <;> exact .inl rfl

theorem State.takeBodyByte_outcomeKept (s : State) : OutcomeKept s s.takeBodyByte := by
  unfold State.takeBodyByte
  split_ifs <;> exact .inl rfl

theorem State.nextSlot_outcomeKept (s : State) : OutcomeKept s s.nextSlot := by
  unfold State.nextSlot
  split
  · exact .inl rfl
  · exact .inr ⟨nofun, nofun⟩

theorem respond_passOutcome_outcomeKept (s : State) (payload : List Byte) :
    OutcomeKept s (s.respond (if s.outcome = .controllerNotFound then .controllerNotFound else .success) payload) := by
  refine .inr ?_
  rw [State.respond_outcome]
  split <;> exact ⟨nofun, nofun⟩

theorem PassStep.outcomeKept {s t : State} {finish : State → State} (h : PassStep s finish t)
    (hfinish : OutcomeKept s (finish s)) : OutcomeKept s t := by
  cases h with
  | enter | classify => exact .inl rfl
  | begin => exact s.beginPass_outcomeKept
  | hdrStart | bodyStart => exact s.startTransaction_outcomeKept _ _
  | hdrTake => exact s.takeHeaderByte_outcomeKept
  | bodyTake => exact s.takeBodyByte_outcomeKept
  | advance => exact s.nextSlot_outcomeKept
  | finish => exact hfinish

theorem CommandStep.outcomeKept {i : Instr} {s t : State} (h : CommandStep s i t) : OutcomeKept s t := by
  cases h with
  | setbase | ctla | ctlaSize | ctlbSize => exact .inr ⟨nofun, nofun⟩
  | rdbyteStart => exact s.startTransaction_outcomeKept _ _
  | rdbyteEnd => exact .inl (by rw [State.respondByte_eq]; rfl)
  | acqall _ hpass =>
    exact hpass.outcomeKept (by rw [State.respondPass_eq]; exact respond_passOutcome_outcomeKept s _)
  | summ slot =>
    refine .inr ?_
    rw [State.respondSummary_eq, State.respond_outcome]
    split <;> exact ⟨nofun, nofun⟩
  | ctlb _ _ _ hpass =>
    exact hpass.outcomeKept (by rw [State.respondImages_eq]; exact respond_passOutcome_outcomeKept s _)

/-- A failure of a wait is raised only by the transport sequencer. -/
theorem step_transports_or_outcomeKept {s t : State} (h : step s = .next t) : t = s.transport ∨ OutcomeKept s t := by
  cases step_cases h with
  | reset | goOnUnsupported | acceptUnsupported => exact .inr (.inr ⟨nofun, nofun⟩)
  | transport => exact .inl rfl
  | idle => exact .inr (.inl rfl)
  | goOn _ _ _ _ _ _ hcmd => exact .inr hcmd.outcomeKept
  | accept _ _ _ _ _ _ _ _ _ hcmd => exact .inr hcmd.outcomeKept

/-- What the transport sequencer writes to OUTCOME, and where (R86, R92, R93, R95). -/
theorem State.transport_outcome (s : State) :
    s.transport.outcome = s.outcome ∨ s.transport.outcome = .success ∨
    (s.transport.outcome = .busTimeout ∧
      ((s.tphase = .arbStall ∧ s.arbcnt + 1 = pollBudget) ∨ (s.tphase = .cmpStall ∧ s.cmpcnt + 1 = pollBudget))) ∨
    (s.transport.outcome = .transactionError ∧ s.tphase = .cmpRead ∧ s.answer &&& s.cfg.mErr ≠ 0#8) := by
  cases ht : s.tphase <;> simp only [State.transport, ht]
  case arbStall =>
    rw [State.arbStall_eq]
    by_cases hn : s.arbcnt + 1 = pollBudget <;> simp [hn]
  case cmpRead =>
    rw [State.cmpRead_eq]
    by_cases he : s.answer &&& s.cfg.mErr = 0#8 <;> simp [he]
  case cmpStall =>
    rw [State.cmpStall_eq]
    by_cases hn : s.cmpcnt + 1 = pollBudget <;> simp [hn]
  case data => exact .inr (.inl rfl)
  case idle => exact .inl trivial
  all_goals exact .inl rfl

/-- Settles O56: of the values that a step may write to OUTCOME the two are written in the waits alone. -/
theorem timeoutAndErrorAreRaisedOnlyInTheWaits : Obligations.TimeoutAndErrorAreRaisedOnlyInTheWaits := by
  intro s t hstep hne
  rcases step_transports_or_outcomeKept hstep with rfl | hsame | ⟨hto, hte⟩
  · rcases s.transport_outcome with hsame | hok | ⟨hto, hphase⟩ | ⟨hte, hphase⟩
    · exact absurd hsame hne
    · simp [hok]
    · refine ⟨fun _ => ?_, fun hte => (by rw [hto] at hte; cases hte)⟩
      exact hphase.imp (And.imp_right Nat.succ.inj) (And.imp_right Nat.succ.inj)
    · exact ⟨fun hto => (by rw [hte] at hto; cases hto), fun _ => hphase⟩
  · exact absurd hsame hne
  · exact ⟨fun h => absurd h hto, fun h => absurd h hte⟩

/-! ### Boundary violations -/

/-- A response with no payload in an idle engine writes OUTCOME and LOCK alone (R167, R189). -/
theorem State.respond_nil_of_idle {s : State} (ht : s.tphase = .idle) (ha : s.aphase = .idle) (oc : OutcomeCode) :
    s.respond oc [] = { s with outcome := oc, lock := false, responses := s.responses ++ [⟨oc.code, []⟩] } := by
  simp [State.respond, writePayload, ht, ha]

/-- A step answers at most one code. -/
theorem code_eq_of_responses {s t : State} {code code' : Byte} {payload payload' : List Byte}
    (h : t.responses = s.responses ++ [⟨code, payload⟩]) (h' : t.responses = s.responses ++ [⟨code', payload'⟩]) :
    code = code' ∧ payload = payload' := by
  rw [h, List.append_cancel_left_eq, List.singleton_inj, Response.mk.injEq] at h'
  exact h'

/-- No step inside a pass answers, and its end answers 0 or 1 (R127, R164). -/
theorem PassStep.not_boundary {s t : State} {finish : State → State} {code : Byte} {payload payload' : List Byte}
    (h : PassStep s finish t) (hresp : t.responses = s.responses ++ [⟨code, payload⟩])
    (hfinish : finish s =
      s.respond (if s.outcome = .controllerNotFound then .controllerNotFound else .success) payload') :
    ¬ (code = 4#8 ∨ code = 5#8) := by
  rcases h.silentFrame_or_finish with ⟨hframe, -⟩ | ⟨-, rfl⟩
  · rw [hframe.responses] at hresp
    simp at hresp
  · obtain ⟨hcode, -⟩ := code_eq_of_responses (hfinish ▸ State.respond_responses _ _ _) hresp
    rw [← hcode]
    split <;> decide

/-- A step with a response of code 4 or 5 is the refusal of a buffer size, or the end of a transaction whose OUTCOME has
that code. -/
theorem CommandStep.boundary {i : Instr} {s t : State} {code : Byte} {payload : List Byte} (h : CommandStep s i t)
    (hresp : t.responses = s.responses ++ [⟨code, payload⟩]) (hcode : code = 4#8 ∨ code = 5#8) :
    (s.tphase = .done ∧ s.outcome.code = code) ∨
      (t = s.respond .invalidBufferSize [] ∧ commandRuns i s = false) := by
  cases h with
  | setbase | ctla =>
    obtain ⟨hsame, -⟩ := code_eq_of_responses rfl hresp
    rw [← hsame] at hcode
    exact absurd hcode (by decide)
  | rdbyteStart slave offset ht =>
    simp at hresp
  | rdbyteEnd slave offset ht =>
    rw [State.respondByte_eq] at hresp
    exact .inl ⟨ht, (code_eq_of_responses rfl hresp).1⟩
  | acqall _ hpass => exact absurd hcode (hpass.not_boundary hresp s.respondPass_eq)
  | summ slot =>
    rw [State.respondSummary_eq] at hresp
    obtain ⟨hsame, -⟩ := code_eq_of_responses rfl hresp
    rw [← hsame] at hcode
    split at hcode <;> exact absurd hcode (by decide)
  | ctlaSize => exact .inr ⟨rfl, rfl⟩
  | ctlb _ _ _ hpass => exact absurd hcode (hpass.not_boundary hresp s.respondImages_eq)
  | ctlbSize _ hsize => exact .inr ⟨rfl, by simp [commandRuns, hsize]⟩

/-- Under the invariant no transaction ends with one of the two outcomes (R80, R84). -/
theorem Inv.not_boundary_of_done {s : State} (h : Inv s) (ht : s.tphase = .done) :
    ¬ (s.outcome.code = 4#8 ∨ s.outcome.code = 5#8) := by
  obtain ⟨-, -, -, ⟨-, -, -, -, -, -, hdone⟩, -⟩ := h
  obtain ⟨hzero, hresolved⟩ := hdone ht
  by_cases hb : s.base = 0#16
  · rw [hzero hb]; decide
  · rcases hresolved hb with ho | ho | ho <;> rw [ho] <;> decide

/-- The refusal of an offered word or buffer size changes an idle engine in nothing but CMDW, OUTCOME and the two ports
(R167). -/
theorem accept_respond_nil {s : State} {w : Word} {rest : List Word} (h : Inv s) (hl : s.lock = false)
    (oc : OutcomeCode) :
    (s.accept w rest).respond oc [] = { s with
      cmdw := w, outcome := oc, offers := rest, responses := s.responses ++ [⟨oc.code, []⟩] } := by
  obtain ⟨-, -, -, -, hidle, -⟩ := h
  obtain ⟨ht, ha⟩ := hidle hl
  rw [State.respond_nil_of_idle (s := s.accept w rest) ht ha]
  simp [State.accept, hl]

/-- Settles O57: under the invariant the two codes are answered only where a word is accepted and refused at once. -/
theorem boundaryViolationsTouchNothing : Obligations.BoundaryViolationsTouchNothing := by
  intro s t code payload hinv hstep hresp hcode
  have hrefused (w : Word) (rest : List Word) (oc : OutcomeCode) (hl : s.lock = false)
      (ht : t = (s.accept w rest).respond oc []) :
      s.lock = false ∧ payload = [] ∧ t.trace = s.trace ∧ t.rtr = s.rtr ∧ t.img = s.img ∧
        t = { s with cmdw := t.cmdw, outcome := t.outcome, offers := t.offers, responses := t.responses } := by
    rw [accept_respond_nil hinv hl] at ht
    subst ht
    exact ⟨hl, (code_eq_of_responses rfl hresp).2.symm, rfl, rfl, rfl, rfl⟩
  cases step_cases hstep with
  | reset => exact absurd hresp.symm (List.append_ne_nil_of_right_ne_nil _ (List.cons_ne_nil _ _))
  | transport | idle => simp at hresp
  | goOn i _ _ _ hl hd hcmd =>
    rcases hcmd.boundary hresp hcode with ⟨ht, hsame⟩ | ⟨-, hruns⟩
    · exact absurd (hsame ▸ hcode) (hinv.not_boundary_of_done ht)
    · simp [hinv.commandRuns_of_locked hl hd] at hruns
  | goOnUnsupported e _ _ hl hd => exact absurd hd (hinv.decodes_of_locked hl)
  | accept w rest i _ _ _ hl _ hd hcmd =>
    rcases hcmd.boundary hresp hcode with ⟨ht, -⟩ | ⟨ht, -⟩
    · obtain ⟨-, -, -, -, hidle, -⟩ := hinv
      rw [State.accept_tphase, (hidle hl).1] at ht
      cases ht
    · exact hrefused w rest _ hl ht
  | acceptUnsupported w rest e _ _ hl => exact hrefused w rest _ hl rfl

end Sys2Proof.Machine
end

section
/-! PROOFS. The steps of the machine one by one: the command port and reset (R160 to R165, R200), the phases of a
transaction (R86 to R101), the phases of a pass (R110 to R127) and the commands of the boundary (R140, R161 to R167). -/

namespace Sys2Proof.Machine

/-! ### The command port and reset -/

/-- Settles O5: acceptance and the first step of the command are one step, and a locked engine goes on with CMDW. -/
theorem stepRunsTheDecodedCommand : Obligations.StepRunsTheDecodedCommand := by
  intro s i hr ha
  refine ⟨fun w rest hl ho hd => ?_, fun hl hd => ?_⟩
  · rw [step_accepts hr ha hl ho, runWord_of_decode hd]; rfl
  · rw [step_locked hr ha hl, runWord_of_decode hd]

/-- Settles O6: the response without a payload leaves the idle engine as it was. -/
theorem unrecognisedWordIsAnsweredUnsupported : Obligations.UnrecognisedWordIsAnsweredUnsupported := by
  intro s w rest e hr ht ha hl ho hd
  have hactive : s.tphase.active = false := by rw [ht]; rfl
  rw [step_accepts hr hactive hl ho, runWord_of_error hd, State.unsupported,
    State.respond_nil_of_idle (s := s.accept w rest) ht ha, State.accept, hl]
  rfl

/-- Settles O9: the registers by evaluation, the records by those of the empty file. -/
theorem resetStateHoldsTheStatedValues : Obligations.ResetStateHoldsTheStatedValues := by
  refine ⟨rfl, rfl, rfl, rfl, rfl, rfl, rfl, rfl, rfl, rfl, by decide, fun i => ?_, rfl⟩
  have hempty : State.reset.img[i] = emptyImage (BitVec.ofNat 3 i.val) := emptyImages_get i
  rw [hempty]
  exact ⟨rfl, fun _ => rfl, rfl, rfl⟩

/-- Settles O10: the reset event comes before anything else. -/
theorem resetEventAbandonsTheCommand : Obligations.ResetEventAbandonsTheCommand := by
  intro s hrst
  have hhdr : ∀ k : Fin 4, s.resetEvent.hdr[k] = 0#8 := fun k => by fin_cases k <;> rfl
  exact ⟨s.resetEvent, by simp [step, hrst], rfl, rfl, rfl, rfl, rfl, rfl, rfl, rfl, rfl, rfl, hhdr, emptyImages_get,
    rfl, rfl, rfl, rfl, rfl, rfl, rfl, rfl⟩

/-! ### The phases of a transaction -/

theorem step_clear {s : State} (hr : s.rst = false) (ht : s.tphase = .clear) : step s = .next s.clearStatus := by
  rw [step_active hr (by rw [ht]; rfl)]; simp only [State.transport, ht]

theorem step_addr {s : State} (hr : s.rst = false) (ht : s.tphase = .addr) : step s = .next s.writeAddr := by
  rw [step_active hr (by rw [ht]; rfl)]; simp only [State.transport, ht]

theorem step_data {s : State} (hr : s.rst = false) (ht : s.tphase = .data) : step s = .next s.readData := by
  rw [step_active hr (by rw [ht]; rfl)]; simp only [State.transport, ht]

/-- Settles O13: each of the two phases is one write. -/
theorem statusClearAndAddressWrites : Obligations.StatusClearAndAddressWrites := fun _ hr =>
  ⟨fun ht => step_clear hr ht, fun ht => step_addr hr ht⟩

/-- The address byte is the slave address above the read bit (R66, R89). -/
theorem addrByte_fields (slave : SlaveAddr) :
    (addrByte slave).extractLsb' 1 7 = slave ∧ (addrByte slave).getLsbD 0 = true := by
  refine ⟨?_, by simp [addrByte]⟩
  ext k hk
  interval_cases k <;> simp [addrByte]

/-- Settles O15: the four steps of the setup and the two fields of the address byte. -/
theorem setupWritesComeInOrder : Obligations.SetupWritesComeInOrder := by
  intro s hr ht
  obtain ⟨hslave, hread⟩ := addrByte_fields s.slave
  exact ⟨addrByte s.slave, hslave, hread, setup_run s hr ht⟩

/-- Settles O17: the phase is one read of data-low. -/
theorem dataPhaseReadsDataLow : Obligations.DataPhaseReadsDataLow := fun _ hr ht => step_data hr ht

/-- Settles O18: the response of RDBYTE, with its payload after Success alone. -/
theorem rdbyteRespondsAtTheEnd : Obligations.RdbyteRespondsAtTheEnd := by
  intro s slave offset ht
  have hexec : exec (.rdbyte slave offset) s = .next s.respondByte := by simp only [exec, execRdbyte, ht]
  refine ⟨fun ho => ?_, fun c hc => ?_⟩
  · rw [hexec, State.respondByte_eq, ho]
    simp [State.respond, writePayload, OutcomeCode.code]
  · have hfailed : s.outcome ≠ .success ∧ s.outcome.code = c := by
      rcases hc with ⟨ho, rfl⟩ | ⟨ho, rfl⟩ | ⟨ho, rfl⟩ | ⟨ho, rfl⟩ | ⟨ho, rfl⟩ | ⟨ho, rfl⟩ <;> rw [ho] <;> decide
    obtain ⟨hne, rfl⟩ := hfailed
    rw [hexec, State.respondByte_eq, if_neg hne]
    simp [State.respond, writePayload]

/-- A wait whose samples all fail the test spends its whole budget: a read and a stall for each iteration (R85). -/
theorem waitFor_exhausted (p : Port) (ends : Byte → Bool) (n : Nat) (src : Source)
    (h : ∀ k < n, ends (src.nth Config.ioAnswer k) = false) :
    (waitFor p ends n src).sample = none ∧
      (waitFor p ends n src).events =
        (List.range n).flatMap (fun k => [.ior8 p (src.nth Config.ioAnswer k), .stall]) := by
  induction n generalizing src with
  | zero => exact ⟨rfl, rfl⟩
  | succ n ih =>
    have hfirst : ends (src.next Config.ioAnswer).1 = false := by
      rw [← Source.nth_zero]; exact h 0 (Nat.succ_pos n)
    obtain ⟨hsample, hevents⟩ := ih (src.next Config.ioAnswer).2 fun k hk => by
      rw [Source.nth_next]; exact h (k + 1) (Nat.succ_lt_succ hk)
    simp only [waitFor, hfirst, Bool.false_eq_true, if_false]
    refine ⟨hsample, ?_⟩
    rw [hevents, List.range_succ_eq_map, List.flatMap_cons, List.flatMap_map]
    simp only [Source.nth_next, Source.nth_zero, Nat.succ_eq_add_one]
    rfl

/-- Settles O20: the arbitration wait of 1000 iterations that no sample ends. -/
theorem stuckBusyBitTimesOutWithoutAWrite : Obligations.StuckBusyBitTimesOutWithoutAWrite := by
  intro s hr ht hc hbusy
  have hfail : ∀ k < pollBudget, (!busySet s.cfg (s.io.nth Config.ioAnswer k)) = false := fun k hk => by
    rw [(busySet_iff s.cfg _).mpr (hbusy k hk)]; rfl
  obtain ⟨hsample, hevents⟩ := waitFor_exhausted s.stsPort (fun v => !busySet s.cfg v) pollBudget s.io hfail
  obtain ⟨u, hu, he, hcount⟩ := arb_wait pollBudget s hr ht (by rw [hc, Nat.zero_add]) (by decide)
  rw [hsample] at he hcount
  have hlen : (waitFor s.stsPort (fun v => !busySet s.cfg v) pollBudget s.io).events.length = 2000 := by
    rw [hevents, List.length_flatMap]
    simp only [List.length_cons, List.length_nil, List.map_const', List.sum_replicate, List.length_range]
    rfl
  rw [hlen] at hu
  rw [hevents] at he
  exact ⟨u, hu, by rw [he]; rfl, by rw [he]; rfl, hcount rfl, by rw [he]; rfl⟩

/-! ### The phases of a pass -/

/-- A step of a pass is the step of either command that runs it (R110, R164). -/
theorem exec_of_passStep {i : Instr} {s t : State} (hi : i = .acqall ∨ i = .ctlb 4128#24) (ha : s.tphase.active = false)
    (h : ∀ finish, PassStep s finish t) : exec i s = .next t := by
  obtain ⟨finish, hpass⟩ := exec_eq_pass s hi
  rw [hpass]
  exact (h finish).pass_eq ha

theorem not_active_of_idle {s : State} (ht : s.tphase = .idle) : s.tphase.active = false := by rw [ht]; rfl

theorem not_active_of_done {s : State} (ht : s.tphase = .done) : s.tphase.active = false := by rw [ht]; rfl

/-- Settles O24: the clear, with the two cases of BASE after it. -/
theorem passClearsTheFileThenChecksTheBase : Obligations.PassClearsTheFileThenChecksTheBase := by
  intro s i hi ht
  have ha := not_active_of_idle ht
  refine ⟨fun hp => ?_, fun hp hb => ?_, fun hp hb => ?_⟩
  · exact exec_of_passStep hi ha fun _ => .enter hp
  · rw [exec_of_passStep hi ha fun _ => .begin hp, State.beginPass_unresolved hb]
  · rw [exec_of_passStep hi ha fun _ => .begin hp, State.beginPass_resolved hb]

/-- A write to a record of the file (R17). -/
theorem State.updateImage_eq {s : State} {k : Nat} (hk : k < 8) (f : SpdImage → SpdImage) :
    s.updateImage k f = { s with img := s.img.set k (f s.img[k]) } := by
  simp only [State.updateImage, hk, dite_true]

/-- Settles O26: the classified length is that of HDR[2]. -/
theorem classifySelects512OnlyFor0C : Obligations.ClassifySelects512OnlyFor0C := by
  intro s i hslot hi ht hp
  rw [exec_of_passStep hi (not_active_of_idle ht) fun _ => .classify hp hslot, State.classify,
    State.updateImage_eq hslot]
  rfl

/-- Settles O27: the start of the transaction for byte IDX, and the three cases of the byte it obtains. -/
theorem bodyPhaseStoresEachByte : Obligations.BodyPhaseStoresEachByte := by
  intro s i hslot hi hp hidx hcap
  have htake (ht : s.tphase = .done) : exec i s = .next s.takeBodyByte :=
    exec_of_passStep hi (not_active_of_done ht) fun _ => .bodyTake hp hslot hidx hcap ht
  refine ⟨fun ht hb => ?start, fun ht ho hmore => ?more, fun ht ho hlast => ?last, fun ht ho => ?failed⟩
  case start =>
    rw [exec_of_passStep hi (not_active_of_idle ht) fun _ => .bodyStart hp hslot hidx hcap ht,
      State.startTransaction_resolved hb]
    rfl
  case more => rw [htake ht, State.takeBodyByte_more ho hmore, State.updateImage_eq hslot]; rfl
  case last => rw [htake ht, State.takeBodyByte_last ho hlast.not_lt, State.updateImage_eq hslot]; rfl
  case failed => rw [htake ht, State.takeBodyByte_failed ho]

/-- Settles O28: the two cases of SLOT. -/
theorem slotsAreTakenInOrder : Obligations.SlotsAreTakenInOrder := by
  intro s i hi ht hp
  rw [exec_of_passStep hi (not_active_of_idle ht) fun _ => .advance hp]
  refine ⟨fun hlt => ?_, fun heq => ?_⟩
  · rw [State.nextSlot_more (Nat.succ_lt_succ hlt)]
  · rw [State.nextSlot_last (by rw [heq]; decide)]
    rfl

/-- Settles O29: the last step of a pass is its command's response. -/
theorem passEndsWithTheResponse : Obligations.PassEndsWithTheResponse := by
  intro s ht hp
  have ha := not_active_of_idle ht
  have hacqall : exec .acqall s = .next s.respondPass := (PassStep.finish hp).pass_eq ha
  have hctlb : exec (.ctlb 4128#24) s = .next s.respondImages :=
    (exec_ctlb_of_size s).trans ((PassStep.finish hp).pass_eq ha)
  refine ⟨fun ho i hi => ?_, fun ho => ?_, fun ho => ?_⟩
  · rcases hi with rfl | rfl
    · rw [hacqall, State.respondPass_eq]
      simp [State.respond, writePayload, OutcomeCode.code, ho, ht]
    · rw [hctlb, State.respondImages_eq]
      simp [State.respond, writePayload, OutcomeCode.code, ho, ht]
  · rw [hacqall, State.respondPass_eq]
    simp [State.respond, writePayload, OutcomeCode.code, ho, ht]
  · rw [hctlb, State.respondImages_eq]
    simp [State.respond, OutcomeCode.code, ho, ht]

/-! ### The commands of the boundary -/

/-- Settles O43: SETBASE writes BASE and responds without a payload. -/
theorem setbaseWritesTheBase : Obligations.SetbaseWritesTheBase := by
  intro s base ht ha
  exact congrArg Host.Outcome.next (State.respond_nil_of_idle (s := { s with base := base }) ht ha .success)

/-- Settles O45: a refused size is answered without a payload. -/
theorem wrongBufferSizeTouchesNothing : Obligations.WrongBufferSizeTouchesNothing := by
  intro s outLen ht ha
  refine ⟨fun hsize => ?_, fun hsize => ?_⟩
  · rw [(CommandStep.ctlaSize outLen hsize).exec_eq (not_active_of_idle ht), State.respond_nil_of_idle ht ha]; rfl
  · rw [(CommandStep.ctlbSize outLen hsize).exec_eq (not_active_of_idle ht), State.respond_nil_of_idle ht ha]; rfl

/-- Settles O44: the response of CTLA carries the draws of the timing source. -/
theorem ctlaReturnsTheTimingRecord : Obligations.CtlaReturnsTheTimingRecord := by
  intro s outLen ht ha hsize
  refine ⟨s.respondTiming, (s.rtr.take Config.timingByte s.cfg.rtrSize).1,
    (CommandStep.ctla outLen hsize).exec_eq (not_active_of_idle ht), Source.take_length _ _ _,
    fun k hk => Source.take_get _ _ _ k hk, Source.take_count _ _ _, ?_⟩
  simp [State.respondTiming, State.respond, writePayload, Source.take_length, OutcomeCode.code, ht, ha]

end Sys2Proof.Machine
end

section
/-! PROOFS. The layouts: byte memory (R40), the summary (R71, R135), the payload of CTLB (R65, R70), the dump (R145) and
the persisted artifacts (R146). First the lists they are made of, then the obligations. -/

namespace Sys2Proof.Machine

/-! ### Byte memory -/

/-- An address that reads as something is listed with it. -/
theorem Memory.mem_of_read_ne {m : Memory} {a : Nat} (h : m.read a ≠ Memory.unlisted) : (a, m.read a) ∈ m := by
  induction m with
  | nil => exact absurd rfl h
  | cons c m ih =>
    by_cases hc : c.1 = a
    · subst hc; simp [Memory.read]
    · simp only [Memory.read, if_neg hc] at h ⊢
      exact List.mem_cons_of_mem _ (ih h)

/-- The cells of a memory in canonical form are what its addresses read as, where that is not 0. -/
theorem Memory.mem_iff {m : Memory} (hw : m.wf) (c : Host.Cell) :
    c ∈ m ↔ m.read c.1 = c.2 ∧ c.2 ≠ Memory.unlisted := by
  refine ⟨fun h => ⟨Memory.read_of_mem hw h, hw.2 c h⟩, fun ⟨hread, hne⟩ => ?_⟩
  have hmem := Memory.mem_of_read_ne (a := c.1) (hread ▸ hne)
  rwa [hread] at hmem

/-- Settles O60: the two have the same cells, in the same order. -/
theorem memoriesThatReadAlikeAreEqual : Obligations.MemoriesThatReadAlikeAreEqual := by
  intro m m' hw hw' hread
  have hirrefl : Std.Irrefl fun c d : Host.Cell => c.1 < d.1 := ⟨fun c => Nat.lt_irrefl c.1⟩
  have hasymm : Std.Asymm fun c d : Host.Cell => c.1 < d.1 := ⟨fun _ _ => Nat.lt_asymm⟩
  refine List.Pairwise.eq_of_mem_iff hw.1 hw'.1 fun c => ?_
  rw [Memory.mem_iff hw, Memory.mem_iff hw', hread]

/-! ### The summary -/

theorem shift_mul_bounds (density : BitVec 5) (banks : BitVec 3) :
    1 ≤ (1 <<< density.toNat) * (banks.toNat + 1) ∧ (1 <<< density.toNat) * (banks.toNat + 1) ≤ 2 ^ 34 := by
  have hd : 2 ^ density.toNat ≤ 2 ^ 31 := Nat.pow_le_pow_right (by decide) (Nat.le_of_lt_succ density.isLt)
  have hb : banks.toNat + 1 ≤ 8 := banks.isLt
  rw [Nat.shiftLeft_eq, Nat.one_mul]
  exact ⟨Nat.mul_pos Nat.one_le_two_pow (Nat.succ_pos _), (Nat.mul_le_mul hd hb).trans (by decide)⟩

/-- The module size is the formula's exact value, because no product reaches 2^64 (R135). -/
theorem moduleSize_toNat (density : BitVec 5) (banks : BitVec 3) :
    (moduleSize density banks).toNat = (1 <<< density.toNat) * (banks.toNat + 1) * 256 := by
  obtain ⟨-, hmax⟩ := shift_mul_bounds density banks
  have hd : (1#64 <<< density.toNat).toNat = 1 <<< density.toNat := by
    have hlt : 2 ^ density.toNat < 2 ^ 64 := Nat.pow_lt_pow_right (by decide) (density.isLt.trans (by decide))
    rw [BitVec.toNat_shiftLeft, Nat.shiftLeft_eq, Nat.shiftLeft_eq]
    exact Nat.mod_eq_of_lt (by simpa using hlt)
  have hb : (banks.setWidth 64 + 1#64).toNat = banks.toNat + 1 := by
    have hlt := banks.isLt
    simp only [BitVec.toNat_add, BitVec.toNat_setWidth, BitVec.toNat_ofNat]
    omega
  rw [moduleSize, BitVec.toNat_mul, BitVec.toNat_mul, hd, hb, BitVec.toNat_ofNat]
  omega

/-- Settles O37: the value is exact, and the product of the two fields lies between 1 and 2^34. -/
theorem moduleSizeNeverOverflows : Obligations.ModuleSizeNeverOverflows := by
  have hsize (density : BitVec 5) (banks : BitVec 3) :
      (moduleSize density banks).toNat = (1 <<< density.toNat) * (banks.toNat + 1) * 256 ∧
        256 ≤ (moduleSize density banks).toNat ∧ (moduleSize density banks).toNat ≤ 2 ^ 42 := by
    obtain ⟨hmin, hmax⟩ := shift_mul_bounds density banks
    have hexact := moduleSize_toNat density banks
    exact ⟨hexact, by omega, by omega⟩
  exact ⟨fun im => hsize (summarize im).density (summarize im).banks, hsize⟩

/-- The value of a little-endian byte list (R43). -/
def leValue (bytes : List Byte) : Nat := bytes.foldr (fun b n => b.toNat + 256 * n) 0

theorem leValue_leBytes16 (v : BitVec 16) : leValue (leBytes16 v) = v.toNat := by
  have := v.isLt
  simp only [leValue, leBytes16, List.foldr, BitVec.extractLsb'_toNat, Nat.shiftRight_eq_div_pow]
  omega

theorem leValue_leBytes64 (v : BitVec 64) : leValue (leBytes64 v) = v.toNat := by
  have := v.isLt
  have hbytes : leBytes64 v = [v.extractLsb' 0 8, v.extractLsb' 8 8, v.extractLsb' 16 8, v.extractLsb' 24 8,
    v.extractLsb' 32 8, v.extractLsb' 40 8, v.extractLsb' 48 8, v.extractLsb' 56 8] := rfl
  rw [hbytes]
  simp only [leValue, List.foldr, BitVec.extractLsb'_toNat, Nat.shiftRight_eq_div_pow]
  omega

theorem SpdSummary.bytes_length (m : SpdSummary) : m.bytes.length = 24 := rfl

/-- Settles O42: each field stands at its place, and the wider ones are little-endian. -/
theorem summaryLayoutIsLittleEndian : Obligations.SummaryLayoutIsLittleEndian := by
  intro m
  exact ⟨m.bytes_length, rfl, rfl, leValue_leBytes64 m.sizeMB, leValue_leBytes16 m.tCL, leValue_leBytes16 m.tRCD,
    leValue_leBytes16 m.tRP, leValue_leBytes16 m.tRAS⟩

/-- Settles O35: the summary of a valid record is 24 bytes, and a refusal has no payload. -/
theorem summRespondsWithTheSummary : Obligations.SummRespondsWithTheSummary := by
  intro s slot ht ha
  have hexec : exec (.summ slot) s = .next (s.respondSummary (s.image slot)) := rfl
  rw [hexec, State.respondSummary_eq]
  refine ⟨fun hv => ?_, fun hv => ?_⟩
  · have hv : (s.image slot).valid = true := hv
    rw [if_pos hv, if_pos hv, State.respond, writePayload, SpdSummary.bytes_length, ht, ha]
    rfl
  · have hv : ¬ (s.image slot).valid = true := by
      rw [Bool.not_eq_true]; exact hv
    rw [if_neg hv, if_neg hv, State.respond_nil_of_idle ht ha]
    rfl

/-! ### Lists made of pieces of one length -/

section Pieces

variable {α β : Type} {f : α → List β} {n : Nat}

theorem flatMap_length_of_pieces (hf : ∀ a, (f a).length = n) (l : List α) : (l.flatMap f).length = n * l.length := by
  induction l with
  | nil => rfl
  | cons a l ih => rw [List.flatMap_cons, List.length_append, hf, ih, List.length_cons]; ring

/-- The pieces before the `i`-th have `n * i` elements. -/
theorem flatMap_drop_of_pieces (hf : ∀ a, (f a).length = n) (l : List α) (i : Nat) :
    (l.flatMap f).drop (n * i) = (l.drop i).flatMap f := by
  induction i generalizing l with
  | zero => rfl
  | succ i ih =>
    cases l with
    | nil => simp
    | cons a l =>
      rw [Nat.mul_succ, Nat.add_comm, ← List.drop_drop, List.flatMap_cons, List.drop_left' (hf a), ih l,
        List.drop_succ_cons]

/-- The `i`-th piece. -/
theorem flatMap_piece (hf : ∀ a, (f a).length = n) {l : List α} {i : Nat} (hi : i < l.length) :
    ((l.flatMap f).drop (n * i)).take n = f l[i] := by
  rw [flatMap_drop_of_pieces hf, List.drop_eq_getElem_cons hi, List.flatMap_cons, List.take_left' (hf _)]

/-- The `j`-th element of the `i`-th piece. -/
theorem flatMap_getElem_of_pieces (hf : ∀ a, (f a).length = n) {l : List α} {i : Nat} (hi : i < l.length) {j : Nat}
    (hj : j < n) : (l.flatMap f)[n * i + j]? = (f l[i])[j]? := by
  rw [← List.getElem?_drop, flatMap_drop_of_pieces hf, List.drop_eq_getElem_cons hi, List.flatMap_cons,
    List.getElem?_append_left (by rw [hf]; exact hj)]

end Pieces

/-! ### The payload of CTLB -/

theorem SpdImage.serialise_length (im : SpdImage) : im.serialise.length = 516 := by
  simp [SpdImage.serialise, leBytes16, imgCap]

/-- The 512 bytes of a serialised record come first (R70). -/
theorem SpdImage.serialise_byte (im : SpdImage) {o : Nat} (ho : o < 512) :
    im.serialise[o]? = some (im.bytes.read o) := by
  rw [SpdImage.serialise, List.append_assoc, List.getElem?_append_left (by simpa [imgCap] using ho)]
  simp [imgCap, ho]

/-- After its bytes a serialised record has its length, its flag and its slot (R70). -/
theorem SpdImage.serialise_tail (im : SpdImage) (k : Nat) :
    im.serialise[512 + k]? =
      (leBytes16 (BitVec.ofNat 16 im.length) ++ [flagByte im.valid, im.slotIndex.setWidth 8])[k]? := by
  have hlen : ((List.range imgCap).map fun o => im.bytes.read o).length = 512 := by simp [imgCap]
  rw [SpdImage.serialise, List.append_assoc, List.getElem?_append_right (by omega), hlen, Nat.add_sub_cancel_left]

/-- Byte `j` of record `i` in the payload of CTLB (R65). -/
theorem imagesPayload_getElem (img : Vector SpdImage 8) (i : Fin 8) {j : Nat} (hj : j < 516) :
    (imagesPayload img)[516 * i.val + j]? = img[i].serialise[j]? := by
  have hi : i.val < img.toList.length := by simp
  rw [imagesPayload, flatMap_getElem_of_pieces SpdImage.serialise_length hi hj]
  simp

/-- Settles O46: record `i` is the `i`-th piece of 516 bytes, whose fields stand one after another. -/
theorem ctlbPayloadLayout : Obligations.CtlbPayloadLayout := by
  intro img
  refine ⟨by rw [imagesPayload, flatMap_length_of_pieces SpdImage.serialise_length]; simp, fun i => ?_⟩
  have htail (k : Nat) (hk : k < 4) : (imagesPayload img)[516 * i.val + (512 + k)]? =
      (leBytes16 (BitVec.ofNat 16 img[i].length) ++ [flagByte img[i].valid, img[i].slotIndex.setWidth 8])[k]? := by
    rw [imagesPayload_getElem img i (by omega), SpdImage.serialise_tail]
  refine ⟨fun o ho => ?_, fun hlen => ⟨_, _, htail 0 (by omega), htail 1 (by omega), ?_⟩, htail 2 (by omega),
    htail 3 (by omega)⟩
  · rw [imagesPayload_getElem img i (by omega), SpdImage.serialise_byte img[i] ho]
  · have hvalue := leValue_leBytes16 (BitVec.ofNat 16 img[i].length)
    rw [BitVec.toNat_ofNat, Nat.mod_eq_of_lt hlen] at hvalue
    simpa [leValue, leBytes16] using hvalue

/-! ### The requester's side -/

theorem SpdImage.rawBytes_getElem (im : SpdImage) {o : Nat} (ho : o < im.length) :
    im.rawBytes[o]? = some (im.bytes.read o) := by
  simp [SpdImage.rawBytes, ho]

/-- Settles O58: a valid record's bytes replace the artifact of its slot. -/
theorem persistThenReadGivesTheBytes : Obligations.PersistThenReadGivesTheBytes := by
  intro im art
  refine ⟨fun hv => by simp [SpdImage.persist, hv], fun hv => ?_⟩
  have hpersist (a : ArtifactStore) : im.persist a = some (a.set im.slotIndex.toNat im.rawBytes im.slotIndex.isLt) := by
    rw [SpdImage.persist, if_pos hv]
  refine ⟨_, hpersist art, ?twice, ?length, fun o ho => ?bytes, fun j hj => ?others⟩
  case twice => rw [hpersist]; simp
  case length => simp [SpdImage.rawBytes]
  case bytes => simpa using im.rawBytes_getElem ho
  case others => simp [Ne.symm hj]

/-- The sixteen hexadecimal digits (R145). -/
theorem hexDigit_digits {n : Nat} (h : n < 16) :
    some (hexDigit n) =
      ['0', '1', '2', '3', '4', '5', '6', '7', '8', '9', 'A', 'B', 'C', 'D', 'E', 'F'][n]? := by
  interval_cases n <;> rfl

theorem hexOffset_getElem (n : Nat) {j : Nat} (hj : j < 4) :
    (hexOffset n)[j]? = some (hexDigit (n / 16 ^ (3 - j) % 16)) := by
  interval_cases j <;> simp [hexOffset]

/-- The hexadecimal columns of a row: three characters for each byte (R145). -/
def SpdImage.hexColumns (im : SpdImage) (r : Nat) : List Char :=
  (List.range 16).flatMap fun k => hexByte (im.bytes.read (16 * r + k)) ++ [' ']

/-- The character columns of a row (R145). -/
def SpdImage.charColumns (im : SpdImage) (r : Nat) : List Char :=
  (List.range 16).map fun k => dumpChar (im.bytes.read (16 * r + k))

theorem SpdImage.hexColumns_length (im : SpdImage) (r : Nat) : (im.hexColumns r).length = 48 := by
  rw [SpdImage.hexColumns, flatMap_length_of_pieces (n := 3) fun _ => rfl]; simp

theorem SpdImage.charColumns_length (im : SpdImage) (r : Nat) : (im.charColumns r).length = 16 := by
  simp [SpdImage.charColumns]

/-- The three characters of byte `k` in the hexadecimal columns. -/
theorem SpdImage.hexColumns_getElem (im : SpdImage) (r : Nat) {k j : Nat} (hk : k < 16) (hj : j < 3) :
    (im.hexColumns r)[3 * k + j]? = (hexByte (im.bytes.read (16 * r + k)) ++ [' '])[j]? := by
  have hk' : k < (List.range 16).length := by simpa using hk
  rw [SpdImage.hexColumns, flatMap_getElem_of_pieces (n := 3) (fun _ => rfl) hk' hj, List.getElem_range]

theorem SpdImage.charColumns_getElem (im : SpdImage) (r : Nat) {k : Nat} (hk : k < 16) :
    (im.charColumns r)[k]? = some (dumpChar (im.bytes.read (16 * r + k))) := by
  simp [SpdImage.charColumns, hk]

/-- A row by its columns. -/
theorem SpdImage.dumpRow_eq (im : SpdImage) (r : Nat) :
    im.dumpRow r = hexOffset (16 * r) ++ ([':', ' '] ++ (im.hexColumns r ++ (' ' :: (im.charColumns r ++ ['\n'])))) := by
  simp [SpdImage.dumpRow, SpdImage.hexColumns, SpdImage.charColumns]

theorem SpdImage.dumpRow_length (im : SpdImage) (r : Nat) : (im.dumpRow r).length = 72 := by
  rw [SpdImage.dumpRow_eq]
  simp [hexOffset, im.hexColumns_length, im.charColumns_length]

theorem SpdImage.dumpRow_hex (im : SpdImage) (r : Nat) {j : Nat} (hj : j < 48) :
    (im.dumpRow r)[6 + j]? = (im.hexColumns r)[j]? := by
  rw [SpdImage.dumpRow_eq, ← List.append_assoc, List.getElem?_append_right (by simp [hexOffset])]
  rw [List.getElem?_append_left (by simp [hexOffset, im.hexColumns_length, hj])]
  simp [hexOffset]

/-- The three characters of byte `k` in a row. -/
theorem SpdImage.dumpRow_byte (im : SpdImage) (r : Nat) {k j : Nat} (hk : k < 16) (hj : j < 3) :
    (im.dumpRow r)[6 + (3 * k + j)]? = (hexByte (im.bytes.read (16 * r + k)) ++ [' '])[j]? := by
  rw [im.dumpRow_hex r (by omega), im.hexColumns_getElem r hk hj]

/-- The characters of a row after its hexadecimal columns. -/
theorem SpdImage.dumpRow_tail (im : SpdImage) (r j : Nat) :
    (im.dumpRow r)[54 + j]? = (' ' :: (im.charColumns r ++ ['\n']))[j]? := by
  have hlen : (hexOffset (16 * r) ++ ([':', ' '] ++ im.hexColumns r)).length = 54 := by
    simp [hexOffset, im.hexColumns_length]
  rw [SpdImage.dumpRow_eq, ← List.append_assoc [':', ' '], ← List.append_assoc (hexOffset (16 * r)),
    List.getElem?_append_right (by omega), hlen, Nat.add_sub_cancel_left]

theorem SpdImage.dumpRow_char (im : SpdImage) (r : Nat) {k : Nat} (hk : k < 16) :
    (im.dumpRow r)[54 + (k + 1)]? = some (dumpChar (im.bytes.read (16 * r + k))) := by
  rw [im.dumpRow_tail, List.getElem?_cons_succ, List.getElem?_append_left (by rw [im.charColumns_length]; exact hk),
    im.charColumns_getElem r hk]

theorem SpdImage.dumpRow_feed (im : SpdImage) (r : Nat) : (im.dumpRow r)[71]? = some '\n' := by
  rw [im.dumpRow_tail r 17, List.getElem?_cons_succ, List.getElem?_append_right (by rw [im.charColumns_length]),
    im.charColumns_length]
  rfl

/-- Settles O59: a dump is its rows, and a row is its columns. -/
theorem dumpHasRowsOf72Characters : Obligations.DumpHasRowsOf72Characters := by
  intro im digits
  have hrows := im.dumpRow_length
  refine ⟨?total, fun r hr => ?rows, fun r => ⟨hrows r, fun j hj => ?offset, ?colon, ?space, fun k hk => ?hex, ?gap,
    fun k hk => ?char, ?feed⟩⟩
  case total => rw [SpdImage.dump, flatMap_length_of_pieces hrows, List.length_range]
  case rows =>
    have hr' : r < (List.range (im.length / 16)).length := by simpa using hr
    rw [SpdImage.dump, flatMap_piece hrows hr', List.getElem_range]
  case offset =>
    rw [SpdImage.dumpRow_eq, List.getElem?_append_left (by simpa [hexOffset] using hj), hexOffset_getElem _ hj]
    exact hexDigit_digits (Nat.mod_lt _ (by decide))
  case colon => rw [SpdImage.dumpRow_eq]; rfl
  case space => rw [SpdImage.dumpRow_eq]; rfl
  case hex =>
    have hbyte := (im.bytes.read (16 * r + k)).isLt
    refine ⟨?_, ?_, ?_⟩
    · exact (im.dumpRow_byte r hk (j := 0) (by decide)).trans (hexDigit_digits (by omega))
    · rw [show 7 + 3 * k = 6 + (3 * k + 1) by omega]
      exact (im.dumpRow_byte r hk (by decide)).trans (hexDigit_digits (Nat.mod_lt _ (by decide)))
    · rw [show 8 + 3 * k = 6 + (3 * k + 2) by omega]
      exact im.dumpRow_byte r hk (by decide)
  case gap => exact im.dumpRow_tail r 0
  case char =>
    rw [show 55 + k = 54 + (k + 1) by omega]
    exact im.dumpRow_char r hk
  case feed => exact im.dumpRow_feed r

end Sys2Proof.Machine
end

section
/-! PROOFS. One transaction as a whole (R98, R99, R101): what `readByte` can return, and RDBYTE as a run of the machine
from its acceptance to its response. -/

namespace Sys2Proof.Machine

/-! ### What a transaction can return -/

/-- A wait of the full budget at port `p`: its events are reads of `p` and stalls, at most 2000, and one less where a
sample ends it (R85). -/
structure BoundedWait (p : Port) (r : WaitResult) : Prop where
  events : ∀ e ∈ r.events, e = .stall ∨ ∃ v, e = .ior8 p v
  length : r.events.length ≤ 2000
  length_of_sample : r.sample.isSome → r.events.length + 1 ≤ 2000

theorem waitFor_events (p : Port) (ends : Byte → Bool) (n : Nat) (src : Source) :
    ∀ e ∈ (waitFor p ends n src).events, e = .stall ∨ ∃ v, e = .ior8 p v := by
  induction n generalizing src with
  | zero => simp [waitFor]
  | succ n ih =>
    unfold waitFor
    simp only
    split
    · simp
    · simpa using ih (src.next Config.ioAnswer).2

theorem waitFor_bounded (p : Port) (ends : Byte → Bool) (src : Source) :
    BoundedWait p (waitFor p ends pollBudget src) where
  events := waitFor_events p ends pollBudget src
  length := (waitFor_length p ends pollBudget src).1
  length_of_sample := (waitFor_length p ends pollBudget src).2

/-- A wait writes nothing. -/
theorem BoundedWait.filter_isWrite {p : Port} {r : WaitResult} (h : BoundedWait p r) :
    r.events.filter Event.isWrite = [] := by
  rw [List.filter_eq_nil_iff]
  intro e he
  rcases h.events e he with rfl | ⟨v, rfl⟩ <;> simp [Event.isWrite]

/-- A wait reads no other port. -/
theorem BoundedWait.countP_isReadOf {p q : Port} {r : WaitResult} (h : BoundedWait p r) (hpq : p ≠ q) :
    r.events.countP (Event.isReadOf q) = 0 := by
  rw [List.countP_eq_zero]
  intro e he
  rcases h.events e he with rfl | ⟨v, rfl⟩ <;> simp [Event.isReadOf, hpq]

/-- What a transaction can return (R96, R98): nothing done, a busy controller, a failed completion, or a byte. -/
inductive ReadCase (cfg : Params) (base : Port) (slave : SlaveAddr) (offset : Byte) : ReadResult → Prop where
  | unresolved (src : Source) : base = 0#16 →
      ReadCase cfg base slave offset ⟨.controllerNotFound, none, [], src⟩
  | busy (a : WaitResult) : BoundedWait (portAt base cfg.offSts) a →
      ReadCase cfg base slave offset ⟨.busTimeout, none, a.events, a.src⟩
  | failed (a c : WaitResult) (oc : OutcomeCode) : BoundedWait (portAt base cfg.offSts) a → a.sample.isSome →
      BoundedWait (portAt base cfg.offSts) c → oc ≠ .success →
      ReadCase cfg base slave offset ⟨oc, none, a.events ++ setupWrites cfg base slave offset ++ c.events, c.src⟩
  | obtained (a c : WaitResult) (v : Byte) (src : Source) : BoundedWait (portAt base cfg.offSts) a → a.sample.isSome →
      BoundedWait (portAt base cfg.offSts) c → c.sample.isSome →
      ReadCase cfg base slave offset ⟨.success, some v,
        a.events ++ setupWrites cfg base slave offset ++ c.events ++ [.ior8 (portAt base cfg.offDat0) v], src⟩

theorem readByte_cases (cfg : Params) (base : Port) (slave : SlaveAddr) (offset : Byte) (src : Source) :
    ReadCase cfg base slave offset (readByte cfg base slave offset src) := by
  unfold readByte
  split
  · exact .unresolved src ‹_›
  extract_lets a
  have ha : BoundedWait (portAt base cfg.offSts) a := waitFor_bounded _ _ _
  split
  · exact .busy a ha
  rename_i sample hsample
  have hsome : a.sample.isSome := by rw [hsample]; rfl
  unfold finishRead
  extract_lets c
  have hc : BoundedWait (portAt base cfg.offSts) c := waitFor_bounded _ _ _
  split
  · exact .failed a c .busTimeout ha hsome hc nofun
  rename_i v hv
  split
  · exact .failed a c .transactionError ha hsome hc nofun
  · exact .obtained a c _ _ ha hsome hc (by rw [hv]; rfl)

section ReadCase

variable {cfg : Params} {base : Port} {slave : SlaveAddr} {offset : Byte} {r : ReadResult}

theorem ReadCase.length_le (h : ReadCase cfg base slave offset r) : r.events.length ≤ 4003 := by
  have hsetup : (setupWrites cfg base slave offset).length = 4 := rfl
  cases h with
  | unresolved => exact Nat.zero_le _
  | busy a ha => exact ha.length.trans (by decide)
  | failed a c oc ha hsome hc =>
    have := ha.length_of_sample hsome
    have := hc.length
    simp only [List.length_append]
    omega
  | obtained a c v src ha hsome hc hsome' =>
    have := ha.length_of_sample hsome
    have := hc.length_of_sample hsome'
    simp only [List.length_append, List.length_singleton]
    omega

/-- A transaction has a byte exactly with Success (R96). -/
theorem ReadCase.data_isSome (h : ReadCase cfg base slave offset r) : r.data.isSome = true ↔ r.outcome = .success := by
  cases h with
  | unresolved | busy => simp
  | failed a c oc _ _ _ hoc => simp [hoc]
  | obtained => simp

/-- A transaction writes nothing, or exactly the four registers of its setup (R88, R96). -/
theorem ReadCase.writes (h : ReadCase cfg base slave offset r) :
    r.events.filter Event.isWrite = [] ∨ r.events.filter Event.isWrite = setupWrites cfg base slave offset := by
  have hsetup : (setupWrites cfg base slave offset).filter Event.isWrite = setupWrites cfg base slave offset := rfl
  cases h with
  | unresolved => exact .inl rfl
  | busy a ha => exact .inl ha.filter_isWrite
  | failed a c oc ha _ hc =>
    right
    rw [List.filter_append, List.filter_append, ha.filter_isWrite, hc.filter_isWrite, hsetup]
    rfl
  | obtained a c v _ ha _ hc =>
    right
    rw [List.filter_append, List.filter_append, List.filter_append, ha.filter_isWrite, hc.filter_isWrite, hsetup]
    rfl

/-- A transaction reads data-low once with Success, and otherwise not at all (R95, R96). -/
theorem ReadCase.dat0_reads (h : ReadCase cfg base slave offset r) (hok : cfg.ok = true) :
    r.events.countP (Event.isReadOf (portAt base cfg.offDat0)) = if r.outcome = .success then 1 else 0 := by
  have hport : portAt base cfg.offSts ≠ portAt base cfg.offDat0 :=
    (State.dat0Port_ne_stsPort (s := { State.reset with cfg := cfg, base := base }) hok).symm
  have hsetup : (setupWrites cfg base slave offset).countP (Event.isReadOf (portAt base cfg.offDat0)) = 0 := rfl
  cases h with
  | unresolved => rfl
  | busy a ha => exact ha.countP_isReadOf hport
  | failed a c oc ha _ hc hoc =>
    rw [List.countP_append, List.countP_append, ha.countP_isReadOf hport, hc.countP_isReadOf hport, hsetup, if_neg hoc]
  | obtained a c v _ ha _ hc =>
    rw [List.countP_append, List.countP_append, List.countP_append, ha.countP_isReadOf hport,
      hc.countP_isReadOf hport, hsetup]
    simp [Event.isReadOf]

end ReadCase

/-- Settles O22, from the four cases of what a transaction can return. -/
theorem transactionBounds : Obligations.TransactionBounds := by
  intro cfg base slave offset src hok
  have h := readByte_cases cfg base slave offset src
  exact ⟨h.length_le, h.writes, h.data_isSome, h.dat0_reads hok⟩

/-! ### Runs of a bounded number of steps -/

/-- The machine comes from `s` to `t` in at most `b` steps. -/
def Reaches (b : Nat) (s t : State) : Prop := ∃ n ≤ b, stepN n s = .next t

theorem Reaches.refl (s : State) : Reaches 0 s s := ⟨0, le_rfl, rfl⟩

theorem Reaches.of_step {s t : State} (h : step s = .next t) : Reaches 1 s t := ⟨1, le_rfl, stepN_one h⟩

theorem Reaches.trans {a b : Nat} {s t u : State} (h : Reaches a s t) (h' : Reaches b t u) : Reaches (a + b) s u := by
  obtain ⟨m, hm, hst⟩ := h
  obtain ⟨n, hn, htu⟩ := h'
  exact ⟨m + n, Nat.add_le_add hm hn, (stepN_add hst).trans htu⟩

theorem Reaches.mono {a b : Nat} {s t : State} (h : Reaches a s t) (hab : a ≤ b) : Reaches b s t := by
  obtain ⟨n, hn, hst⟩ := h
  exact ⟨n, hn.trans hab, hst⟩

/-- A transaction, from its start to T_DONE, is `readByte` of the environment's answers (R98). -/
theorem transaction_reaches (s : State) (slave : SlaveAddr) (offset : Byte) (hr : s.rst = false) :
    let r := readByte s.cfg s.base slave offset s.io
    ∃ u, Reaches 4003 (s.startTransaction slave offset) u ∧
      u = { s with
        slave := slave, offset := offset, result := r.data.getD s.result, outcome := r.outcome, sts := u.sts
        tphase := .done, arbcnt := u.arbcnt, cmpcnt := u.cmpcnt, io := r.src, trace := s.trace ++ r.events } := by
  intro r
  by_cases hb : s.base = 0#16
  · have hread : r = ⟨.controllerNotFound, none, [], s.io⟩ := if_pos hb
    rw [State.startTransaction_unresolved hb, hread]
    exact ⟨_, (Reaches.refl _).mono (Nat.zero_le _), by simp⟩
  · rw [State.startTransaction_resolved hb]
    obtain ⟨u, hu, he⟩ := transaction_run
      { s with slave := slave, offset := offset, arbcnt := 0, tphase := .arbRead } hr rfl rfl hb
    exact ⟨u, ⟨_, (readByte_cases _ _ _ _ _).length_le, hu⟩, he⟩

/-! ### RDBYTE -/

/-- Settles O21: the start, the transaction, and the response at T_DONE. -/
theorem rdbyteRunsReadByte : Obligations.RdbyteRunsReadByte := by
  intro s slave offset hr hl ht hd
  obtain ⟨w, hw, he⟩ := transaction_reaches s slave offset hr
  have hdone : w.tphase = .done := by rw [he]
  have hend : step w = .next w.respondByte := by
    rw [step_locked (by rw [he]; exact hr) (not_active_of_done hdone) (by rw [he]; exact hl),
      runWord_of_decode (i := .rdbyte slave offset) (by rw [he]; exact hd)]
    exact (CommandStep.rdbyteEnd slave offset hdone).exec_eq (not_active_of_done hdone)
  obtain ⟨n, hn, hrun⟩ := hw.trans (Reaches.of_step hend)
  refine ⟨s.startTransaction slave offset, exec_rdbyte_idle slave offset ht, n, w.respondByte, hn, hrun, ?_⟩
  have hdata := (readByte_cases s.cfg s.base slave offset s.io).data_isSome
  generalize readByte s.cfg s.base slave offset s.io = r at he hdata
  have hpayload : (if w.outcome = .success then [w.result] else []) = r.data.toList := by
    rw [he]
    cases hdat : r.data with
    | none => simp [hdat] at hdata; simp [hdata]
    | some v => simp [hdat] at hdata; simp [hdata]
  rw [State.respondByte_eq, hpayload, he]
  exact ⟨⟨rfl, rfl, rfl, rfl, rfl⟩, rfl, rfl, rfl, rfl, rfl, rfl, rfl, rfl, rfl, rfl, rfl, rfl, rfl, hr⟩

/-- Settles O23: RDBYTE answers what its transaction obtains, which is the device's byte. -/
theorem rdbyteAnswersTheDeviceByte : Obligations.RdbyteAnswersTheDeviceByte := by
  intro s slave offset dev ex hr hl ht hd hok hsuccess hevents hreads hwrites hbusy hclears hstarts hends hdata honly
  have hcontrolled : Controlled s.cfg s.base dev ex :=
    ⟨hreads, hwrites, hbusy, hclears, hstarts, hends, hdata, honly⟩
  have hbyte := readByte_obtains_device_byte hok slave offset s.io ex hcontrolled hsuccess hevents
  obtain ⟨t, hexec, n, u, -, hrun, ⟨hresp, -⟩, -⟩ := rdbyteRunsReadByte s slave offset hr hl ht hd
  refine ⟨t, n, u, hexec, hrun, ?_⟩
  rw [hresp, hsuccess, hbyte]
  rfl

end Sys2Proof.Machine
end

section
/-! PROOFS. A pass as a whole (R122): what `readMany` and `acquireSlot` return, and ACQALL and CTLB as runs of the machine
from their acceptance to their response, byte by byte, slot by slot. -/

namespace Sys2Proof.Machine

/-! ### Several reads in a row -/

section ReadMany

variable (cfg : Params) (base : Port) (slave : SlaveAddr) (o : Nat) (os : List Nat) (src : Source)

/-- A failed read is the last one (R115). -/
theorem readMany_cons_none (h : (readByte cfg base slave (idxByte o) src).data = none) :
    readMany cfg base slave (o :: os) src =
      ⟨[], false, (readByte cfg base slave (idxByte o) src).events, (readByte cfg base slave (idxByte o) src).src⟩ := by
  simp only [readMany, h]

/-- After a byte obtained the other offsets are read. -/
theorem readMany_cons_some {b : Byte} (h : (readByte cfg base slave (idxByte o) src).data = some b) :
    readMany cfg base slave (o :: os) src =
      (let r := readByte cfg base slave (idxByte o) src
       let m := readMany cfg base slave os r.src
       ⟨b :: m.bytes, m.complete, r.events ++ m.events, m.src⟩) := by
  simp only [readMany, h]

/-- Reads are complete exactly if there is a byte for each offset. -/
theorem readMany_bytes_length :
    (readMany cfg base slave os src).bytes.length ≤ os.length ∧
      ((readMany cfg base slave os src).complete = true ↔
        (readMany cfg base slave os src).bytes.length = os.length) := by
  induction os generalizing src with
  | nil => simp [readMany]
  | cons o os ih =>
    cases hdata : (readByte cfg base slave (idxByte o) src).data with
    | none => simp [readMany_cons_none cfg base slave o os src hdata]
    | some b =>
      rw [readMany_cons_some cfg base slave o os src hdata]
      simpa using ih (readByte cfg base slave (idxByte o) src).src

end ReadMany

/-- The length a header selects, by its third byte (R114). -/
theorem classifyLength_getD (bytes : List Byte) :
    classifyLength (bytes.getD 2 0#8) = if bytes[2]? = some 0x0C#8 then 512 else 256 := by
  rw [List.getD_eq_getElem?_getD, classifyLength]
  cases bytes[2]? with
  | none => rfl
  | some b => by_cases hb : b = 0x0C#8 <;> simp [bigMarker, lenBig, lenLegacy, hb]

section AcquireSlot

variable {cfg : Params} {base : Port} {slot : Nat} {src : Source}

/-- A failed header leaves the record of the slot empty (R115, R120). -/
theorem acquireSlot_of_failed (h : (readMany cfg base (slotSlave slot) [0, 1, 2, 3] src).complete = false) :
    acquireSlot cfg base slot src =
      (let r := readMany cfg base (slotSlave slot) [0, 1, 2, 3] src
       ⟨emptyImage (BitVec.ofNat 3 slot), r.events, r.src⟩) :=
  if_neg (by simpa using h)

/-- A complete header selects the length of the body, which is read from offset 0 (R114, R117). -/
theorem acquireSlot_of_complete (h : (readMany cfg base (slotSlave slot) [0, 1, 2, 3] src).complete = true) :
    acquireSlot cfg base slot src =
      (let r := readMany cfg base (slotSlave slot) [0, 1, 2, 3] src
       let n := classifyLength (r.bytes.getD 2 0#8)
       let b := readMany cfg base (slotSlave slot) (List.range n) r.src
       ⟨⟨BitVec.ofNat 3 slot, Memory.writeFrom [] 0 b.bytes, n, b.complete⟩, r.events ++ b.events, b.src⟩) :=
  if_pos h

end AcquireSlot

/-- Settles O30: the record of a slot is the bytes of its body, written from offset 0 into an empty one. -/
theorem slotRecordHoldsExactlyTheBytesRead : Obligations.SlotRecordHoldsExactlyTheBytesRead := by
  intro cfg base slot src
  extract_lets h im n b
  refine ⟨fun hfailed => congrArg SlotResult.image (acquireSlot_of_failed hfailed), fun hcomplete => ?_⟩
  have hn : classifyLength (h.bytes.getD 2 0#8) = n := classifyLength_getD h.bytes
  have him : im = ⟨BitVec.ofNat 3 slot, Memory.writeFrom [] 0 b.bytes, n, b.complete⟩ := by
    have hslot := congrArg SlotResult.image (acquireSlot_of_complete hcomplete)
    simp only [show readMany cfg base (slotSlave slot) [0, 1, 2, 3] src = h from rfl, hn] at hslot
    exact hslot
  obtain ⟨hle, hall⟩ := readMany_bytes_length cfg base (slotSlave slot) (List.range n) h.src
  rw [List.length_range] at hle hall
  rw [him]
  refine ⟨rfl, rfl, hle, hall, Memory.wf_writeFrom Memory.wf_nil 0 b.bytes, fun o => ?_⟩
  exact (Memory.read_writeFrom Memory.wf_nil 0 b.bytes o).trans (if_pos (Nat.zero_le o))

/-! ### Runs inside a pass -/

/-- No byte, no Success (R96). -/
theorem ReadCase.outcome_ne {cfg : Params} {base : Port} {slave : SlaveAddr} {offset : Byte} {r : ReadResult}
    (h : ReadCase cfg base slave offset r) (hdata : r.data = none) : r.outcome ≠ .success := by
  intro hok
  have hsome := h.data_isSome.mpr hok
  rw [hdata] at hsome
  cases hsome

/-- A byte comes with Success (R96). -/
theorem ReadCase.outcome_eq {cfg : Params} {base : Port} {slave : SlaveAddr} {offset : Byte} {r : ReadResult} {b : Byte}
    (h : ReadCase cfg base slave offset r) (hdata : r.data = some b) : r.outcome = .success :=
  h.data_isSome.mp (by rw [hdata]; rfl)

/-- The engine is in the middle of command `i`, with no reset event. -/
structure InCommand (i : Instr) (s : State) : Prop where
  rst : s.rst = false
  lock : s.lock = true
  decodes : decode s.cmdw = .ok i

theorem InCommand.of_frame {i : Instr} {s t : State} (h : InCommand i s) (hframe : PassFrame s t) : InCommand i t :=
  ⟨hframe.rst.trans h.rst, hframe.lock.trans h.lock, hframe.cmdw.symm ▸ h.decodes⟩

/-- A run inside a command from `s` to `u` in at most `b` steps, ending between two transactions: the events it performs
and the answers still to come after it. -/
structure PassRun (b : Nat) (s u : State) (events : List Event) (src : Source) : Prop extends PassFrame s u where
  reaches : Reaches b s u
  idle : u.tphase = .idle
  io : u.io = src
  trace : u.trace = s.trace ++ events

theorem PassRun.trans {a b : Nat} {s t u : State} {events events' : List Event} {src src' : Source}
    (h : PassRun a s t events src) (h' : PassRun b t u events' src') : PassRun (a + b) s u (events ++ events') src' where
  toPassFrame := h.toPassFrame.trans h'.toPassFrame
  reaches := h.reaches.trans h'.reaches
  idle := h'.idle
  io := h'.io
  trace := by rw [h'.trace, h.trace, List.append_assoc]

theorem PassRun.mono {a b : Nat} {s u : State} {events : List Event} {src : Source} (h : PassRun a s u events src)
    (hab : a ≤ b) : PassRun b s u events src := { h with reaches := h.reaches.mono hab }

/-- The end of the transaction for one byte of a pass, before its result is taken: what the transaction has written, and
what it has left as it was. -/
structure ByteDone (s u : State) (r : ReadResult) : Prop extends PassFrame s u where
  reaches : Reaches 4004 s u
  tphase : u.tphase = .done
  aphase : u.aphase = s.aphase
  slot : u.slot = s.slot
  idx : u.idx = s.idx
  len : u.len = s.len
  hdr : u.hdr = s.hdr
  img : u.img = s.img
  outcome : u.outcome = r.outcome
  result : ∀ b, r.data = some b → u.result = b
  io : u.io = r.src
  trace : u.trace = s.trace ++ r.events

theorem PassRun.refl (s : State) (ht : s.tphase = .idle) : PassRun 0 s s [] s.io where
  toPassFrame := .refl s
  reaches := .refl s
  idle := ht
  io := rfl
  trace := (List.append_nil _).symm

/-- A record with bytes stored from offset `o` on, valid if these were the last ones (R116, R118). -/
def SpdImage.fill (o : Nat) (bytes : List Byte) (complete : Bool) (im : SpdImage) : SpdImage :=
  { im with bytes := Memory.writeFrom im.bytes o bytes, valid := im.valid || complete }

theorem SpdImage.fill_nil (o : Nat) (im : SpdImage) : im.fill o [] false = im := by
  simp [SpdImage.fill, Memory.writeFrom]

/-- A valid record whose bytes are all stored. -/
theorem SpdImage.fill_nil_of_valid (o : Nat) {im : SpdImage} (hv : im.valid = true) : im.fill o [] true = im := by
  cases im
  cases hv
  rfl

theorem SpdImage.fill_byte (o : Nat) (b : Byte) : SpdImage.fill o [b] false = SpdImage.setByte o b := by
  funext im
  simp [SpdImage.fill, SpdImage.setByte, Memory.writeFrom]

theorem SpdImage.fill_last_byte (o : Nat) (b : Byte) :
    SpdImage.fill o [b] true = fun im => (im.setByte o b).markValid := by
  funext im
  simp [SpdImage.fill, SpdImage.setByte, SpdImage.markValid, Memory.writeFrom]

/-- A byte and the bytes after it. -/
theorem SpdImage.fill_fill (o : Nat) (b : Byte) (bytes : List Byte) {last complete : Bool}
    (h : last = true → complete = true) (im : SpdImage) :
    (im.fill o [b] last).fill (o + 1) bytes complete = im.fill o (b :: bytes) complete := by
  have hv : (im.valid || last || complete) = (im.valid || complete) := by
    cases last <;> simp_all
  simp only [SpdImage.fill, Memory.writeFrom, hv]

/-- Two writes to one record. -/
theorem updateImage_updateImage {s t : State} {k : Nat} {f : SpdImage → SpdImage}
    (h : t.img = (s.updateImage k f).img) (g : SpdImage → SpdImage) :
    (t.updateImage k g).img = (s.updateImage k (g ∘ f)).img := by
  unfold State.updateImage at h ⊢
  split
  · rename_i hk
    simp only [dif_pos hk] at h
    simp [h]
  · rename_i hk
    simpa only [dif_neg hk] using h

/-- Writes that give a record the same contents. -/
theorem updateImage_congr {s : State} {k : Nat} {f g : SpdImage → SpdImage}
    (h : ∀ j : Fin 8, j.val = k → f s.img[j] = g s.img[j]) : (s.updateImage k f).img = (s.updateImage k g).img := by
  unfold State.updateImage
  split
  · rename_i hk
    have hsame : f s.img[k] = g s.img[k] := h ⟨k, hk⟩ rfl
    simp only [hsame]
  · rfl

/-- A write that leaves the record as it is. -/
theorem updateImage_eq_self {s : State} {k : Nat} {f : SpdImage → SpdImage}
    (h : ∀ j : Fin 8, j.val = k → f s.img[j] = s.img[j]) : (s.updateImage k f).img = s.img := by
  rw [updateImage_congr (g := id) h]
  unfold State.updateImage
  split <;> simp

/-- The records up to the one of slot `k`, after a write to it. -/
theorem updateImage_take {s : State} {k : Nat} (hk : k < 8) (im : SpdImage) :
    (s.updateImage k fun _ => im).img.toList.take (k + 1) = s.img.toList.take k ++ [im] := by
  rw [State.updateImage_eq hk, Vector.toList_set, List.take_succ_eq_append_getElem (by simpa using hk), List.take_set_of_le le_rfl,
    List.getElem_set_self]

/-- The slots of a pass end with Success whatever is read (R124). -/
theorem acquireSlots_outcome (cfg : Params) (base : Port) (slots : List Nat) (src : Source) :
    (acquireSlots cfg base slots src).outcome = .success := by
  cases slots <;> rfl

theorem State.nextSlot_tphase (s : State) : s.nextSlot.tphase = s.tphase := by
  unfold State.nextSlot
  split <;> rfl

theorem State.beginPass_tphase (s : State) : s.beginPass.tphase = s.tphase := by
  unfold State.beginPass
  split <;> rfl

/-- The records after slot `k` are those there were. -/
theorem EmptyFrom.of_updateImage {s t : State} {k n : Nat} {f : SpdImage → SpdImage} (h : EmptyFrom s n)
    (himg : t.img = (s.updateImage k f).img) (hk : k < n) : EmptyFrom t n := by
  intro j hj
  rw [himg]
  exact h.updateImage hk f j hj

section Pass

variable {i : Instr} {finish : State → State} (hexec : ∀ u : State, exec i u = u.pass finish)
include hexec

/-- The step of the machine inside a pass. -/
theorem InCommand.step_of_passStep {s t : State} (h : InCommand i s) (ha : s.tphase.active = false)
    (hstep : PassStep s finish t) : step s = .next t := by
  rw [step_locked h.rst ha h.lock, runWord_of_decode h.decodes, hexec, hstep.pass_eq ha]

/-- A silent step of a pass. -/
theorem InCommand.run_of_passStep {s t : State} (h : InCommand i s) (ht : s.tphase = .idle)
    (hstep : PassStep s finish t) (hframe : SilentFrame s t) (ht' : t.tphase = .idle) : PassRun 1 s t [] s.io where
  toPassFrame := hframe.1
  reaches := .of_step (h.step_of_passStep hexec (not_active_of_idle ht) hstep)
  idle := ht'
  io := hframe.2.1
  trace := by rw [hframe.2.2, List.append_nil]

/-- One byte of a pass, up to the end of its transaction (R113, R116). -/
theorem InCommand.byte_done {s : State} (h : InCommand i s) (ht : s.tphase = .idle)
    (hstart : PassStep s finish (s.startTransaction (slotSlave s.slot) (idxByte s.idx))) :
    ∃ u, ByteDone s u (readByte s.cfg s.base (slotSlave s.slot) (idxByte s.idx) s.io) := by
  obtain ⟨u, hu, he⟩ := transaction_reaches s (slotSlave s.slot) (idxByte s.idx) h.rst
  have hfirst := Reaches.of_step (h.step_of_passStep hexec (not_active_of_idle ht) hstart)
  have hreaches : Reaches 4004 s u := hfirst.trans hu
  refine ⟨u, ?_⟩
  generalize readByte s.cfg s.base (slotSlave s.slot) (idxByte s.idx) s.io = r at he ⊢
  exact {
    toPassFrame := by rw [he]; constructor <;> rfl
    reaches := hreaches
    tphase := by rw [he]
    aphase := by rw [he]
    slot := by rw [he]
    idx := by rw [he]
    len := by rw [he]
    hdr := by rw [he]
    img := by rw [he]
    outcome := by rw [he]
    result := fun b hb => by rw [he, hb]; rfl
    io := by rw [he]
    trace := by rw [he] }

/-- The step that takes the result of a byte ends its run: 4005 steps at most. -/
theorem InCommand.byte_run {s u t : State} (h : InCommand i s) {r : ReadResult} (hdone : ByteDone s u r)
    (htake : PassStep u finish t) (hframe : SilentFrame u t) (ht : t.tphase = .idle) :
    PassRun 4005 s t r.events r.src where
  toPassFrame := hdone.toPassFrame.trans hframe.1
  reaches := hdone.reaches.trans
    (.of_step ((h.of_frame hdone.toPassFrame).step_of_passStep hexec (not_active_of_done hdone.tphase) htake))
  idle := ht
  io := hframe.2.1.trans hdone.io
  trace := hframe.2.2.trans hdone.trace

/-- A header byte that is not obtained ends the slot (R113, R115). -/
theorem InCommand.header_byte_failed {s : State} (h : InCommand i s) (hp : s.aphase = .hdr) (ht : s.tphase = .idle)
    (hslot : s.slot < nSlots) (hidx : s.idx < hdrLen)
    (hdata : (readByte s.cfg s.base (slotSlave s.slot) (idxByte s.idx) s.io).data = none) :
    ∃ t, PassRun 4005 s t (readByte s.cfg s.base (slotSlave s.slot) (idxByte s.idx) s.io).events
        (readByte s.cfg s.base (slotSlave s.slot) (idxByte s.idx) s.io).src ∧
      t.slot = s.slot ∧ t.img = s.img ∧ t.aphase = .next := by
  obtain ⟨u, hu⟩ := h.byte_done hexec ht (.hdrStart hp hslot hidx ht)
  have htake := PassStep.hdrTake (finish := finish) (hu.aphase.trans hp) (hu.slot.symm ▸ hslot) (hu.idx.symm ▸ hidx)
    hu.tphase
  have hframe := u.takeHeaderByte_silentFrame
  have hfailed : u.outcome ≠ .success := hu.outcome ▸ (readByte_cases _ _ _ _ _).outcome_ne hdata
  rw [State.takeHeaderByte_failed hfailed] at htake hframe
  exact ⟨_, h.byte_run hexec hu htake hframe rfl, hu.slot, hu.img, rfl⟩

/-- A header byte obtained goes to HDR[IDX]; the next one follows, or the classification after the last (R113). -/
theorem InCommand.header_byte_obtained {s : State} (h : InCommand i s) (hp : s.aphase = .hdr) (ht : s.tphase = .idle)
    (hslot : s.slot < nSlots) (hidx : s.idx < hdrLen) {b : Byte}
    (hdata : (readByte s.cfg s.base (slotSlave s.slot) (idxByte s.idx) s.io).data = some b) :
    ∃ t, PassRun 4005 s t (readByte s.cfg s.base (slotSlave s.slot) (idxByte s.idx) s.io).events
        (readByte s.cfg s.base (slotSlave s.slot) (idxByte s.idx) s.io).src ∧
      t.slot = s.slot ∧ t.img = s.img ∧ t.hdr = s.hdr.setIfInBounds s.idx b ∧
      (s.idx + 1 < hdrLen → t.aphase = .hdr ∧ t.idx = s.idx + 1) ∧ (¬ s.idx + 1 < hdrLen → t.aphase = .classify) := by
  obtain ⟨u, hu⟩ := h.byte_done hexec ht (.hdrStart hp hslot hidx ht)
  have htake := PassStep.hdrTake (finish := finish) (hu.aphase.trans hp) (hu.slot.symm ▸ hslot) (hu.idx.symm ▸ hidx)
    hu.tphase
  have hframe := u.takeHeaderByte_silentFrame
  have hok : u.outcome = .success := hu.outcome.trans ((readByte_cases _ _ _ _ _).outcome_eq hdata)
  have hhdr : u.hdr.setIfInBounds u.idx u.result = s.hdr.setIfInBounds s.idx b := by
    rw [hu.hdr, hu.idx, hu.result b hdata]
  by_cases hmore : s.idx + 1 < hdrLen
  · rw [State.takeHeaderByte_more hok (hu.idx.symm ▸ hmore)] at htake hframe
    exact ⟨_, h.byte_run hexec hu htake hframe rfl, hu.slot, hu.img, hhdr,
      fun _ => ⟨hu.aphase.trans hp, congrArg Nat.succ hu.idx⟩, fun hlast => absurd hmore hlast⟩
  · rw [State.takeHeaderByte_last hok (hu.idx.symm ▸ hmore)] at htake hframe
    exact ⟨_, h.byte_run hexec hu htake hframe rfl, hu.slot, hu.img, hhdr, fun h => absurd h hmore, fun _ => rfl⟩

/-- The header of a slot with `m` bytes to go from offset `o` on is `readMany` of their offsets: the slot is classified
after a complete one, with its third byte in HDR[2], and ends after a failure (R113, R115). -/
theorem InCommand.header_run (m o : Nat) {s : State} (h : InCommand i s) (ht : s.tphase = .idle)
    (hslot : s.slot < nSlots) (hsum : o + m = hdrLen) (hmore : m ≠ 0 → s.aphase = .hdr ∧ s.idx = o)
    (hlast : m = 0 → s.aphase = .classify) :
    let r := readMany s.cfg s.base (slotSlave s.slot) (List.range' o m) s.io
    ∃ u, PassRun (4005 * m) s u r.events r.src ∧ u.slot = s.slot ∧ u.img = s.img ∧
      (r.complete = false → u.aphase = .next) ∧
      (r.complete = true → u.aphase = .classify ∧
        u.hdr[2] = if o ≤ 2 then r.bytes.getD (2 - o) 0#8 else s.hdr[2]) := by
  induction m generalizing s o with
  | zero =>
    have ho : ¬ o ≤ 2 := by rw [Nat.add_zero] at hsum; rw [hsum]; decide
    exact ⟨s, .refl s ht, rfl, rfl, nofun, fun _ => ⟨hlast rfl, by rw [if_neg ho]⟩⟩
  | succ m ih =>
    obtain ⟨hp, rfl⟩ := hmore (Nat.succ_ne_zero m)
    have hidx : s.idx < hdrLen := by omega
    rw [List.range'_succ]
    cases hdata : (readByte s.cfg s.base (slotSlave s.slot) (idxByte s.idx) s.io).data with
    | none =>
      rw [readMany_cons_none _ _ _ _ _ _ hdata]
      obtain ⟨t, hrun, htslot, htimg, htp⟩ := h.header_byte_failed hexec hp ht hslot hidx hdata
      exact ⟨t, hrun.mono (by omega), htslot, htimg, fun _ => htp, nofun⟩
    | some b =>
      rw [readMany_cons_some _ _ _ _ _ _ hdata]
      obtain ⟨t, hrun, htslot, htimg, hthdr, htmore, htlast⟩ := h.header_byte_obtained hexec hp ht hslot hidx hdata
      have hrest := ih (s.idx + 1) (h.of_frame hrun.toPassFrame) hrun.idle (htslot.symm ▸ hslot) (by omega)
        (fun hm => htmore (by omega)) (fun hm => htlast (by omega))
      rw [hrun.cfg, hrun.base, htslot, hrun.io] at hrest
      obtain ⟨u, hrun', huslot, huimg, hfailed, hcomplete⟩ := hrest
      refine ⟨u, (hrun.trans hrun').mono (by omega), huslot, huimg.trans htimg, hfailed, fun hc => ?_⟩
      obtain ⟨hup, huhdr⟩ := hcomplete hc
      refine ⟨hup, huhdr.trans ?_⟩
      rw [hthdr]
      generalize s.idx = o at hidx ⊢
      have hlt : o < 4 := hidx
      interval_cases o <;> simp

/-- A body byte that is not obtained ends the slot (R115, R116). -/
theorem InCommand.body_byte_failed {s : State} (h : InCommand i s) (hp : s.aphase = .body) (ht : s.tphase = .idle)
    (hslot : s.slot < nSlots) (hidx : s.idx < s.len) (hcap : s.idx < imgCap)
    (hdata : (readByte s.cfg s.base (slotSlave s.slot) (idxByte s.idx) s.io).data = none) :
    ∃ t, PassRun 4005 s t (readByte s.cfg s.base (slotSlave s.slot) (idxByte s.idx) s.io).events
        (readByte s.cfg s.base (slotSlave s.slot) (idxByte s.idx) s.io).src ∧
      t.slot = s.slot ∧ t.img = s.img ∧ t.aphase = .next := by
  obtain ⟨u, hu⟩ := h.byte_done hexec ht (.bodyStart hp hslot hidx hcap ht)
  have htake := PassStep.bodyTake (finish := finish) (hu.aphase.trans hp) (hu.slot.symm ▸ hslot)
    (by rw [hu.idx, hu.len]; exact hidx) (hu.idx.symm ▸ hcap) hu.tphase
  have hframe := u.takeBodyByte_silentFrame
  have hfailed : u.outcome ≠ .success := hu.outcome ▸ (readByte_cases _ _ _ _ _).outcome_ne hdata
  rw [State.takeBodyByte_failed hfailed] at htake hframe
  exact ⟨_, h.byte_run hexec hu htake hframe rfl, hu.slot, hu.img, rfl⟩

/-- A body byte obtained goes to byte IDX of the record; the next one follows, or the record is valid and the slot ends
after the last (R116, R118). -/
theorem InCommand.body_byte_obtained {s : State} (h : InCommand i s) (hp : s.aphase = .body) (ht : s.tphase = .idle)
    (hslot : s.slot < nSlots) (hidx : s.idx < s.len) (hcap : s.idx < imgCap) {b : Byte}
    (hdata : (readByte s.cfg s.base (slotSlave s.slot) (idxByte s.idx) s.io).data = some b) :
    ∃ t, PassRun 4005 s t (readByte s.cfg s.base (slotSlave s.slot) (idxByte s.idx) s.io).events
        (readByte s.cfg s.base (slotSlave s.slot) (idxByte s.idx) s.io).src ∧
      t.slot = s.slot ∧ t.len = s.len ∧
      t.img = (s.updateImage s.slot (SpdImage.fill s.idx [b] (decide (s.idx + 1 = s.len)))).img ∧
      (s.idx + 1 ≠ s.len → t.aphase = .body ∧ t.idx = s.idx + 1) ∧ (s.idx + 1 = s.len → t.aphase = .next) := by
  obtain ⟨u, hu⟩ := h.byte_done hexec ht (.bodyStart hp hslot hidx hcap ht)
  have htake := PassStep.bodyTake (finish := finish) (hu.aphase.trans hp) (hu.slot.symm ▸ hslot)
    (by rw [hu.idx, hu.len]; exact hidx) (hu.idx.symm ▸ hcap) hu.tphase
  have hframe := u.takeBodyByte_silentFrame
  have hok : u.outcome = .success := hu.outcome.trans ((readByte_cases _ _ _ _ _).outcome_eq hdata)
  have himg (f : SpdImage → SpdImage) : (u.updateImage u.slot f).img = (s.updateImage s.slot f).img := by
    simp only [State.updateImage, hu.img, hu.slot]
  by_cases hlast : s.idx + 1 = s.len
  · rw [State.takeBodyByte_last hok (by rw [hu.idx, hu.len]; omega)] at htake hframe
    refine ⟨_, h.byte_run hexec hu htake hframe rfl, hu.slot, hu.len,
      (himg fun im => (im.setByte u.idx u.result).markValid).trans ?_, absurd hlast, fun _ => rfl⟩
    rw [decide_eq_true hlast, SpdImage.fill_last_byte, hu.idx, hu.result b hdata]
  · rw [State.takeBodyByte_more hok (by rw [hu.idx, hu.len]; omega)] at htake hframe
    refine ⟨_, h.byte_run hexec hu htake hframe rfl, hu.slot, hu.len,
      (himg (SpdImage.setByte u.idx u.result)).trans ?_,
      fun _ => ⟨hu.aphase.trans hp, congrArg Nat.succ hu.idx⟩, fun hl => absurd hl hlast⟩
    rw [decide_eq_false hlast, SpdImage.fill_byte, hu.idx, hu.result b hdata]

/-- The body of a slot with `m` bytes to go from offset `o` on is `readMany` of their offsets: its bytes go to the record,
which is valid after a complete one, and the slot ends (R115, R116, R118). -/
theorem InCommand.body_run (m o : Nat) {s : State} (h : InCommand i s) (ht : s.tphase = .idle)
    (hslot : s.slot < nSlots) (hsum : o + m = s.len) (hcap : s.len ≤ imgCap)
    (hmore : m ≠ 0 → s.aphase = .body ∧ s.idx = o)
    (hlast : m = 0 → s.aphase = .next ∧ ∀ j : Fin 8, j.val = s.slot → s.img[j].valid = true) :
    let r := readMany s.cfg s.base (slotSlave s.slot) (List.range' o m) s.io
    ∃ u, PassRun (4005 * m) s u r.events r.src ∧ u.slot = s.slot ∧ u.aphase = .next ∧
      u.img = (s.updateImage s.slot (SpdImage.fill o r.bytes r.complete)).img := by
  induction m generalizing s o with
  | zero =>
    obtain ⟨hp, hvalid⟩ := hlast rfl
    exact ⟨s, .refl s ht, rfl, hp, (updateImage_eq_self fun j hj => SpdImage.fill_nil_of_valid o (hvalid j hj)).symm⟩
  | succ m ih =>
    obtain ⟨hp, rfl⟩ := hmore (Nat.succ_ne_zero m)
    have hidx : s.idx < s.len := by omega
    have hidx' : s.idx < imgCap := hidx.trans_le hcap
    rw [List.range'_succ]
    cases hdata : (readByte s.cfg s.base (slotSlave s.slot) (idxByte s.idx) s.io).data with
    | none =>
      rw [readMany_cons_none _ _ _ _ _ _ hdata]
      obtain ⟨t, hrun, htslot, htimg, htp⟩ := h.body_byte_failed hexec hp ht hslot hidx hidx' hdata
      exact ⟨t, hrun.mono (by omega), htslot, htp,
        htimg.trans (updateImage_eq_self fun _ _ => SpdImage.fill_nil _ _).symm⟩
    | some b =>
      rw [readMany_cons_some _ _ _ _ _ _ hdata]
      obtain ⟨t, hrun, htslot, htlen, htimg, htmore, htlast⟩ :=
        h.body_byte_obtained hexec hp ht hslot hidx hidx' hdata
      have hvalid (hm : m = 0) (j : Fin 8) (hj : j.val = t.slot) : t.img[j].valid = true := by
        have hend : s.idx + 1 = s.len := by omega
        rw [htimg, State.updateImage_same _ _ _ j (hj.trans htslot)]
        simp [SpdImage.fill, hend]
      have hrest := ih (s.idx + 1) (h.of_frame hrun.toPassFrame) hrun.idle (htslot.symm ▸ hslot)
        (by rw [htlen]; omega) (htlen ▸ hcap) (fun hm => htmore (by omega)) (fun hm => ⟨htlast (by omega), hvalid hm⟩)
      rw [hrun.cfg, hrun.base, htslot, hrun.io] at hrest
      obtain ⟨u, hrun', huslot, hup, huimg⟩ := hrest
      refine ⟨u, (hrun.trans hrun').mono (by omega), huslot, hup, ?_⟩
      rw [huimg, updateImage_updateImage htimg]
      congr 2
      funext im
      refine SpdImage.fill_fill _ _ _ (fun hend => ?_) im
      have hm : m = 0 := by rw [decide_eq_true_eq] at hend; omega
      rw [hm]
      rfl

/-- A slot from A_CLASSIFY to A_NEXT: the length, then the body from offset 0 (R114, R116, R117). -/
theorem InCommand.classified_run {s : State} (h : InCommand i s) (hp : s.aphase = .classify) (ht : s.tphase = .idle)
    (hslot : s.slot < nSlots) {n : Nat} (hn : classifyLength s.hdr[2] = n) :
    let r := readMany s.cfg s.base (slotSlave s.slot) (List.range n) s.io
    ∃ u, PassRun (512 * 4005 + 1) s u r.events r.src ∧ u.slot = s.slot ∧ u.aphase = .next ∧
      u.img = (s.updateImage s.slot (SpdImage.fill 0 r.bytes r.complete ∘ SpdImage.setLength n)).img := by
  have hsize : n ≠ 0 ∧ n ≤ 512 := by
    rcases classifyLength_cases s.hdr[2] with hlen | hlen <;> rw [← hn, hlen] <;> decide
  have hclassify := h.run_of_passStep hexec ht (.classify hp hslot) ⟨by constructor <;> rfl, rfl, rfl⟩ ht
  obtain ⟨u, hbody, huslot, hup, huimg⟩ := (h.of_frame hclassify.toPassFrame).body_run hexec n 0 hclassify.idle hslot
    ((Nat.zero_add n).trans hn.symm) (hn.le.trans hsize.2) (fun _ => ⟨rfl, rfl⟩) (fun h0 => absurd h0 hsize.1)
  rw [← List.range_eq_range'] at hbody huimg
  have himg : s.classify.img = (s.updateImage s.slot (SpdImage.setLength n)).img := by rw [← hn]; rfl
  exact ⟨u, (hclassify.trans hbody).mono (by omega), huslot, hup,
    huimg.trans (updateImage_updateImage himg _)⟩

/-- One slot of a pass, from its first header byte to A_NEXT, is `acquireSlot` (R113 to R118). -/
theorem InCommand.slot_run {s : State} (h : InCommand i s) (hp : s.aphase = .hdr) (ht : s.tphase = .idle)
    (hslot : s.slot < nSlots) (hidx : s.idx = 0)
    (hempty : ∀ j : Fin 8, j.val = s.slot → s.img[j] = emptyImage (BitVec.ofNat 3 s.slot)) :
    let r := acquireSlot s.cfg s.base s.slot s.io
    ∃ u, PassRun (516 * 4005 + 1) s u r.events r.src ∧ u.slot = s.slot ∧ u.aphase = .next ∧
      u.img = (s.updateImage s.slot fun _ => r.image).img := by
  obtain ⟨t, hheader, htslot, htimg, hfailed, hcomplete⟩ :=
    h.header_run hexec 4 0 ht hslot (by decide) (fun _ => ⟨hp, hidx⟩) nofun
  have hrange : List.range' 0 4 = [0, 1, 2, 3] := rfl
  rw [hrange] at hheader hfailed hcomplete
  cases hc : (readMany s.cfg s.base (slotSlave s.slot) [0, 1, 2, 3] s.io).complete with
  | false =>
    rw [acquireSlot_of_failed hc]
    exact ⟨t, hheader.mono (by decide), htslot, hfailed hc,
      htimg.trans (updateImage_eq_self fun j hj => (hempty j hj).symm).symm⟩
  | true =>
    obtain ⟨htp, hthdr⟩ := hcomplete hc
    rw [acquireSlot_of_complete hc]
    generalize readMany s.cfg s.base (slotSlave s.slot) [0, 1, 2, 3] s.io = header at hheader hthdr
    obtain ⟨u, hbody, huslot, hup, huimg⟩ := (h.of_frame hheader.toPassFrame).classified_run hexec htp hheader.idle
      (htslot.symm ▸ hslot) (congrArg classifyLength hthdr)
    rw [hheader.cfg, hheader.base, hheader.io, htslot] at hbody huimg
    refine ⟨u, (hheader.trans hbody).mono (by decide), huslot.trans htslot, hup, huimg.trans ?_⟩
    have htimg' (f : SpdImage → SpdImage) : (t.updateImage s.slot f).img = (s.updateImage s.slot f).img := by
      simp only [State.updateImage, htimg]
    rw [htimg']
    refine updateImage_congr fun j hj => ?_
    rw [hempty j hj]
    rfl

/-- The slots of a pass that are left, from the first header byte of slot `k` to A_DONE, are `acquireSlots` (R119). -/
theorem InCommand.slots_run (m k : Nat) {s : State} (h : InCommand i s) (ht : s.tphase = .idle) (hsum : k + m = nSlots)
    (hmore : m ≠ 0 → s.aphase = .hdr ∧ s.slot = k ∧ s.idx = 0)
    (hlast : m = 0 → s.aphase = .done ∧ s.outcome = .success) (hempty : EmptyFrom s k) :
    let r := acquireSlots s.cfg s.base (List.range' k m) s.io
    ∃ u, PassRun (m * (516 * 4005 + 2)) s u r.events r.src ∧ u.aphase = .done ∧ u.outcome = .success ∧
      u.img.toList = s.img.toList.take k ++ r.images := by
  induction m generalizing s k with
  | zero =>
    obtain ⟨hp, ho⟩ := hlast rfl
    refine ⟨s, (PassRun.refl s ht).mono (Nat.zero_le _), hp, ho, ?_⟩
    rw [Nat.add_zero] at hsum
    simp [hsum, nSlots, acquireSlots]
  | succ m ih =>
    obtain ⟨hp, rfl, hidx⟩ := hmore (Nat.succ_ne_zero m)
    have hslot : s.slot < nSlots := by omega
    obtain ⟨t, hrun, htslot, htp, htimg⟩ := h.slot_run hexec hp ht hslot hidx fun j hj => hj ▸ hempty j hj.ge
    have hnext := (h.of_frame hrun.toPassFrame).run_of_passStep hexec hrun.idle (.advance htp) t.nextSlot_silentFrame
      (t.nextSlot_tphase.trans hrun.idle)
    have hrest := ih (s.slot + 1) (h.of_frame (hrun.trans hnext).toPassFrame) hnext.idle (by omega)
      (fun hm => by
        rw [State.nextSlot_more (by omega)]
        exact ⟨rfl, congrArg Nat.succ htslot, rfl⟩)
      (fun hm => by
        rw [State.nextSlot_last (by omega)]
        exact ⟨rfl, rfl⟩)
      ((hempty.mono (Nat.le_succ _)).of_updateImage (t.nextSlot_img.trans htimg) (Nat.lt_succ_self _))
    rw [hnext.cfg, hnext.base, hrun.cfg, hrun.base, hnext.io, hrun.io] at hrest
    obtain ⟨u, hrun', hup, huo, huimg⟩ := hrest
    refine ⟨u, ?_, hup, huo, ?_⟩
    · have hall := (hrun.trans hnext).trans hrun'
      rw [List.append_nil] at hall
      exact hall.mono (by omega)
    · rw [huimg, t.nextSlot_img, htimg, updateImage_take hslot, List.append_assoc]
      rfl

/-- A pass from A_CLEAR to A_DONE is `acquireAll` (R110 to R112, R122, R124). -/
theorem InCommand.pass_run {s : State} (h : InCommand i s) (hp : s.aphase = .clear) (ht : s.tphase = .idle) :
    let r := acquireAll s.cfg s.base s.io
    ∃ u, PassRun (1 + 8 * (516 * 4005 + 2)) s u r.events r.src ∧ u.aphase = .done ∧ u.outcome = r.outcome ∧
      u.img.toList = r.images ∧ (r.outcome = if s.base = 0#16 then .controllerNotFound else .success) := by
  have hbegin := h.run_of_passStep hexec ht (.begin hp) s.beginPass_silentFrame (s.beginPass_tphase.trans ht)
  by_cases hb : s.base = 0#16
  · have hall : acquireAll s.cfg s.base s.io = ⟨.controllerNotFound, emptyImages.toList, [], s.io⟩ := if_pos hb
    rw [hall]
    rw [State.beginPass_unresolved hb] at hbegin
    exact ⟨_, hbegin.mono (Nat.le_add_right _ _), rfl, rfl, rfl, (if_pos hb).symm⟩
  · have hall : acquireAll s.cfg s.base s.io = acquireSlots s.cfg s.base [0, 1, 2, 3, 4, 5, 6, 7] s.io := if_neg hb
    rw [State.beginPass_resolved hb] at hbegin
    obtain ⟨u, hslots, hup, huo, huimg⟩ := (h.of_frame hbegin.toPassFrame).slots_run hexec 8 0 hbegin.idle rfl
      (fun _ => ⟨rfl, rfl, rfl⟩) nofun (emptyFrom_of_emptyImages rfl 0)
    have hrange : List.range' 0 8 = [0, 1, 2, 3, 4, 5, 6, 7] := rfl
    have hsuccess := acquireSlots_outcome s.cfg s.base [0, 1, 2, 3, 4, 5, 6, 7] s.io
    rw [hrange] at hslots huimg
    rw [hall]
    have hrun := hbegin.trans hslots
    rw [List.nil_append] at hrun
    rw [List.take_zero, List.nil_append] at huimg
    exact ⟨u, hrun, hup, huo.trans hsuccess.symm, huimg, hsuccess.trans (if_neg hb).symm⟩

/-- A pass from its acceptance up to its response: the machine comes to the response at the end of `acquireAll`. -/
theorem InCommand.command_run {s : State} (h : InCommand i s) (hp : s.aphase = .idle) (ht : s.tphase = .idle) :
    let r := acquireAll s.cfg s.base s.io
    ∃ t, exec i s = .next t ∧ ∃ u, Reaches 16532658 t (finish u) ∧ PassFrame s u ∧
      u.outcome = (if s.base = 0#16 then .controllerNotFound else .success) ∧ u.outcome = r.outcome ∧
      u.img.toList = r.images ∧ u.trace = s.trace ++ r.events ∧ u.io = r.src := by
  have henter : exec i s = .next { s with aphase := .clear } := by
    rw [hexec, (PassStep.enter hp).pass_eq (not_active_of_idle ht)]
  have hcleared : InCommand i { s with aphase := .clear } := ⟨h.rst, h.lock, h.decodes⟩
  obtain ⟨u, hrun, hup, huo, huimg, hr⟩ := hcleared.pass_run hexec rfl ht
  have hend := (hcleared.of_frame hrun.toPassFrame).step_of_passStep hexec (not_active_of_idle hrun.idle) (.finish hup)
  have hreaches := (hrun.reaches.trans (.of_step hend)).mono (show 1 + 8 * (516 * 4005 + 2) + 1 ≤ 16532658 by decide)
  obtain ⟨hframe, -, -, hio, htrace⟩ := hrun
  exact ⟨_, henter, u, hreaches, ⟨hframe.cfg, hframe.base, hframe.lock, hframe.cmdw, hframe.offers, hframe.responses,
    hframe.outBuf, hframe.rst, hframe.rtr⟩, huo.trans hr, huo, huimg, htrace, hio⟩

end Pass

/-- Where BASE decides the outcome of a pass, the outcome delivered is the one in OUTCOME (R121). -/
theorem passOutcome_eq {u : State} {unresolved : Prop} [Decidable unresolved]
    (hout : u.outcome = if unresolved then .controllerNotFound else .success) :
    (if u.outcome = .controllerNotFound then OutcomeCode.controllerNotFound else .success) = u.outcome := by
  by_cases hb : unresolved <;> simp [hout, hb]

/-- The code of that outcome (R127). -/
theorem passOutcome_code {u : State} {unresolved : Prop} [Decidable unresolved]
    (hout : u.outcome = if unresolved then .controllerNotFound else .success) :
    u.outcome.code = if unresolved then 1#8 else 0#8 := by
  rw [hout]
  split <;> rfl

/-- Settles O31: the pass, and the response at its end. -/
theorem acqallRunsThePass : Obligations.AcqallRunsThePass := by
  intro s hr hl ht ha hd
  obtain ⟨t, hexec, u, ⟨n, hn, hrun⟩, hframe, hout, huo, huimg, hutrace, huio⟩ :=
    InCommand.command_run (finish := State.respondPass) (fun _ => rfl) ⟨hr, hl, hd⟩ ha ht
  refine ⟨t, hexec, n, _, hn, hrun, ?_⟩
  generalize acquireAll s.cfg s.base s.io = r at huo huimg hutrace huio ⊢
  rw [State.respondPass_eq, passOutcome_eq hout]
  refine ⟨⟨?_, huo, huimg, hutrace, huio⟩, rfl, rfl, rfl, hframe.base, hframe.cmdw, hframe.cfg, hframe.offers, hframe.rtr,
    hframe.outBuf, hframe.rst.trans hr⟩
  rw [← passOutcome_code hout, ← hframe.responses]
  rfl

/-- Settles O32: the same pass, with the records it has left in the response. -/
theorem ctlbRunsThePassAndReturnsTheRecords : Obligations.CtlbRunsThePassAndReturnsTheRecords := by
  intro s outLen hsize hr hl ht ha hd
  obtain ⟨t, hexec, u, ⟨n, hn, hrun⟩, hframe, hout, huo, huimg, hutrace, huio⟩ :=
    InCommand.command_run (i := .ctlb outLen) (finish := State.respondImages) (fun _ => if_pos hsize) ⟨hr, hl, hd⟩ ha ht
  refine ⟨t, hexec, n, _, hn, hrun, ?_⟩
  generalize acquireAll s.cfg s.base s.io = r at huo huimg hutrace huio ⊢
  have hpayload : (if u.outcome = .controllerNotFound then [] else imagesPayload u.img) =
      if s.base = 0#16 then [] else r.images.flatMap SpdImage.serialise := by
    rw [hout, ← huimg]
    by_cases hb : s.base = 0#16 <;> simp [hb, imagesPayload]
  rw [State.respondImages_eq, passOutcome_eq hout, hpayload]
  refine ⟨⟨?_, huo, ?_, huimg, hutrace, huio⟩, rfl, rfl, rfl, hframe.base, hframe.cmdw, hframe.cfg, hframe.offers,
    hframe.rtr, hframe.rst.trans hr⟩
  · rw [← passOutcome_code hout, ← hframe.responses]
    rfl
  · rw [← hframe.outBuf]
    rfl

end Sys2Proof.Machine
end

section
/-! PROOFS. Bounded termination (R85, R120, R214): the steps that a command in progress still has before its response, and
that every step makes them fewer. -/

namespace Sys2Proof.Machine

/-! ### The steps left of a transaction -/

/-- The steps that a transaction still has, with the one that takes its result; all of them where none has begun. An
iteration of a wait is two steps (R86, R93). -/
def State.transactionLeft (s : State) : Nat :=
  match s.tphase with
  | .idle => 4005
  | .arbRead => 2 * (pollBudget - s.arbcnt) + 2004
  | .arbStall => 2 * (pollBudget - s.arbcnt) + 2003
  | .clear => 2005
  | .addr => 2004
  | .cmd => 2003
  | .start => 2002
  | .cmpRead => 2 * (pollBudget - s.cmpcnt) + 1
  | .cmpStall => 2 * (pollBudget - s.cmpcnt)
  | .data => 2
  | .done => 1

/-- No transaction has more steps than its two waits and its writes allow (R99). -/
theorem State.transactionLeft_le (s : State) : s.transactionLeft ≤ 4005 := by
  unfold State.transactionLeft pollBudget
  split <;> omega

theorem State.transactionLeft_of_idle {s : State} (ht : s.tphase = .idle) : s.transactionLeft = 4005 := by
  rw [State.transactionLeft, ht]

/-- With budget left in its waits a transaction has a step left (R93). -/
theorem TransportOk.transactionLeft_pos {s : State} (h : TransportOk s) : 0 < s.transactionLeft := by
  obtain ⟨-, -, hcmp, -⟩ := h
  cases ht : s.tphase <;> simp [State.transactionLeft, ht]
  exact hcmp (.inr ht)

/-- The start of a transaction is one of its steps (R84). -/
theorem State.startTransaction_transactionLeft (s : State) (slave : SlaveAddr) (offset : Byte) :
    (s.startTransaction slave offset).transactionLeft ≤ 4004 := by
  unfold State.startTransaction
  split
  · exact show 1 ≤ 4004 by decide
  · exact le_rfl

/-- Every event of a transaction is one of its steps (R85). -/
theorem TransportOk.transactionLeft_lt {s : State} (h : TransportOk s) (hactive : s.tphase.active = true) :
    s.transport.transactionLeft < s.transactionLeft := by
  obtain ⟨-, harb, hcmp, -⟩ := h
  cases ht : s.tphase <;> simp only [State.transport, State.transactionLeft, ht]
  case idle | done => rw [ht] at hactive; exact absurd hactive (by decide)
  case arbRead =>
    have hlt := harb (.inl ht)
    rw [State.arbRead_eq]
    by_cases hbusy : s.answer &&& s.cfg.mBusy = 0#8
    · simp [hbusy]; omega
    · simp [hbusy]
  case arbStall =>
    have hlt := harb (.inr ht)
    rw [State.arbStall_eq]
    by_cases hlast : s.arbcnt + 1 = pollBudget
    · simp [hlast]
    · simp [hlast]; omega
  case clear | addr | cmd => simp [State.clearStatus, State.writeAddr, State.writeCmd]
  case start => simp [State.writeStart, pollBudget]
  case cmpRead =>
    have hlt := hcmp (.inl ht)
    rw [State.cmpRead_eq]
    by_cases herr : s.answer &&& s.cfg.mErr = 0#8
    · by_cases hintr : s.answer &&& s.cfg.mIntr = 0#8
      · simp [herr, hintr]
      · simp [herr, hintr]; omega
    · simp [herr]; omega
  case cmpStall =>
    have hlt := hcmp (.inr ht)
    rw [State.cmpStall_eq]
    by_cases hlast : s.cmpcnt + 1 = pollBudget
    · simp [hlast]; omega
    · simp [hlast]; omega
  case data => simp [State.readData]

/-! ### The steps left of a command -/

/-- The steps of a slot of a pass: its 4 header and at most 512 body transactions, A_CLASSIFY and A_NEXT (R120). -/
def slotSteps : Nat := 516 * 4005 + 2

/-- The steps of the longest body (R116). -/
def bodySteps : Nat := 512 * 4005

/-- A slot is its header, its body and two steps more. -/
theorem slotSteps_eq : slotSteps = 4 * 4005 + bodySteps + 2 := rfl

/-- A body has at most 512 bytes, of which the first is about to be read (R114, R116). -/
theorem body_le_bodySteps {n : Nat} (h : n ≤ 512) : (n - 1) * 4005 + 4005 ≤ bodySteps :=
  Nat.add_le_add_right (Nat.mul_le_mul_right 4005 (Nat.sub_le_sub_right h 1)) 4005

/-- The steps that a command in progress still has, with the one that places its response (R121); outside a pass it is
RDBYTE. -/
def State.stepsLeft (s : State) : Nat :=
  match s.aphase with
  | .idle => s.transactionLeft
  | .clear => 8 * slotSteps + 2
  | .hdr => (7 - s.slot) * slotSteps + (3 - s.idx) * 4005 + s.transactionLeft + bodySteps + 3
  | .classify => (7 - s.slot) * slotSteps + bodySteps + 3
  | .body => (7 - s.slot) * slotSteps + (s.len - s.idx - 1) * 4005 + s.transactionLeft + 2
  | .next => (7 - s.slot) * slotSteps + 2
  | .done => 1

/-- No command in progress has more steps than a pass of eight slots. -/
theorem Inv.stepsLeft_le {s : State} (h : Inv s) : s.stepsLeft ≤ 16532658 := by
  have htrans := s.transactionLeft_le
  have hlen : s.len ≤ 512 := by
    obtain ⟨⟨-, -, -, hlen, -⟩, -⟩ := h
    rcases hlen with hlen | hlen | hlen <;> rw [hlen] <;> decide
  have hslots : (7 - s.slot) * slotSteps ≤ 7 * slotSteps := Nat.mul_le_mul_right _ (Nat.sub_le 7 _)
  have hslot : slotSteps = 2066582 := rfl
  have hbody : bodySteps = 2050560 := rfl
  unfold State.stepsLeft
  generalize (7 - s.slot) * slotSteps = later at hslots ⊢
  split <;> omega

theorem Inv.transportOk {s : State} (h : Inv s) : TransportOk s := by
  obtain ⟨-, -, -, htrans, -⟩ := h
  exact htrans

/-- A command in progress has a step left: that of its response. -/
theorem Inv.stepsLeft_pos {s : State} (h : Inv s) : 0 < s.stepsLeft := by
  have hpos := h.transportOk.transactionLeft_pos
  unfold State.stepsLeft
  split <;> omega

/-- An event of a transaction leaves fewer steps (R85). -/
theorem TransportOk.stepsLeft_lt {s : State} (h : TransportOk s) (hactive : s.tphase.active = true)
    (ha : s.aphase = .idle ∨ s.aphase = .hdr ∨ s.aphase = .body) : s.transport.stepsLeft < s.stepsLeft := by
  have hlt := h.transactionLeft_lt hactive
  rcases ha with ha | ha | ha <;> simpa [State.stepsLeft, ha] using hlt

/-- The start of a transaction of a pass leaves fewer steps (R84, R113, R116). -/
theorem stepsLeft_startTransaction {s : State} (ha : s.aphase = .idle ∨ s.aphase = .hdr ∨ s.aphase = .body)
    (ht : s.tphase = .idle) (slave : SlaveAddr) (offset : Byte) :
    (s.startTransaction slave offset).stepsLeft < s.stepsLeft := by
  have hstart := s.startTransaction_transactionLeft slave offset
  have hidle := State.transactionLeft_of_idle ht
  rcases ha with ha | ha | ha <;> simp [State.stepsLeft, ha] <;> omega

/-- Taking the result of a header byte leaves fewer steps (R113). -/
theorem stepsLeft_takeHeaderByte {s : State} (hp : s.aphase = .hdr) (ht : s.tphase = .done) :
    s.takeHeaderByte.stepsLeft < s.stepsLeft := by
  by_cases ho : s.outcome = .success
  · by_cases hmore : s.idx + 1 < hdrLen
    · have hmore' : s.idx < 3 := Nat.lt_of_succ_lt_succ hmore
      rw [State.takeHeaderByte_more ho hmore]
      simp [State.stepsLeft, State.transactionLeft, hp, ht]
      omega
    · rw [State.takeHeaderByte_last ho hmore]
      simp [State.stepsLeft, State.transactionLeft, hp, ht]
  · rw [State.takeHeaderByte_failed ho]
    simp [State.stepsLeft, State.transactionLeft, hp, ht]
    omega

/-- A_CLASSIFY leaves a body of at most 512 bytes (R114). -/
theorem stepsLeft_classify {s : State} (hp : s.aphase = .classify) (ht : s.tphase = .idle) :
    s.classify.stepsLeft < s.stepsLeft := by
  have hlen : classifyLength s.hdr[2] ≤ 512 := by
    rcases classifyLength_cases s.hdr[2] with hlen | hlen <;> rw [hlen] <;> decide
  have hbody := body_le_bodySteps hlen
  simp [State.stepsLeft, State.classify, State.transactionLeft, hp, ht, State.updateImage]
  omega

/-- Taking the result of a body byte leaves fewer steps (R116). -/
theorem stepsLeft_takeBodyByte {s : State} (hp : s.aphase = .body) (ht : s.tphase = .done) :
    s.takeBodyByte.stepsLeft < s.stepsLeft := by
  by_cases ho : s.outcome = .success
  · by_cases hmore : s.idx + 1 < s.len
    · rw [State.takeBodyByte_more ho hmore]
      simp [State.stepsLeft, State.transactionLeft, hp, ht]
      omega
    · rw [State.takeBodyByte_last ho hmore]
      simp [State.stepsLeft, State.transactionLeft, hp, ht]
  · rw [State.takeBodyByte_failed ho]
    simp [State.stepsLeft, State.transactionLeft, hp, ht]

/-- The next slot has the steps of one slot but one (R119). -/
theorem stepsLeft_nextSlot {s : State} (hp : s.aphase = .next) (ht : s.tphase = .idle) :
    s.nextSlot.stepsLeft < s.stepsLeft := by
  by_cases hmore : s.slot + 1 < nSlots
  · rw [State.nextSlot_more hmore]
    simp [State.stepsLeft, State.transactionLeft, hp, ht]
    have hslot : 7 - s.slot = 6 - s.slot + 1 := by
      unfold nSlots at hmore
      omega
    rw [hslot, Nat.succ_mul]
    have hsteps := slotSteps_eq
    omega
  · rw [State.nextSlot_last hmore]
    simp [State.stepsLeft, hp]

/-- The clear is a step more than the eight slots (R111, R112). -/
theorem stepsLeft_beginPass {s : State} (hp : s.aphase = .clear) (ht : s.tphase = .idle) :
    s.beginPass.stepsLeft < s.stepsLeft := by
  by_cases hb : s.base = 0#16
  · rw [State.beginPass_unresolved hb]
    simp [State.stepsLeft, hp]
  · rw [State.beginPass_resolved hb]
    simp [State.stepsLeft, State.transactionLeft, hp, ht]
    rw [slotSteps_eq]
    omega

/-- Every step of a pass but the response at its end leaves fewer steps (R121). -/
theorem PassStep.stepsLeft_lt {s t : State} {finish : State → State} (h : PassStep s finish t) (hp : s.aphase ≠ .idle)
    (hidle : s.aphase ≠ .hdr → s.aphase ≠ .body → s.tphase = .idle) :
    t.stepsLeft < s.stepsLeft ∨ t = finish s := by
  cases h with
  | enter ha => exact absurd ha hp
  | begin ha => exact .inl (stepsLeft_beginPass ha (hidle (by simp [ha]) (by simp [ha])))
  | hdrStart ha _ _ ht => exact .inl (stepsLeft_startTransaction (.inr (.inl ha)) ht _ _)
  | hdrTake ha _ _ ht => exact .inl (stepsLeft_takeHeaderByte ha ht)
  | classify ha => exact .inl (stepsLeft_classify ha (hidle (by simp [ha]) (by simp [ha])))
  | bodyStart ha _ _ _ ht => exact .inl (stepsLeft_startTransaction (.inr (.inr ha)) ht _ _)
  | bodyTake ha _ _ _ ht => exact .inl (stepsLeft_takeBodyByte ha ht)
  | advance ha => exact .inl (stepsLeft_nextSlot ha (hidle (by simp [ha]) (by simp [ha])))
  | finish ha => exact .inr rfl

/-- In a state of the invariant a step of the command that runs is its response, or leaves fewer steps (R16). -/
theorem CommandStep.stepsLeft_lt {i : Instr} {s t : State} (h : CommandStep s i t) (hready : CommandReady i s)
    (hruns : commandRuns i s = true) : t.stepsLeft < s.stepsLeft ∨ t.lock = false := by
  cases h with
  | setbase | ctla | ctlaSize | ctlbSize => exact .inr rfl
  | summ => rw [State.respondSummary_eq]; exact .inr rfl
  | rdbyteStart slave offset ht => simp [commandRuns, ht] at hruns
  | rdbyteEnd => rw [State.respondByte_eq]; exact .inr rfl
  | acqall _ hpass =>
    have hp : s.aphase ≠ .idle := by simpa [commandRuns] using hruns
    rcases hpass.stepsLeft_lt hp (hready.tphase_idle hp) with hlt | rfl
    · exact .inl hlt
    · rw [State.respondPass_eq]; exact .inr rfl
  | ctlb _ _ hsize hpass =>
    have hp : s.aphase ≠ .idle := by simpa [commandRuns, hsize] using hruns
    rcases hpass.stepsLeft_lt hp (hready.tphase_idle hp) with hlt | rfl
    · exact .inl hlt
    · rw [State.respondImages_eq]; exact .inr rfl

/-- A transaction in progress is that of RDBYTE, or of one of the two reading phases of a pass (R121). -/
theorem Inv.reading_of_active {s : State} (h : Inv s) (hactive : s.tphase.active = true) :
    s.aphase = .idle ∨ s.aphase = .hdr ∨ s.aphase = .body := by
  obtain ⟨-, -, -, -, -, -, hreads⟩ := h
  have ht : s.tphase ≠ .idle := by rintro ht; rw [ht] at hactive; exact absurd hactive (by decide)
  by_cases ha : s.aphase = .idle
  · exact .inl ha
  · exact .inr (hreads ht ha).1

/-- A step of a locked engine leaves fewer steps, or clears LOCK. -/
theorem Inv.step_stepsLeft {s t : State} (h : Inv s) (hr : s.rst = false) (hl : s.lock = true)
    (hstep : step s = .next t) : t.stepsLeft < s.stepsLeft ∨ t.lock = false := by
  cases step_cases hstep with
  | reset hrst => simp [hr] at hrst
  | transport _ hactive => exact .inl (h.transportOk.stepsLeft_lt hactive (h.reading_of_active hactive))
  | goOn i _ _ _ _ hd hcmd => exact hcmd.stepsLeft_lt (h.ready_of_locked hl hd) (h.commandRuns_of_locked hl hd)
  | goOnUnsupported _ _ _ _ hd => exact absurd hd (h.decodes_of_locked hl)
  | idle _ _ hl' | accept _ _ _ _ _ _ hl' | acceptUnsupported _ _ _ _ _ hl' => simp [hl] at hl'

/-- No step of a pass sets the reset input, if its response does not (R200). -/
theorem PassStep.rst_eq {s t : State} {finish : State → State} (h : PassStep s finish t)
    (hfinish : (finish s).rst = s.rst) : t.rst = s.rst := by
  rcases h.silentFrame_or_finish with ⟨hframe, -⟩ | ⟨-, rfl⟩
  · exact hframe.rst
  · exact hfinish

/-- No command sets the reset input (R200). -/
theorem CommandStep.rst_eq {i : Instr} {s t : State} (h : CommandStep s i t) : t.rst = s.rst := by
  cases h with
  | setbase | ctla | ctlaSize | ctlbSize => rfl
  | rdbyteStart slave offset => exact s.startTransaction_rst slave offset
  | rdbyteEnd => rw [State.respondByte_eq]; rfl
  | summ => rw [State.respondSummary_eq]; rfl
  | acqall _ hpass => exact hpass.rst_eq (by rw [State.respondPass_eq]; rfl)
  | ctlb _ _ _ hpass => exact hpass.rst_eq (by rw [State.respondImages_eq]; rfl)

/-- The machine does not reset itself (R200). -/
theorem rst_of_step {s t : State} (hr : s.rst = false) (h : step s = .next t) : t.rst = false := by
  cases step_cases h with
  | reset hrst => simp [hr] at hrst
  | transport => exact s.transport_rst.trans hr
  | idle | goOnUnsupported | acceptUnsupported => exact hr
  | goOn _ _ _ _ _ _ hcmd | accept _ _ _ _ _ _ _ _ _ hcmd => exact hcmd.rst_eq.trans hr

/-- A command in progress ends with one response, in as many steps as it has left. -/
theorem Inv.answers {s : State} (h : Inv s) (hr : s.rst = false) (hl : s.lock = true) :
    ∃ t r, Reaches s.stepsLeft s t ∧ t.lock = false ∧ t.responses = s.responses ++ [r] := by
  obtain ⟨t, hstep⟩ := invStateNeverStops s h
  have heffect : ResponseEffect s t := by
    rcases step_responseEffect hr hstep with heffect | ⟨hl', -⟩
    · exact heffect
    · simp [hl] at hl'
  cases heffect with
  | answer oc payload hresp hlock =>
    exact ⟨t, _, (Reaches.of_step hstep).mono h.stepsLeft_pos, hlock, hresp⟩
  | silent hresp hlock =>
    have hlt : t.stepsLeft < s.stepsLeft := by
      rcases h.step_stepsLeft hr hl hstep with hlt | hlock'
      · exact hlt
      · simp [hlock', hl] at hlock
    obtain ⟨u, r, hrun, hulock, huresp⟩ :=
      Inv.answers (stepKeepsInv s t h hstep) (rst_of_step hr hstep) (hlock.trans hl)
    exact ⟨u, r, ((Reaches.of_step hstep).trans hrun).mono (by omega), hulock, by rw [huresp, hresp]⟩
termination_by s.stepsLeft

/-- Settles O50: the steps left are at most those of a pass. -/
theorem everyCommandEnds : Obligations.EveryCommandEnds := by
  intro s hinv hr hl
  obtain ⟨t, r, ⟨n, hn, hrun⟩, hlock, hresp⟩ := hinv.answers hr hl
  exact ⟨n, t, r, hn.trans hinv.stepsLeft_le, hrun, hlock, hresp⟩

end Sys2Proof.Machine
end
